-- ==== Sys2Proof/Word.lean ====
section
/-! DEFINITION. The words of NKRX v7: every width the spec gives a port or a kind of register
(spec/10_state.md R20, spec/00_scope.md R10, R13). -/

namespace Sys2Proof

/-- A command word of the `CMD` port: `{OP[35:32], DATA[31:0]}` (R65). -/
abbrev CmdWord := BitVec 36

/-- A timestamp, an interval or a duration in microseconds, modulo 2^32 (`TSW` of R13). -/
abbrev Timestamp := BitVec 32

/-- A frame word of the `DISPATCH` port (R52). -/
abbrev FrameWord := BitVec 64

/-- The register `STATE`: 9 bits, two's complement (R21). -/
abbrev SeqWord := BitVec 9

end Sys2Proof
end

