-- ==== Sys2Proof/Syntax.lean ====
section
/-! DEFINITION. The commands of NKRX v7, one constructor per row of spec/opcode_table.json (R71), and the lines of the
spec's assembler (R78, R79). -/

namespace Sys2Proof

/-- A command. Its operand is what the block reads of `DATA` (R55, R67, R68); the bits it ignores (R69) are not part of
it. -/
inductive Instr where
  /-- `NOP` (R180). -/
  | nop
  /-- `EDGE ts`: one transition of the input line at the time `ts` (R90). -/
  | edge (ts : Timestamp)
  /-- `INIT n`: complete reset with the repeat threshold `n` (R182). -/
  | init (n : BitVec 8)
  /-- `ENABLE` (R184). -/
  | enable
  /-- `DISABLE` (R185). -/
  | disable
  /-- `CB_DONE`: the consumer's answer to a dispatch (R175). -/
  | cbDone
  /-- The reserved opcodes `0x6` to `0xF` (R73, R181), one row of the opcode table each. -/
  | reserved6
  | reserved7
  | reserved8
  | reserved9
  | reservedA
  | reservedB
  | reservedC
  | reservedD
  | reservedE
  | reservedF
  deriving DecidableEq, Repr

/-- The switch type of a `FRAME` line (R79), with the dim level only a Dim frame carries (R75), 4 bits wide (log entry
16). -/
inductive FrameSwitch where
  | off
  | on
  | dim (level : BitVec 4)
  deriving DecidableEq, Repr

/-- A line of the assembler: the forms of R78, the directive `.T n` and the pseudo-instructions of R79. Operands are
the integers the line is written with, but for those of `FRAME`: R79 gives them no range, and the model takes each at the
width of the field it becomes, 26, 1, 4 and 4 bits for address, group, unit and dim level, so that a wider operand is no
line. DESIGN CHOICE, log entry 16. -/
inductive AsmLine where
  | nop
  | edge (ts : Nat)
  | init (n : Nat)
  | enable
  | disable
  | cbDone
  /-- `.T n`: sets the time unit of the pseudo-instructions. -/
  | unit (n : Nat)
  | pulse (d : Nat)
  | start
  | stop
  | bit0
  | bit1
  | bitD
  | bits (v n : Nat)
  | frame (addr : BitVec 26) (group : BitVec 1) (switch : FrameSwitch) (unit : BitVec 4)
  deriving DecidableEq, Repr

end Sys2Proof
end

