-- ==== Sys2Proof/WellFormed.lean ====
section
/-! DEFINITION. The checks of a program: which commands a program may issue (R73) and the operand ranges of the
assembler's forms (R78). The block itself checks nothing (R204, R221): no meaning consults this file. -/

namespace Sys2Proof

/-- Whether a program may issue the command: "a program must not issue" a reserved word (R73, R181). The block still
executes one, as `NOP`. -/
def Instr.wf : Instr → Bool
  | .nop | .edge _ | .init _ | .enable | .disable | .cbDone => true
  | .reserved6 | .reserved7 | .reserved8 | .reserved9 | .reservedA => false
  | .reservedB | .reservedC | .reservedD | .reservedE | .reservedF => false

/-- The operand ranges of R78: `EDGE ts` with `0 <= ts < 2^32`, `INIT n` with `0 <= n <= 255`. The other forms have no
range to keep. -/
def AsmLine.wf : AsmLine → Bool
  | .edge ts => decide (ts < 2 ^ 32)
  | .init n => decide (n ≤ 255)
  | .nop | .enable | .disable | .cbDone | .unit _ | .pulse _ | .start | .stop => true
  | .bit0 | .bit1 | .bitD | .bits _ _ | .frame _ _ _ _ => true

end Sys2Proof
end

