-- ==== Sys2Proof/Decode.lean ====
section
/-! DEFINITION. The command word: its fields (R65 to R68), the decoder, total on every 36-bit word (R70 to R72), the
encoder written from the same map (R65, R69), and the rows of spec/opcode_table.json. -/

namespace Sys2Proof

/-- `OP = CMD[35:32]` (R65). -/
def opField (w : CmdWord) : BitVec 4 := w.extractLsb' 32 4

/-- `DATA = CMD[31:0]` (R65). -/
def dataField (w : CmdWord) : BitVec 32 := w.extractLsb' 0 32

/-- The operand of `EDGE`: `ts = DATA[31:0]` (R67). -/
def tsOperand (w : CmdWord) : Timestamp := dataField w

/-- The operand of `INIT`: `n = DATA[7:0]`; `DATA[31:8]` is ignored (R68, R69). -/
def thresholdOperand (w : CmdWord) : BitVec 8 := (dataField w).extractLsb' 0 8

/-- The decoder looks at `OP` only (R70) and every word selects exactly one command (R72). -/
def decodeWord (w : CmdWord) : Instr :=
  match (opField w).toFin with
  | 0x0 => .nop
  | 0x1 => .edge (tsOperand w)
  | 0x2 => .init (thresholdOperand w)
  | 0x3 => .enable
  | 0x4 => .disable
  | 0x5 => .cbDone
  | 0x6 => .reserved6
  | 0x7 => .reserved7
  | 0x8 => .reserved8
  | 0x9 => .reserved9
  | 0xA => .reservedA
  | 0xB => .reservedB
  | 0xC => .reservedC
  | 0xD => .reservedD
  | 0xE => .reservedE
  | 0xF => .reservedF
  | ⟨n + 16, h⟩ => absurd h (by omega)

/-- Why a number is no command word. -/
inductive DecodeError where
  /-- It needs more than the 36 bits of a command: "a command is always exactly 36 bits" (R70). -/
  | widerThanCommand
  deriving DecidableEq, Repr

/-- Decoding of any natural number, read as the bits of a word with bit 0 least significant (R15): a number of at most
36 bits is a command, a wider one is rejected by name. -/
def decodeBits (w : Nat) : Except DecodeError Instr :=
  if w < 2 ^ 36 then .ok (decodeWord (BitVec.ofNat 36 w)) else .error .widerThanCommand

/-- What the decoder reads from the low `nbits` bits of `w`, the bits above them zero. -/
def decodeTableWord (nbits w : Nat) : Option Instr :=
  match decodeBits (w % 2 ^ nbits) with
  | .ok i => some i
  | .error _ => none

/-! ### The encoder -/

/-- The opcode of a command (R71). -/
def Instr.opcode : Instr → BitVec 4
  | .nop => 0x0
  | .edge _ => 0x1
  | .init _ => 0x2
  | .enable => 0x3
  | .disable => 0x4
  | .cbDone => 0x5
  | .reserved6 => 0x6
  | .reserved7 => 0x7
  | .reserved8 => 0x8
  | .reserved9 => 0x9
  | .reservedA => 0xA
  | .reservedB => 0xB
  | .reservedC => 0xC
  | .reservedD => 0xD
  | .reservedE => 0xE
  | .reservedF => 0xF

/-- The `DATA` field an assembler writes: the operand, unused bits 0 (R65, R69). -/
def Instr.data : Instr → BitVec 32
  | .edge ts => ts
  | .init n => n.zeroExtend 32
  | .nop | .enable | .disable | .cbDone => 0
  | .reserved6 | .reserved7 | .reserved8 | .reserved9 | .reservedA => 0
  | .reservedB | .reservedC | .reservedD | .reservedE | .reservedF => 0

/-- `{OP, DATA}` (R65, R78). -/
def encode (i : Instr) : CmdWord := i.opcode ++ i.data

/-! ### The opcode table -/

/-- One row of spec/opcode_table.json: a word `w` is the row's command when `w &&& mask = bits`. -/
structure OpcodeRow where
  mnemonic : String
  bits : CmdWord
  mask : CmdWord
  deriving DecidableEq, Repr

/-- The rows that have a meaning (R71). -/
def commandRows : List OpcodeRow := [
  ⟨"NOP", 0x000000000, 0xF00000000⟩,
  ⟨"EDGE", 0x100000000, 0xF00000000⟩,
  ⟨"INIT", 0x200000000, 0xF00000000⟩,
  ⟨"ENABLE", 0x300000000, 0xF00000000⟩,
  ⟨"DISABLE", 0x400000000, 0xF00000000⟩,
  ⟨"CB_DONE", 0x500000000, 0xF00000000⟩]

/-- The reserved rows (R71, R73). -/
def reservedRows : List OpcodeRow := [
  ⟨"RESERVED_6", 0x600000000, 0xF00000000⟩,
  ⟨"RESERVED_7", 0x700000000, 0xF00000000⟩,
  ⟨"RESERVED_8", 0x800000000, 0xF00000000⟩,
  ⟨"RESERVED_9", 0x900000000, 0xF00000000⟩,
  ⟨"RESERVED_A", 0xA00000000, 0xF00000000⟩,
  ⟨"RESERVED_B", 0xB00000000, 0xF00000000⟩,
  ⟨"RESERVED_C", 0xC00000000, 0xF00000000⟩,
  ⟨"RESERVED_D", 0xD00000000, 0xF00000000⟩,
  ⟨"RESERVED_E", 0xE00000000, 0xF00000000⟩,
  ⟨"RESERVED_F", 0xF00000000, 0xF00000000⟩]

/-- The whole table of spec/opcode_table.json, in its order. -/
def opcodeTable : List OpcodeRow := commandRows ++ reservedRows

/-- The mnemonic of a command, as the table spells it. -/
def Instr.mnemonic : Instr → String
  | .nop => "NOP"
  | .edge _ => "EDGE"
  | .init _ => "INIT"
  | .enable => "ENABLE"
  | .disable => "DISABLE"
  | .cbDone => "CB_DONE"
  | .reserved6 => "RESERVED_6"
  | .reserved7 => "RESERVED_7"
  | .reserved8 => "RESERVED_8"
  | .reserved9 => "RESERVED_9"
  | .reservedA => "RESERVED_A"
  | .reservedB => "RESERVED_B"
  | .reservedC => "RESERVED_C"
  | .reservedD => "RESERVED_D"
  | .reservedE => "RESERVED_E"
  | .reservedF => "RESERVED_F"

/-- Whether a word belongs to a row. -/
def OpcodeRow.selects (r : OpcodeRow) (w : CmdWord) : Bool := decide (w &&& r.mask = r.bits)

end Sys2Proof
end

