-- ==== Sys2Proof/Config.lean ====
section
/-! DEFINITION. The parameters and fixed constants of spec/00_scope.md R13, and the one parameter the
spec leaves OPEN (R187, 92_eei_decisions.md D21). -/

namespace Sys2Proof

/-- `SYNC_FLOOR_US`, the sync floor in microseconds, at the value NKRX v7 takes (R13; 92_eei_decisions.md D5).
Log entry 10. -/
abbrev Config.syncFloorUs : Nat := 4800

/-- `SYNC_UNITS`: a sync gap is 40 time units (R13). -/
abbrev Config.syncUnits : Nat := 40

/-- Lower end of the short-pulse range, 0.3 time units, as numerator and denominator (R13). -/
abbrev Config.shortMinNum : Nat := 3
abbrev Config.shortMinDen : Nat := 10

/-- Upper end of the short-pulse range, 3 time units (R13). -/
abbrev Config.shortMaxUnits : Nat := 3

/-- The long-pulse range, 3 to 8 time units (R13). -/
abbrev Config.longMinUnits : Nat := 3
abbrev Config.longMaxUnits : Nat := 8

/-- The start-bit low range, 7 to 15 time units (R13). -/
abbrev Config.startLowMinUnits : Nat := 7
abbrev Config.startLowMaxUnits : Nat := 15

/-- The stop-bit low range, 20 to 80 time units (R13). -/
abbrev Config.stopLowMinUnits : Nat := 20
abbrev Config.stopLowMaxUnits : Nat := 80

/-- `RX_THRESHOLD_STATE`, OPEN: an integer in 0..146 whose value no source gives (R13, R187; D21; U2). It has no
body, so that no proof can see its value; its type keeps the range the spec sets. Log entry 9. -/
opaque Config.rxThresholdState : Fin 147

end Sys2Proof
end

