-- ==== Sys2Proof/Machine/State.lean ====
section
/-! DEFINITION. The state of NKRX v7: the registers of spec/10_state.md R20, the words waiting on the command port, and
the observation and trace of a run (R11, R17). Plain data throughout. -/

namespace Sys2Proof.Machine

/-- The three agents that issue commands (R8). -/
inductive Agent where
  | edgeSource
  | host
  | consumer
  deriving DecidableEq, Repr

/-- One command waiting on the `CMD` port, with the agent that issues it. The block sees the word only (R213); the
issuer is kept so that the agents' duties (R219 to R221) can be stated. -/
structure Command where
  issuer : Agent
  word : CmdWord
  deriving DecidableEq, Repr

/-- The causes of a resync, `RS1` to `RS7` (R200). They exist in the model's trace only. -/
inductive ResyncCause where
  /-- RS1 START_HI_LONG: at `STATE` 0, `d > 3 P`. -/
  | startHiLong
  /-- RS2 START_LO_RANGE: at `STATE` 1, `d < 7 P` or `d > 15 P`. -/
  | startLoRange
  /-- RS3 PART_RANGE: at `STATE` 2..145, `d` neither short nor long. -/
  | partRange
  /-- RS4 BAD_PATTERN: at a fourth part, `ACC` is no symbol. -/
  | badPattern
  /-- RS5 DIM_MISPLACED: at a fourth part other than `STATE` 113, the dim marker. -/
  | dimMisplaced
  /-- RS6 STOP_HI_LONG: at `STATE` 146, `d > 3 P`. -/
  | stopHiLong
  /-- RS7 STOP_LO_RANGE: at `STATE` 147, `d < 20 P` or `d > 80 P`. -/
  | stopLoRange
  deriving DecidableEq, Repr

/-- What one executed `EDGE` was: an event of R201 or a resync with its cause (R200). -/
inductive EdgeEvent where
  | disabled
  | skipped
  | noise
  | ignored
  | sync
  | advance
  | frameRepeat
  | dispatch
  | suppressed
  | resync (cause : ResyncCause)
  deriving DecidableEq, Repr

/-- Why a step stops. The block has no fault of its own (R204); both reasons are the treatment that
spec/93_implementation_defined.md U12 gives a register value no rule writes, and no run reaches either. -/
inductive Fault where
  /-- Raised by `EDGE` (execEdge) where it first reads `STATE` and the value is outside -1..147: no arm exists. Safe:
  U12 says "the step on them is a fault". Log entry 6. -/
  | illegalSequencerState
  /-- Raised by `EDGE` (execEdge) where it reads `F_SWITCH` and the value is 3, which stands for no switch type: the
  last unit bit (`STATE` 129) and the completed frame (`STATE` 147). Safe: U12. Log entry 7. -/
  | illegalSwitchType
  deriving DecidableEq, Repr

/-- Why a step has no meaning. The block refuses nothing (R221). -/
inductive Refusal where
  /-- Raised by exec's arms for an instruction without a meaning yet. No arm of this model is one. Safe: the machine
  stops. -/
  | notModelled (mnemonic : String)
  deriving DecidableEq, Repr

/-- The registers of R20 under the spec's names, then the model's own view of the outside. -/
structure State where
  /-- `STATE`, the sequencer state, 9-bit two's complement (R21). -/
  state : SeqWord
  /-- `ENABLED` (R25). -/
  enabled : Bool
  /-- `SKIP` (R26). -/
  skip : Bool
  /-- `TS[0]`, the leading edge of the pulse measured next (R27). -/
  ts0 : Timestamp
  /-- `TS[1]`, the enabled edge before the most recent one (R27). -/
  ts1 : Timestamp
  /-- `TS[2]`, the most recent enabled edge (R27). -/
  ts2 : Timestamp
  /-- `PERIOD`, the time unit in microseconds (R28). -/
  period : BitVec 32
  /-- `MIN1`, `MAX1`, `MIN5`, `MAX5`, the calibrated thresholds (R29). -/
  min1 : BitVec 32
  max1 : BitVec 32
  min5 : BitVec 32
  max5 : BitVec 32
  /-- `F_ADDR`, `F_GROUP`, `F_SWITCH`, `F_UNIT`, `F_DIM`, the scratch frame (R31 to R33). -/
  fAddr : BitVec 26
  fGroup : BitVec 1
  fSwitch : BitVec 2
  fUnit : BitVec 4
  fDim : BitVec 4
  /-- `ACC`, the bit-part accumulator (R34). -/
  acc : BitVec 4
  /-- `B_ADDR`, `B_GROUP`, `B_SWITCH`, `B_UNIT`, `B_DIM`, the baseline frame (R35). -/
  bAddr : BitVec 26
  bGroup : BitVec 1
  bSwitch : BitVec 2
  bUnit : BitVec 4
  bDim : BitVec 4
  /-- `REPEATS` (R36). -/
  repeats : BitVec 8
  /-- `MIN_REPEATS` (R37). -/
  minRepeats : BitVec 8
  /-- `IN_CALLBACK`, the re-entrancy guard (R40). -/
  inCallback : Bool
  /-- `OUT_FRAME`, the frame of the most recent dispatch (R41). -/
  outFrame : FrameWord
  /-- The commands waiting on the `CMD` port in their merged order, next first (R9, R60). Model's own, log entry 1. -/
  pending : List Command
  /-- The `DISPATCH` events emitted, oldest first, each with its frame word (R11, R17). Model's own, log entry 3. -/
  dispatches : List FrameWord
  /-- The model's trace: what each executed `EDGE` was, oldest first (R17, R201). Model's own, log entry 4. -/
  trace : List EdgeEvent
  deriving DecidableEq, Repr

/-- Power-on reset (R230): the "power-on reset" column of R45. Nothing is waiting on the port, nothing has been emitted
and the trace is empty (log entries 1, 3, 4). -/
def State.reset : State where
  state := 0x1FF
  enabled := false
  skip := false
  ts0 := 0
  ts1 := 0
  ts2 := 0
  period := 0
  min1 := 0
  max1 := 0
  min5 := 0
  max5 := 0
  fAddr := 0
  fGroup := 0
  fSwitch := 0
  fUnit := 0
  fDim := 0
  acc := 0
  bAddr := 0
  bGroup := 0
  bSwitch := 0
  bUnit := 0
  bDim := 0
  repeats := 0
  minRepeats := 0
  inCallback := false
  outFrame := 0
  pending := []
  dispatches := []
  trace := []

end Sys2Proof.Machine
end

