-- ==== Sys2Proof/Machine/Operands.lean ====
section
/-! DEFINITION. The values an arm works on: the arithmetic of R16, the sequencer index and its arm (R21, R22, R96), the
measured interval and duration (R94, R95), the calibration values (R111, R112), the pulse classes and symbols (R131,
R134), the field a bit belongs to (R22, R138) and the packed frame word (R52). -/

namespace Sys2Proof.Machine

/-! ### Arithmetic (R16) -/

/-- `sub32(a, b) = (a - b) mod 2^32`. -/
def sub32 (a b : Timestamp) : Timestamp := a - b

/-- `shl_N(v, b) = ((v * 2) + b) mod 2^N`. -/
def shl {n : Nat} (v : BitVec n) (b : Bool) : BitVec n := BitVec.ofNat n (v.toNat * 2 + b.toNat)

/-- `ceil(a / b)`. -/
def ceilDiv (a b : Nat) : Nat := (a + b - 1) / b

/-! ### The sequencer index -/

/-- `STATE` as the integer it holds (R21). -/
def State.index (s : State) : Int := s.state.toInt

/-- The arms of `EDGE` (R90). -/
inductive Arm where
  | search
  | startHi
  | startLo
  | part
  | stopHi
  | stopLo
  deriving DecidableEq, Repr

/-- The arm a value of `STATE` selects (R90, R96); a value outside -1..147 has none (U12). -/
def armOf (x : Int) : Option Arm :=
  if x = -1 then some .search
  else if x = 0 then some .startHi
  else if x = 1 then some .startLo
  else if 2 ≤ x ∧ x ≤ 145 then some .part
  else if x = 146 then some .stopHi
  else if x = 147 then some .stopLo
  else none

/-! ### Measurement -/

/-- The interval between the two most recent edges, once the new one has been shifted in (R94). -/
def State.interval (s : State) : Timestamp := sub32 s.ts2 s.ts1

/-- The duration of the pulse that ended at the previous enabled edge, once the new edge has been shifted in (R95). -/
def State.duration (s : State) : Timestamp := sub32 s.ts1 s.ts0

/-! ### Calibration -/

/-- `PERIOD = floor(d / 40)` (R111). -/
def periodOf (d : Timestamp) : Nat := d.toNat / Config.syncUnits

/-- `MIN1 = ceil(3 * P / 10)` (R112). -/
def min1Of (p : Nat) : Nat := ceilDiv (Config.shortMinNum * p) Config.shortMinDen

/-- `MAX1 = 3 * P` (R112). -/
def max1Of (p : Nat) : Nat := Config.shortMaxUnits * p

/-- `MIN5 = 3 * P` (R112). -/
def min5Of (p : Nat) : Nat := Config.longMinUnits * p

/-- `MAX5 = 8 * P` (R112). -/
def max5Of (p : Nat) : Nat := Config.longMaxUnits * p

/-! ### Ranges computed from `PERIOD` -/

/-- The start-bit low lies in the closed range [7 P, 15 P] (R128). -/
def startLowInRange (d : Timestamp) (s : State) : Bool :=
  decide (Config.startLowMinUnits * s.period.toNat ≤ d.toNat) && decide (d.toNat ≤ Config.startLowMaxUnits * s.period.toNat)

/-- The stop-bit low lies in the closed range [20 P, 80 P] (R161). -/
def stopLowInRange (d : Timestamp) (s : State) : Bool :=
  decide (Config.stopLowMinUnits * s.period.toNat ≤ d.toNat) && decide (d.toNat ≤ Config.stopLowMaxUnits * s.period.toNat)

/-! ### Pulse classes and symbols -/

/-- The class bit of a part (R131): short gives 0, long gives 1, and a duration in neither range has none. The short
test is made first, so `d = 3 P` is short. -/
def classOf (d : Timestamp) (s : State) : Option Bool :=
  if s.min1.toNat ≤ d.toNat ∧ d.toNat ≤ s.max1.toNat then some false
  else if s.min5.toNat ≤ d.toNat ∧ d.toNat ≤ s.max5.toNat then some true
  else none

/-- The value of one logical bit (R134). -/
inductive Symbol where
  | zero
  | one
  | dimMark
  deriving DecidableEq, Repr

/-- The symbol of a complete accumulator, none for the 13 invalid patterns (R134, R135). -/
def symbolOf (acc : BitVec 4) : Option Symbol :=
  if acc = 0b0001#4 then some .zero
  else if acc = 0b0100#4 then some .one
  else if acc = 0b0000#4 then some .dimMark
  else none

/-- The encoding of the switch type a symbol stands for: Off = 0, On = 1, Dim = 2 (R33, R141). -/
def switchOf : Symbol → BitVec 2
  | .zero => 0
  | .one => 1
  | .dimMark => 2

/-- Whether the part at this index is the fourth of its bit (R133). -/
def isFourthPart (x : Int) : Bool := decide (x % 4 = 1)

/-- The fields of a frame (R22). -/
inductive Field where
  | addr
  | group
  | switch
  | unit
  | dim
  deriving DecidableEq, Repr

/-- The field of a bit that completes at index `x`, in the order PART tests it (R130, R138). -/
def fieldAt (x : Int) : Field :=
  if x = 113 then .switch
  else if x ≤ 105 then .addr
  else if x = 109 then .group
  else if x ≤ 129 then .unit
  else .dim

/-! ### The frame word -/

/-- `pack(P, A, U, G, S, D) = {P[26:0], D[3:0], S[1:0], G, U[3:0], A[25:0]}` (R52). -/
def pack (p : BitVec 32) (a : BitVec 26) (u : BitVec 4) (g : BitVec 1) (sw : BitVec 2) (d : BitVec 4) : FrameWord :=
  p.extractLsb' 0 27 ++ d ++ sw ++ g ++ u ++ a

/-- The frame word of the scratch frame with the current `PERIOD` (R160, R166). -/
def State.frameWord (s : State) : FrameWord := pack s.period s.fAddr s.fUnit s.fGroup s.fSwitch s.fDim

/-- Whether the scratch frame equals the baseline on the five compared fields and on nothing else (R162). -/
def State.sameAsBaseline (s : State) : Bool :=
  decide (s.fAddr = s.bAddr ∧ s.fUnit = s.bUnit ∧ s.fDim = s.bDim ∧ s.fGroup = s.bGroup ∧ s.fSwitch = s.bSwitch)

end Sys2Proof.Machine
end

