-- ==== Sys2Proof/Machine/Flags.lean ====
section
/-! DEFINITION. The 1-bit conditions of a step: the noise test that sets `SKIP` (R94), the short-pulse bound of the start
and stop bits (R126, R147), the switch-type tests (R142, U12), the repeat threshold (R165) and the output level
`RECEIVING` (R187). -/

namespace Sys2Proof.Machine

/-- The noise test, made once the new edge has been shifted in: `STATE >= 0` and the newest interval is less than `MIN1`
(R94). -/
def State.isNoise (s : State) : Bool := decide (0 ≤ s.index) && decide (s.interval.toNat < s.min1.toNat)

/-- The upper bound of the start-bit and stop-bit high pulses (R126, R147). -/
def exceedsShortMax (d : Timestamp) (s : State) : Bool := decide (s.max1.toNat < d.toNat)

/-- `F_SWITCH = 3` stands for no switch type (R33, U12). -/
def State.switchIllegal (s : State) : Bool := decide (s.fSwitch = 3)

/-- The switch type of the scratch frame is Dim (R142). -/
def State.isDimFrame (s : State) : Bool := decide (s.fSwitch = 2)

/-- `REPEATS >= MIN_REPEATS` (R165). -/
def State.thresholdReached (s : State) : Bool := decide (s.minRepeats.toNat ≤ s.repeats.toNat)

/-- `STATE > r`: the receiving status for a threshold state `r` (R187). -/
def State.receivingAbove (s : State) (r : Int) : Bool := decide (r < s.index)

/-- The output `RECEIVING`, at the OPEN threshold state (R187, D21). -/
def State.receiving (s : State) : Bool := s.receivingAbove Config.rxThresholdState.val

end Sys2Proof.Machine
end

