-- ==== Sys2Proof/Machine/Ops.lean ====
section
/-! DEFINITION. The operations the commands share: writes of the sequencer state (R17, R144), the delay line (R92, R95),
the resync (R202), the calibration (R110 to R113), the aggregator's writes (R163, R164), dispatch entry and return (R210,
R211), and taking a command from the port (R9). -/

namespace Sys2Proof.Machine

/-- Appends to the model's trace (R17). -/
def State.note (e : EdgeEvent) (s : State) : State := { s with trace := s.trace ++ [e] }

/-! ### The sequencer state -/

/-- `raise Resync(cause)`: writes `STATE <- -1`, records the cause in the trace, and writes nothing else (R17, R202). -/
def State.raiseResync (c : ResyncCause) (s : State) : State := ({ s with state := 0x1FF }).note (.resync c)

/-- `STATE <- x`, the edge having passed its test (R201 ADVANCE). -/
def State.advanceTo (x : SeqWord) (s : State) : State := ({ s with state := x }).note .advance

/-- `STATE <- STATE + 1` (R137, R144). -/
def State.advance (s : State) : State := s.advanceTo (s.state + 1)

/-! ### The delay line and the skip flag -/

/-- `TS[1] <- TS[2]; TS[2] <- ts` (R92). -/
def State.shiftDelay (ts : Timestamp) (s : State) : State := { s with ts1 := s.ts2, ts2 := ts }

/-- `TS[0] <- TS[1]`: the next measured pulse starts where this one ended (R95). -/
def State.moveLeadingEdge (s : State) : State := { s with ts0 := s.ts1 }

/-- A skipped edge: `SKIP <- 0` (R93). -/
def State.consumeSkip (s : State) : State := ({ s with skip := false }).note .skipped

/-- A rejected edge: `SKIP <- 1` (R94). -/
def State.rejectNoise (s : State) : State := ({ s with skip := true }).note .noise

/-! ### Calibration -/

/-- A calibration on a sync gap of duration `d` (R110 to R113): the period, the four thresholds, the cleared scratch
fields and count, and `STATE <- 0`. -/
def State.calibrate (d : Timestamp) (s : State) : State :=
  ({ s with
      period := BitVec.ofNat 32 (periodOf d)
      min1 := BitVec.ofNat 32 (min1Of (periodOf d))
      max1 := BitVec.ofNat 32 (max1Of (periodOf d))
      min5 := BitVec.ofNat 32 (min5Of (periodOf d))
      max5 := BitVec.ofNat 32 (max5Of (periodOf d))
      fAddr := 0
      fUnit := 0
      fDim := 0
      repeats := 0
      state := 0 }).note .sync

/-! ### The accumulator -/

/-- `ACC <- shl_4(ACC, b)` (R132). -/
def State.shiftAcc (b : Bool) (s : State) : State := { s with acc := shl s.acc b }

/-! ### The field registers -/

/-- `F_ADDR <- shl_26(F_ADDR, v)` (R139). -/
def State.shiftAddr (v : Bool) (s : State) : State := { s with fAddr := shl s.fAddr v }

/-- `F_GROUP <- v` (R140). -/
def State.setGroup (v : Bool) (s : State) : State := { s with fGroup := BitVec.ofBool v }

/-- `F_SWITCH <- 0`, `1` or `2` for ZERO, ONE or DIMMARK (R141). -/
def State.setSwitch (sym : Symbol) (s : State) : State := { s with fSwitch := switchOf sym }

/-- `F_UNIT <- shl_4(F_UNIT, v)` (R142). -/
def State.shiftUnit (v : Bool) (s : State) : State := { s with fUnit := shl s.fUnit v }

/-- `F_DIM <- shl_4(F_DIM, v)` (R143). -/
def State.shiftDim (v : Bool) (s : State) : State := { s with fDim := shl s.fDim v }

/-! ### The repeat aggregator -/

/-- The comparison and the new baseline: where the scratch frame differs, `REPEATS <- 0` and the five baseline
registers take the scratch values (R162, R163). -/
def State.compareBaseline (s : State) : State :=
  if s.sameAsBaseline then s
  else { s with
    repeats := 0
    bAddr := s.fAddr
    bUnit := s.fUnit
    bDim := s.fDim
    bGroup := s.fGroup
    bSwitch := s.fSwitch }

/-- `REPEATS <- REPEATS + 1` (R164). The count never reaches the register's end in a run (R36); log entry 8. -/
def State.countFrame (s : State) : State := { s with repeats := s.repeats + 1 }

/-- A frame below the threshold: `STATE <- 0` (R168). -/
def State.awaitRepeat (s : State) : State := ({ s with state := 0 }).note .frameRepeat

/-- Dispatch entry (R210): in one step `IN_CALLBACK <- 1`, the frame goes to `OUT_FRAME` and is emitted, and
`STATE <- -1`. -/
def State.dispatchEntry (s : State) : State :=
  ({ s with
      inCallback := true
      outFrame := s.frameWord
      dispatches := s.dispatches ++ [s.frameWord]
      state := 0x1FF }).note .dispatch

/-- Dispatch return (R211): `IN_CALLBACK <- 0`, and nothing else is restored. -/
def State.dispatchReturn (s : State) : State := { s with inCallback := false }

/-- A suppressed dispatch: nothing is emitted, and `STATE <- -1` (R167, R168). -/
def State.suppressDispatch (s : State) : State := ({ s with state := 0x1FF }).note .suppressed

/-! ### The command port -/

/-- The next command word of the merged sequence and the state without it; none where no agent has issued one (R9,
R244). -/
def State.takeCommand (s : State) : Option (CmdWord × State) :=
  match s.pending with
  | [] => none
  | c :: rest => some (c.word, { s with pending := rest })

/-- The state with one more command, to be executed next. -/
def State.offerCommand (a : Agent) (w : CmdWord) (s : State) : State := { s with pending := ⟨a, w⟩ :: s.pending }

/-- The command word of an instruction laid out as `nbits` bits of a number, the bits above them zero (R15, R65). -/
def tableWord (nbits w : Nat) : CmdWord := BitVec.ofNat 36 (w % 2 ^ nbits)

end Sys2Proof.Machine
end

