-- ==== Sys2Proof/Machine/Control.lean ====
section
/-! DEFINITION. `NOP`, the reserved commands, `INIT`, `ENABLE` and `DISABLE` (spec/44_control.md). -/

namespace Sys2Proof.Machine

open Host (Outcome)

/-- A command that changes nothing (R180, R181). -/
def noChange (s : State) : Outcome State Fault Refusal := .next s

/-- `NOP` (R180). -/
def execNop (s : State) : Outcome State Fault Refusal := noChange s

/-- The reserved commands, each ignored as `NOP` (R181). -/
def execReserved6 (s : State) : Outcome State Fault Refusal := noChange s
def execReserved7 (s : State) : Outcome State Fault Refusal := noChange s
def execReserved8 (s : State) : Outcome State Fault Refusal := noChange s
def execReserved9 (s : State) : Outcome State Fault Refusal := noChange s
def execReservedA (s : State) : Outcome State Fault Refusal := noChange s
def execReservedB (s : State) : Outcome State Fault Refusal := noChange s
def execReservedC (s : State) : Outcome State Fault Refusal := noChange s
def execReservedD (s : State) : Outcome State Fault Refusal := noChange s
def execReservedE (s : State) : Outcome State Fault Refusal := noChange s
def execReservedF (s : State) : Outcome State Fault Refusal := noChange s

/-- The registers at the "after `INIT`" column of R45: the power-on values but `MIN_REPEATS = n` and `ENABLED = 1`
(R182, R231). What is outside the block, the waiting commands, the observation and the trace, is no register and
stays. -/
def State.initialised (n : BitVec 8) (s : State) : State :=
  { State.reset with
    minRepeats := n
    enabled := true
    pending := s.pending
    dispatches := s.dispatches
    trace := s.trace }

/-- `INIT n` (R182). -/
def execInit (n : BitVec 8) (s : State) : Outcome State Fault Refusal := .next (s.initialised n)

/-- `ENABLE` (R184). -/
def execEnable (s : State) : Outcome State Fault Refusal :=
  .next { s with enabled := true, state := 0x1FF, skip := false }

/-- `DISABLE` (R185). -/
def execDisable (s : State) : Outcome State Fault Refusal := .next { s with enabled := false }

end Sys2Proof.Machine
end

