-- ==== Sys2Proof/Machine/FieldDecoder.lean ====
section
/-! DEFINITION. The decoding arms of `EDGE`, `STATE` 0 to 146 (spec/42_field_decoder.md). -/

namespace Sys2Proof.Machine

open Host (Outcome)

/-- `START_HI(d)`, the arm for `STATE = 0` (R126). -/
def startHi (d : Timestamp) (s : State) : State :=
  if exceedsShortMax d s then s.raiseResync .startHiLong else s.advanceTo 1

/-- `START_LO(d)`, the arm for `STATE = 1` (R128). -/
def startLo (d : Timestamp) (s : State) : State :=
  if startLowInRange d s then s.advanceTo 2 else s.raiseResync .startLoRange

/-- `STOP_HI(d)`, the arm for `STATE = 146` (R147). -/
def stopHi (d : Timestamp) (s : State) : State :=
  if exceedsShortMax d s then s.raiseResync .stopHiLong else s.advanceTo 147

/-- After a unit bit: at state 129 the dim parts are skipped unless the frame is Dim (R142). The test reads `F_SWITCH`;
the value 3 is no switch type (U12, log entry 7). -/
def afterUnitBit (s : State) : Outcome State Fault Refusal :=
  if s.index = 129 then
    if s.switchIllegal then .fault .illegalSwitchType
    else if s.isDimFrame then .next s.advance
    else .next (s.advanceTo 146)
  else .next s.advance

/-- A completed bit with the value `v` in a field other than the switch type (R139, R140, R142, R143). -/
def valueBit (v : Bool) (s : State) : Outcome State Fault Refusal :=
  match fieldAt s.index with
  | .addr => .next (s.shiftAddr v).advance
  | .group => .next (s.setGroup v).advance
  | .unit => afterUnitBit (s.shiftUnit v)
  | .dim => .next (s.shiftDim v).advance
  | .switch => .next s.advance

/-- A completed bit with a valid symbol: the switch type takes any of the three (R141); elsewhere the dim marker is a
failure (R136). -/
def completeBit (sym : Symbol) (s : State) : Outcome State Fault Refusal :=
  match fieldAt s.index, sym with
  | .switch, sym => .next (s.setSwitch sym).advance
  | _, .dimMark => .next (s.raiseResync .dimMisplaced)
  | _, .one => valueBit true s
  | _, .zero => valueBit false s

/-- The part's class is in the accumulator: a part that is not the fourth only advances (R137); the fourth is read as a
symbol (R134, R135). -/
def afterShift (s : State) : Outcome State Fault Refusal :=
  if isFourthPart s.index then
    match symbolOf s.acc with
    | some sym => completeBit sym s
    | none => .next (s.raiseResync .badPattern)
  else .next s.advance

/-- `PART(d)`, the arm for `2 <= STATE <= 145` (R130). -/
def part (d : Timestamp) (s : State) : Outcome State Fault Refusal :=
  match classOf d s with
  | some b => afterShift (s.shiftAcc b)
  | none => .next (s.raiseResync .partRange)

end Sys2Proof.Machine
end

