-- ==== Sys2Proof/Machine/RepeatDispatch.lean ====
section
/-! DEFINITION. The stop-gap arm of `EDGE`, the repeat aggregator, and the consumer's answer
(spec/43_repeat_dispatch.md). -/

namespace Sys2Proof.Machine

open Host (Outcome)

/-- A qualifying frame: dispatched where no dispatch is in progress (R166), else lost (R167). -/
def deliver (s : State) : State := if s.inCallback then s.suppressDispatch else s.dispatchEntry

/-- A counted frame: at the threshold it is delivered, below it the block waits for the next repeat (R165, R168). -/
def settleFrame (s : State) : State := if s.thresholdReached then deliver s else s.awaitRepeat

/-- The repeat aggregator on a completed frame (R162 to R168). -/
def aggregateFrame (s : State) : State := settleFrame s.compareBaseline.countFrame

/-- `STOP_LO(d)`, the arm for `STATE = 147` (R160, R161). The comparison reads `F_SWITCH`; the value 3 is no switch type
(U12, log entry 7). -/
def stopLo (d : Timestamp) (s : State) : Outcome State Fault Refusal :=
  if stopLowInRange d s then
    if s.switchIllegal then .fault .illegalSwitchType else .next (aggregateFrame s)
  else .next (s.raiseResync .stopLoRange)

/-- `CB_DONE` (R175). -/
def execCbDone (s : State) : Outcome State Fault Refusal := .next s.dispatchReturn

end Sys2Proof.Machine
end

