-- ==== Sys2Proof/Machine/Sync.lean ====
section
/-! DEFINITION. The searching arm of `EDGE` (spec/41_sync.md). -/

namespace Sys2Proof.Machine

/-- `SEARCH(d)` for a sync floor `floor`: a duration above it, strictly, calibrates; any other is ignored (R110,
R114). -/
def searchAbove (floor : Nat) (d : Timestamp) (s : State) : State :=
  if floor < d.toNat then s.calibrate d else s.note .ignored

/-- `SEARCH(d)`, the arm for `STATE = -1`, at the sync floor of NKRX v7 (R110). -/
def search (d : Timestamp) (s : State) : State := searchAbove Config.syncFloorUs d s

end Sys2Proof.Machine
end

