-- ==== Sys2Proof/Machine/Edge.lean ====
section
/-! DEFINITION. `EDGE` and its front end: enable gate, delay line, skip flag, noise filter, measurement, arm
(spec/40_edge_frontend.md). -/

namespace Sys2Proof.Machine

open Host (Outcome)

/-- The measured duration goes to exactly one arm (R96). -/
def runArm (a : Arm) (d : Timestamp) (s : State) : Outcome State Fault Refusal :=
  match a with
  | .search => .next (search d s)
  | .startHi => .next (startHi d s)
  | .startLo => .next (startLo d s)
  | .part => part d s
  | .stopHi => .next (stopHi d s)
  | .stopLo => stopLo d s

/-- An edge that passed the filter measures the previous pulse and runs the arm on it (R95, R96). -/
def measureEdge (a : Arm) (s : State) : Outcome State Fault Refusal := runArm a s.duration s.moveLeadingEdge

/-- An edge that is not skipped meets the noise filter (R94). This is where `STATE` is first read; a value outside
-1..147 has no arm (U12, log entry 6). -/
def filterEdge (s : State) : Outcome State Fault Refusal :=
  match armOf s.index with
  | some a => if s.isNoise then .next s.rejectNoise else measureEdge a s
  | none => .fault .illegalSequencerState

/-- An enabled edge, already shifted into the delay line, meets the skip flag (R93). -/
def acceptEdge (s : State) : Outcome State Fault Refusal := if s.skip then .next s.consumeSkip else filterEdge s

/-- `EDGE ts` (R90, R91, R92). -/
def execEdge (ts : Timestamp) (s : State) : Outcome State Fault Refusal :=
  if s.enabled then acceptEdge (s.shiftDelay ts) else .next (s.note .disabled)

end Sys2Proof.Machine
end

