-- ==== Sys2Proof/Machine/Step.lean ====
section
/-! DEFINITION. One step of the block: it executes exactly one command, the next of the merged sequence (R9). -/

namespace Sys2Proof.Machine

/-- One step: the next command word is decoded and executed (R9, R72). Where no agent has issued a command the block
waits and nothing changes (R12, R244; log entry 2). -/
def step (s : State) : Host.Outcome State Fault Refusal :=
  match s.takeCommand with
  | some (w, s') => exec (decodeWord w) s'
  | none => .next s

/-- The state in which the very next step runs the command whose bits are the low `nbits` bits of `w` (log entry 1). -/
def State.withFetchWord (s : State) (nbits w : Nat) : State := s.offerCommand .host (tableWord nbits w)

end Sys2Proof.Machine
end

