-- ==== Sys2Proof/Machine/Transmitter.lean ====
section
/-! DEFINITION. The assembler of R78 and R79 and with it the ideal transmitter its pseudo-instructions describe: the
pulses of a frame (R75, R76) and the command words they become. It is beside the block: no step uses it. -/

namespace Sys2Proof.Machine

/-! ### Pulses, as durations in microseconds for a time unit `t` -/

/-- `START`: high `T`, low `floor(1044 * T / 100)`. -/
def pulsesStart (t : Nat) : List Nat := [t, 1044 * t / 100]

/-- `STOP`: high `T`, low `40 * T`. -/
def pulsesStop (t : Nat) : List Nat := [t, 40 * t]

/-- `BIT0`: short, short, short, long. -/
def pulsesBit0 (t : Nat) : List Nat := [t, t, t, 5 * t]

/-- `BIT1`: short, long, short, short. -/
def pulsesBit1 (t : Nat) : List Nat := [t, 5 * t, t, t]

/-- `BITD`, the dim marker: four short parts. -/
def pulsesBitD (t : Nat) : List Nat := [t, t, t, t]

/-- `BIT1` or `BIT0` for one bit of a value. -/
def pulsesBit (t : Nat) (b : Bool) : List Nat := if b then pulsesBit1 t else pulsesBit0 t

/-- `BITS v, n`: the bits n-1 down to 0 of `v`. -/
def pulsesBits (t v : Nat) : Nat → List Nat
  | 0 => []
  | n + 1 => pulsesBit t (v.testBit n) ++ pulsesBits t v n

/-- The switch-type bit of a frame: 0 for Off, 1 for On, the dim marker for Dim. -/
def pulsesSwitch (t : Nat) : FrameSwitch → List Nat
  | .off => pulsesBits t 0 1
  | .on => pulsesBits t 1 1
  | .dim _ => pulsesBitD t

/-- The dim-level bits, present in a Dim frame only (R75). -/
def pulsesDim (t : Nat) : FrameSwitch → List Nat
  | .off => []
  | .on => []
  | .dim level => pulsesBits t level.toNat 4

/-- `FRAME`: start bit, 26 address bits, group bit, switch-type bit, 4 unit bits, the dim level of a Dim frame, stop
bit. -/
def pulsesFrame (t : Nat) (a : BitVec 26) (g : BitVec 1) (sw : FrameSwitch) (u : BitVec 4) : List Nat :=
  pulsesStart t ++ pulsesBits t a.toNat 26 ++ pulsesBits t g.toNat 1 ++ pulsesSwitch t sw ++ pulsesBits t u.toNat 4
    ++ pulsesDim t sw ++ pulsesStop t

/-- The switch type a frame carries, as `F_SWITCH` encodes it (R33). -/
def switchCode : FrameSwitch → BitVec 2
  | .off => 0
  | .on => 1
  | .dim _ => 2

/-- The dim level a frame carries; an Off or On frame carries none (R75). -/
def dimCode : FrameSwitch → Option (BitVec 4)
  | .off => none
  | .on => none
  | .dim level => some level

/-- The pulses of a pseudo-instruction; none for any other line. -/
def pulsesOf (t : Nat) : AsmLine → Option (List Nat)
  | .pulse d => some [d]
  | .start => some (pulsesStart t)
  | .stop => some (pulsesStop t)
  | .bit0 => some (pulsesBit0 t)
  | .bit1 => some (pulsesBit1 t)
  | .bitD => some (pulsesBitD t)
  | .bits v n => some (pulsesBits t v n)
  | .frame a g sw u => some (pulsesFrame t a g sw u)
  | .nop | .edge _ | .init _ | .enable | .disable | .cbDone | .unit _ => none

/-! ### Lines to commands -/

/-- What the assembler keeps: `L`, the operand of the last `EDGE` so far, and the unit `T`, 260 when no directive has set
it (R79). -/
structure AsmState where
  lastEdge : Option Nat
  unit : Nat
  deriving DecidableEq, Repr

/-- The assembler before its first line. -/
def AsmState.initial : AsmState := ⟨none, 260⟩

/-- The edges of a list of pulses that starts at `l`: each at `(L + d) mod 2^32`. -/
def edgesFrom (l : Nat) : List Nat → List Nat
  | [] => []
  | d :: ds => ((l + d) % 2 ^ 32) :: edgesFrom ((l + d) % 2 ^ 32) ds

/-- One line: the commands it becomes and the assembler after it; none is an assembly error, an operand out of its range
(R78) or a pseudo-instruction before any `EDGE` (R79). -/
def assembleLine (st : AsmState) (line : AsmLine) : Option (List Instr × AsmState) :=
  if line.wf then
    match line with
    | .nop => some ([.nop], st)
    | .edge ts => some ([.edge (BitVec.ofNat 32 ts)], { st with lastEdge := some ts })
    | .init n => some ([.init (BitVec.ofNat 8 n)], st)
    | .enable => some ([.enable], st)
    | .disable => some ([.disable], st)
    | .cbDone => some ([.cbDone], st)
    | .unit n => some ([], { st with unit := n })
    | line =>
      match st.lastEdge, pulsesOf st.unit line with
      | some l, some ds =>
        some ((edgesFrom l ds).map (fun t => .edge (BitVec.ofNat 32 t)),
          { st with lastEdge := some ((edgesFrom l ds).getLastD l) })
      | _, _ => none
  else none

/-- A program: its lines in order. -/
def assembleFrom (st : AsmState) : List AsmLine → Option (List Instr)
  | [] => some []
  | line :: rest =>
    match assembleLine st line with
    | some (is, st') => (assembleFrom st' rest).map (is ++ ·)
    | none => none

/-- The commands of a program, `T = 260` until a directive changes it (R79). -/
def assemble (lines : List AsmLine) : Option (List Instr) := assembleFrom AsmState.initial lines

end Sys2Proof.Machine
end

