-- ==== Sys2Proof/Safety.lean ====
section
/-! DEFINITION. The terms claims are stated in: the observation of a run (R11), the invariant of every reachable state
(R21, R28, R30, R33, R36, R41, R143), and the agents' duties (R219, R220, R233), which the block does not check. -/

namespace Sys2Proof.Machine

/-! ### Observation -/

/-- What the ports show after a step (R11): the `DISPATCH` events emitted so far and the two level outputs. -/
structure Observation where
  dispatches : List FrameWord
  inCallback : Bool
  receiving : Bool
  deriving DecidableEq, Repr

/-- The observation in a state. -/
def State.observe (s : State) : Observation := ⟨s.dispatches, s.inCallback, s.receiving⟩

/-- The observations after each of the next `k` steps (R11). -/
def observeRun : Nat → State → List Observation
  | 0, _ => []
  | k + 1, s =>
    match step s with
    | .next t => t.observe :: observeRun k t
    | .fault _ => []
    | .refused _ => []

/-- The result of the host's `isReceiving` when it samples `RECEIVING` after each of these numbers of steps: true as
soon as one sample reads 1. The sample times are the host's (R188, U14). -/
def isReceivingResult (samples : List Nat) (s : State) : Bool :=
  samples.any fun k =>
    match Sys2Proof.core.run k s with
    | .next t => State.receiving t
    | .fault _ => false
    | .refused _ => false

/-! ### The invariant -/

/-- `STATE` is one of -1, 0, ..., 147 (R21, R24). -/
abbrev State.SequencerLegal (s : State) : Prop := -1 ≤ s.index ∧ s.index ≤ 147

/-- No switch-type register holds 3 (R33), and the dim parts are entered in a Dim frame only (R143). -/
abbrev State.SwitchLegal (s : State) : Prop :=
  s.fSwitch ≠ 3 ∧ s.bSwitch ≠ 3 ∧ (130 ≤ s.index ∧ s.index ≤ 145 → s.fSwitch = 2)

/-- The calibration registers hold what R111 and R112 compute from one period, which is at least 120 (R115). -/
abbrev State.Calibrated (s : State) : Prop :=
  120 ≤ s.period.toNat ∧ s.min1.toNat = ceilDiv (3 * s.period.toNat) 10 ∧ s.max1.toNat = 3 * s.period.toNat
    ∧ s.min5.toNat = 3 * s.period.toNat ∧ s.max5.toNat = 8 * s.period.toNat

/-- `PERIOD` is at most floor((2^32 - 1) / 40) (R28), and while the block is decoding it is calibrated (R30). -/
abbrev State.CalibrationSound (s : State) : Prop := s.period.toNat ≤ 107374182 ∧ (0 ≤ s.index → s.Calibrated)

/-- `REPEATS` never exceeds max(`MIN_REPEATS`, 1) (R36); while the block is decoding it is below it, so that counting one
more frame cannot wrap. -/
abbrev State.CountSound (s : State) : Prop :=
  s.repeats.toNat ≤ max s.minRepeats.toNat 1 ∧ (0 ≤ s.index → s.repeats.toNat < max s.minRepeats.toNat 1)

/-- While a dispatch is in progress `OUT_FRAME` is the frame of the most recent `DISPATCH` event (R41). -/
abbrev State.GuardSound (s : State) : Prop := s.inCallback = true → s.dispatches.getLast? = some s.outFrame

/-- `SKIP` is set only while the block is decoding: the filter rejects nothing while searching (R94), and what writes
`STATE <- -1` with `SKIP = 1` also clears it. -/
abbrev State.SkipSound (s : State) : Prop := s.skip = true → 0 ≤ s.index

/-- The invariant: it holds after reset and every step keeps it. -/
abbrev State.Inv (s : State) : Prop :=
  s.SequencerLegal ∧ s.SwitchLegal ∧ s.CalibrationSound ∧ s.CountSound ∧ s.GuardSound ∧ s.SkipSound

/-! ### Measured edges -/

/-- The interval an edge at `ts` closes: from the most recent enabled edge to it (R94). -/
abbrev State.newInterval (s : State) (ts : Timestamp) : Nat := (ts - s.ts2).toNat

/-- The duration an edge measures: of the pulse from `TS[0]` to the most recent enabled edge (R95). -/
abbrev State.measured (s : State) : Nat := (s.ts2 - s.ts0).toNat

/-- The edge at `ts` passes the enable gate, the skip flag and the noise filter (R91, R93, R94). -/
abbrev State.Measures (s : State) (ts : Timestamp) : Prop :=
  s.enabled = true ∧ s.skip = false ∧ (0 ≤ s.index → s.min1.toNat ≤ s.newInterval ts)

/-! ### Completed frames -/

/-- The edge at `ts` measures a stop gap in range at `STATE` 147: a frame is complete (R160, R161). `F_SWITCH` holds a
switch type (R33). -/
abbrev State.FrameEnds (s : State) (ts : Timestamp) : Prop :=
  s.Measures ts ∧ s.index = 147 ∧ 20 * s.period.toNat ≤ s.measured ∧ s.measured ≤ 80 * s.period.toNat ∧ s.fSwitch ≠ 3

/-- The scratch frame agrees with the baseline on the five compared fields (R162). -/
abbrev State.SameFrame (s : State) : Prop :=
  s.fAddr = s.bAddr ∧ s.fUnit = s.bUnit ∧ s.fDim = s.bDim ∧ s.fGroup = s.bGroup ∧ s.fSwitch = s.bSwitch

/-- `REPEATS` after the completed frame: one more than before for a frame equal to the baseline, 1 for any other (R163,
R164). -/
abbrev State.countAfter (s : State) : BitVec 8 := if s.SameFrame then s.repeats + 1 else 1

/-- The five compared fields of a frame. -/
structure Frame where
  addr : BitVec 26
  unit : BitVec 4
  dim : BitVec 4
  group : BitVec 1
  switch : BitVec 2
  deriving DecidableEq, Repr

/-- The state with a frame in the scratch registers. -/
abbrev State.withScratch (f : Frame) (s : State) : State :=
  { s with fAddr := f.addr, fUnit := f.unit, fDim := f.dim, fGroup := f.group, fSwitch := f.switch }

/-- The aggregator run on one completed frame after another, no frame failing in between (R170, R171). -/
def completeFrames : List Frame → State → State
  | [], s => s
  | f :: fs, s => completeFrames fs (aggregateFrame (s.withScratch f))

/-- Edges each less than `m` microseconds after the one before it, the first after `l`. -/
def closerThan (m : Nat) (l : Timestamp) : List Timestamp → Bool
  | [] => true
  | t :: rest => decide ((t - l).toNat < m) && closerThan m t rest

/-! ### The agents' duties -/

/-- Times, in unbounded microseconds, that the edge source may deliver: each at least the one before it and less than
2^32 after it (R219). -/
def timesKept : List Nat → Bool
  | [] => true
  | [_] => true
  | t :: t' :: rest => decide (t ≤ t') && decide (t' - t < 2 ^ 32) && timesKept (t' :: rest)

/-- The `EDGE` the edge source issues at a time: the clock reading is the time modulo 2^32 (R67, R214). -/
def edgeAt (t : Nat) : Instr := .edge (BitVec.ofNat 32 t)

/-- The commands an agent issues for instructions. -/
def commandsOf (a : Agent) (is : List Instr) : List Command := is.map fun i => ⟨a, encode i⟩

/-- The next command keeps the consumer's second duty: the consumer does not issue `ENABLE`, `DISABLE` or `INIT` between
a `DISPATCH` and its `CB_DONE` (R220, D29). R220 names the end of that span by the `CB_DONE` only: the model takes the
span as `IN_CALLBACK = 1`, so that an `INIT` or a `CB_DONE` of another agent, which clears the guard, also ends it. DESIGN
CHOICE, log entry 18. The consumer's first duty, to answer, is no part of this predicate. -/
def State.consumerKeepsDuty (s : State) : Bool :=
  match s.pending with
  | [] => true
  | c :: _ =>
    match c.issuer, s.inCallback, decodeWord c.word with
    | .consumer, true, .enable => false
    | .consumer, true, .disable => false
    | .consumer, true, .init _ => false
    | _, _, _ => true

/-- The first `EDGE` among these commands has a timestamp of at most the sync floor (R233). -/
def firstEdgeWithinFloor : List Instr → Bool
  | [] => true
  | .edge ts :: _ => decide (ts.toNat ≤ Config.syncFloorUs)
  | _ :: rest => firstEdgeWithinFloor rest

/-- The boot order of R233: an `INIT` comes before every `EDGE`, and the first `EDGE` after it has a timestamp of at most
the sync floor. R233 orders these two only and does not say whether another command may precede `INIT`: the model lets any
other precede it, and does not take a sequence without an `INIT` for a boot. DESIGN CHOICE, log entry 17. -/
def bootOrderKept : List Instr → Bool
  | [] => false
  | .init _ :: rest => firstEdgeWithinFloor rest
  | .edge _ :: _ => false
  | .nop :: rest | .enable :: rest | .disable :: rest | .cbDone :: rest => bootOrderKept rest
  | .reserved6 :: rest | .reserved7 :: rest | .reserved8 :: rest | .reserved9 :: rest => bootOrderKept rest
  | .reservedA :: rest | .reservedB :: rest | .reservedC :: rest | .reservedD :: rest => bootOrderKept rest
  | .reservedE :: rest | .reservedF :: rest => bootOrderKept rest

end Sys2Proof.Machine
end

