-- ==== Sys2Proof/Certificates/Slice0/Obligations.lean ====
section
/-! DEFINITION. The statements about the model, each from the rules of spec/ that its docstring names. Nothing is proved
here. -/

open Sys2Proof Sys2Proof.Machine

/-! ### Encoding -/

/-- The words spec/95_test_vectors.md §2.1 writes out decode to the commands it names, and the encodings R78 gives. -/
def Obligations.SpecWordsDecode : Prop :=
  decodeWord 0x000000000 = .nop ∧ decodeWord 0x100000104 = .edge 260 ∧ decodeWord 0x1FFFFFFFF = .edge 0xFFFFFFFF
    ∧ decodeWord 0x2FFFFFF03 = .init 3 ∧ decodeWord 0x3000000FF = .enable ∧ decodeWord 0x400000000 = .disable
    ∧ decodeWord 0x500000000 = .cbDone ∧ decodeWord 0x600000000 = .reserved6 ∧ decodeWord 0xF12345678 = .reservedF
    ∧ encode (.edge 10920) = 0x100002AA8 ∧ encode (.init 2) = 0x200000002

/-- R72: the opcode selects the command, for every word. -/
def Obligations.OpcodeSelectsCommand : Prop :=
  ∀ w : CmdWord,
    (w.extractLsb' 32 4 = 0x0 → decodeWord w = .nop)
      ∧ (w.extractLsb' 32 4 = 0x1 → decodeWord w = .edge (w.extractLsb' 0 32))
      ∧ (w.extractLsb' 32 4 = 0x2 → decodeWord w = .init (w.extractLsb' 0 8))
      ∧ (w.extractLsb' 32 4 = 0x3 → decodeWord w = .enable)
      ∧ (w.extractLsb' 32 4 = 0x4 → decodeWord w = .disable)
      ∧ (w.extractLsb' 32 4 = 0x5 → decodeWord w = .cbDone)
      ∧ (w.extractLsb' 32 4 = 0x6 → decodeWord w = .reserved6)
      ∧ (w.extractLsb' 32 4 = 0x7 → decodeWord w = .reserved7)
      ∧ (w.extractLsb' 32 4 = 0x8 → decodeWord w = .reserved8)
      ∧ (w.extractLsb' 32 4 = 0x9 → decodeWord w = .reserved9)
      ∧ (w.extractLsb' 32 4 = 0xA → decodeWord w = .reservedA)
      ∧ (w.extractLsb' 32 4 = 0xB → decodeWord w = .reservedB)
      ∧ (w.extractLsb' 32 4 = 0xC → decodeWord w = .reservedC)
      ∧ (w.extractLsb' 32 4 = 0xD → decodeWord w = .reservedD)
      ∧ (w.extractLsb' 32 4 = 0xE → decodeWord w = .reservedE)
      ∧ (w.extractLsb' 32 4 = 0xF → decodeWord w = .reservedF)

/-- Decoding an encoded command gives it back, for every command and operand; and a word is the encoding of the command
it decodes to exactly where the bits its command ignores are 0 (R65, R69, R71). -/
def Obligations.DecodeEncodeAgree : Prop :=
  (∀ i : Instr, decodeWord (encode i) = i)
    ∧ ∀ w : CmdWord, encode (decodeWord w) = w ↔
        w.extractLsb' 32 4 = 0x1 ∨ (w.extractLsb' 32 4 = 0x2 ∧ w.extractLsb' 8 24 = 0)
          ∨ (w.extractLsb' 32 4 ≠ 0x1 ∧ w.extractLsb' 32 4 ≠ 0x2 ∧ w.extractLsb' 0 32 = 0)

/-- R69: the unused bits are ignored, and an assembler writes them as 0. -/
def Obligations.UnusedBitsIgnored : Prop :=
  (∀ w w' : CmdWord, w.extractLsb' 32 4 = w'.extractLsb' 32 4 → w.extractLsb' 32 4 ≠ 0x1 →
      (w.extractLsb' 32 4 = 0x2 → w.extractLsb' 0 8 = w'.extractLsb' 0 8) → decodeWord w = decodeWord w')
    ∧ (∀ n : BitVec 8, (encode (.init n)).extractLsb' 8 24 = 0)
    ∧ ∀ i : Instr, (∀ ts, i ≠ .edge ts) → (∀ n, i ≠ .init n) → (encode i).extractLsb' 0 32 = 0

/-- Every word belongs to exactly one row of spec/opcode_table.json, the row of the command it decodes to (R71). -/
def Obligations.OpcodeTablePartition : Prop :=
  (∀ w r, r ∈ opcodeTable → (w &&& r.mask = r.bits ↔ (decodeWord w).mnemonic = r.mnemonic))
    ∧ ∀ w, ∃ r ∈ opcodeTable, w &&& r.mask = r.bits

/-! ### The step -/

/-- A step executes the next command of the merged sequence, decoded, and no other (R9, R72). Where nothing is pending
the block waits: that clause is the model's choice, log entry 2. -/
def Obligations.StepExecutesNextCommand : Prop :=
  ∀ s : State,
    (∀ c rest, s.pending = c :: rest → step s = exec (decodeWord c.word) { s with pending := rest })
      ∧ (s.pending = [] → step s = .next s)

/-- The block refuses nothing (R221), and only an `EDGE` on a register value that no rule writes stops (U12): `STATE`
outside -1..147 where an arm is looked for, or `F_SWITCH = 3` at the last unit bit or at a completed frame; there it does
stop, by the fault's name. Where exactly the faults are raised is the model's reading of U12, log entries 6 and 7. -/
def Obligations.StopsOnlyOnUnwrittenValues : Prop :=
  (∀ i s r, exec i s ≠ .refused r)
    ∧ (∀ i s f, exec i s = .fault f → ∃ ts, i = .edge ts ∧ s.enabled = true ∧ s.skip = false
        ∧ ((f = .illegalSequencerState ∧ (s.index < -1 ∨ 147 < s.index))
          ∨ (f = .illegalSwitchType ∧ s.fSwitch = 3 ∧ (s.index = 129 ∨ s.index = 147))))
    ∧ (∀ s ts, s.enabled = true → s.skip = false → (s.index < -1 ∨ 147 < s.index) →
        exec (.edge ts) s = .fault .illegalSequencerState)
    ∧ (∀ s ts b, s.Measures ts → s.index = 129 → s.fSwitch = 3 → classOf (s.ts2 - s.ts0) s = some b →
        shl s.acc b = 0b0001 ∨ shl s.acc b = 0b0100 → exec (.edge ts) s = .fault .illegalSwitchType)
    ∧ ∀ s ts, s.Measures ts → s.index = 147 → s.fSwitch = 3 → 20 * s.period.toNat ≤ s.measured →
        s.measured ≤ 80 * s.period.toNat → exec (.edge ts) s = .fault .illegalSwitchType

/-! ### Reset and the invariant -/

/-- R230: the power-on values of every register, the edge input masked, no dispatch in progress, the searching arm as
the entry point. -/
def Obligations.PowerOnValues : Prop :=
  let r := State.reset
  r.index = -1 ∧ r.enabled = false ∧ r.minRepeats = 0
    ∧ r.skip = false ∧ r.ts0 = 0 ∧ r.ts1 = 0 ∧ r.ts2 = 0
    ∧ r.period = 0 ∧ r.min1 = 0 ∧ r.max1 = 0 ∧ r.min5 = 0 ∧ r.max5 = 0
    ∧ r.fAddr = 0 ∧ r.fGroup = 0 ∧ r.fSwitch = 0 ∧ r.fUnit = 0 ∧ r.fDim = 0 ∧ r.acc = 0
    ∧ r.bAddr = 0 ∧ r.bGroup = 0 ∧ r.bSwitch = 0 ∧ r.bUnit = 0 ∧ r.bDim = 0
    ∧ r.repeats = 0 ∧ r.inCallback = false ∧ r.outFrame = 0 ∧ armOf r.index = some .search

/-- The invariant holds after reset. -/
def Obligations.InvAtReset : Prop := State.reset.Inv

/-- Every step keeps the invariant, from every state that has it: `STATE` stays in -1..147 (R21, R24), `F_SWITCH` and the
baseline never hold 3 (R33), the dim parts are entered in a Dim frame only (R143), `PERIOD` stays below 2^27 (R28), the
block is calibrated while decoding (R30), `REPEATS` stays within max(`MIN_REPEATS`, 1) (R36), `OUT_FRAME` is the last
event's word while a dispatch is in progress (R41), and `SKIP` is set only while decoding (R94). -/
def Obligations.StepKeepsInv : Prop := ∀ s t : State, s.Inv → step s = .next t → t.Inv

/-- The block never halts (R12): from every state with the invariant, any number of steps runs to a next state, which has
the invariant again. -/
def Obligations.RunNeverStops : Prop :=
  ∀ (k : Nat) (s : State), s.Inv → ∃ t : State, Sys2Proof.core.run k s = .next t ∧ t.Inv

/-! ### Control commands -/

/-- R180 and R181: `NOP` and the reserved commands, whatever their `DATA`, leave everything unchanged; the all-zero word
is `NOP`; a program must not issue a reserved command. -/
def Obligations.NopAndReservedChangeNothing : Prop :=
  (∀ s : State,
    exec .nop s = .next s ∧ exec .reserved6 s = .next s ∧ exec .reserved7 s = .next s ∧ exec .reserved8 s = .next s
      ∧ exec .reserved9 s = .next s ∧ exec .reservedA s = .next s ∧ exec .reservedB s = .next s
      ∧ exec .reservedC s = .next s ∧ exec .reservedD s = .next s ∧ exec .reservedE s = .next s
      ∧ exec .reservedF s = .next s)
    ∧ decodeWord 0 = .nop
    ∧ (∀ (s : State) (a : Agent) (w : CmdWord) (rest : List Command), s.pending = ⟨a, w⟩ :: rest →
        (w.extractLsb' 32 4 = 0x0 ∨ 6 ≤ (w.extractLsb' 32 4).toNat) → step s = .next { s with pending := rest })
    ∧ ∀ w : CmdWord, 6 ≤ (w.extractLsb' 32 4).toNat → (decodeWord w).wf = false

/-- R182: `INIT n` from any state gives every register its value after `INIT`: `STATE = -1`, `MIN_REPEATS = n`,
`ENABLED = 1`, everything else 0. What is outside the block, the waiting commands, the observation and the trace, stays
(log entries 1, 3, 4). -/
def Obligations.InitResetsEveryRegister : Prop :=
  (∀ w : CmdWord, w.extractLsb' 32 4 = 0x2 → decodeWord w = .init (w.extractLsb' 0 8))
    ∧ ∀ (n : BitVec 8) (s : State), exec (.init n) s = .next
        { state := 0x1FF, enabled := true, skip := false, ts0 := 0, ts1 := 0, ts2 := 0, period := 0, min1 := 0, max1 := 0,
          min5 := 0, max5 := 0, fAddr := 0, fGroup := 0, fSwitch := 0, fUnit := 0, fDim := 0, acc := 0, bAddr := 0,
          bGroup := 0, bSwitch := 0, bUnit := 0, bDim := 0, repeats := 0, minRepeats := n, inCallback := false,
          outFrame := 0, pending := s.pending, dispatches := s.dispatches, trace := s.trace }

/-- R184: `ENABLE` writes `ENABLED`, `STATE` and `SKIP`, and nothing else. -/
def Obligations.EnableRestartsSearch : Prop :=
  (∀ w : CmdWord, w.extractLsb' 32 4 = 0x3 → decodeWord w = .enable)
    ∧ ∀ s : State, exec .enable s = .next { s with enabled := true, state := 0x1FF, skip := false }
        ∧ ∀ t, exec .enable s = .next t → t.index = -1

/-- R185: `DISABLE` clears `ENABLED` and nothing else; then an `EDGE` has no effect and `CB_DONE` is still honoured. -/
def Obligations.DisableClearsEnabled : Prop :=
  (∀ w : CmdWord, w.extractLsb' 32 4 = 0x4 → decodeWord w = .disable)
    ∧ ∀ s : State, exec .disable s = .next { s with enabled := false }
        ∧ (∀ ts, exec (.edge ts) { s with enabled := false } =
            .next { s with enabled := false, trace := s.trace ++ [.disabled] })
        ∧ exec .cbDone { s with enabled := false } = .next { s with enabled := false, inCallback := false }

/-- Edges issued after a `DISABLE`, however many, change nothing until another command comes (R185, R206, R218). -/
def Obligations.DisabledBlockIgnoresEdges : Prop :=
  ∀ (tss : List Timestamp) (a : Agent) (s : State) (rest : List Command), s.enabled = false →
    s.pending = commandsOf a (tss.map .edge) ++ rest →
    Sys2Proof.core.run tss.length s =
      .next ({ s with pending := rest, trace := s.trace ++ List.replicate tss.length .disabled } : State)

/-- R175: `CB_DONE` clears `IN_CALLBACK` and nothing else, whatever `ENABLED` is; with `IN_CALLBACK = 0` it has no
effect. -/
def Obligations.CbDoneClearsGuard : Prop :=
  (∀ w : CmdWord, w.extractLsb' 32 4 = 0x5 → decodeWord w = .cbDone)
    ∧ ∀ s : State, exec .cbDone s = .next { s with inCallback := false }
        ∧ (s.inCallback = false → exec .cbDone s = .next s)

/-- R187: `RECEIVING` is `STATE > RX_THRESHOLD_STATE`, for the parameter whatever it is in 0..146; it is 0 while
searching and 1 at state 147 (D21). -/
def Obligations.ReceivingFollowsState : Prop :=
  0 ≤ (Config.rxThresholdState.val : Int) ∧ (Config.rxThresholdState.val : Int) ≤ 146
    ∧ ∀ s : State, (s.receiving = true ↔ (Config.rxThresholdState.val : Int) < s.index)
        ∧ (s.index = -1 → s.receiving = false) ∧ (s.index = 147 → s.receiving = true)
        ∧ s.observe.receiving = s.receiving ∧ s.observe.inCallback = s.inCallback

/-- A `DISABLE` acts from the first `EDGE` executed after it; which edges those are is the merge order's (R186, R209): with
`DISABLE` first the edge is ignored, with the edge first it has its effect and then the block is disabled. -/
def Obligations.DisableActsFromNextEdge : Prop :=
  ∀ (s : State) (a b : Agent) (ts : Timestamp) (rest : List Command),
    s.pending = ⟨a, encode .disable⟩ :: ⟨b, encode (.edge ts)⟩ :: rest →
      Sys2Proof.core.run 2 s =
          .next ({ s with enabled := false, pending := rest, trace := s.trace ++ [.disabled] } : State)
        ∧ ∀ t, exec (.edge ts) { s with pending := ⟨a, encode .disable⟩ :: rest } = .next t →
            Sys2Proof.core.run 2 { s with pending := ⟨b, encode (.edge ts)⟩ :: ⟨a, encode .disable⟩ :: rest } =
              .next ({ t with enabled := false, pending := rest } : State)

/-! ### The edge front end -/

/-- R91: a disabled edge has no effect at all. -/
def Obligations.DisabledEdgeHasNoEffect : Prop :=
  ∀ (ts : Timestamp) (s : State), s.enabled = false →
    exec (.edge ts) s = .next { s with trace := s.trace ++ [.disabled] }

/-- R93: a skipped edge clears `SKIP` and does nothing else but the delay-line shift. -/
def Obligations.SkippedEdgeOnlyClearsSkip : Prop :=
  ∀ (ts : Timestamp) (s : State), s.enabled = true → s.skip = true →
    exec (.edge ts) s = .next { s with ts1 := s.ts2, ts2 := ts, skip := false, trace := s.trace ++ [.skipped] }

/-- R94: while decoding, an interval below `MIN1` sets `SKIP` and nothing else but the delay-line shift happens; in a
calibrated block that is an interval shorter than 0.3 time units; while searching no interval is filtered. -/
def Obligations.NoiseFilterRejects : Prop :=
  ∀ (ts : Timestamp) (s : State), s.enabled = true → s.skip = false →
    (0 ≤ s.index → s.index ≤ 147 → (ts - s.ts2).toNat < s.min1.toNat →
        exec (.edge ts) s = .next { s with ts1 := s.ts2, ts2 := ts, skip := true, trace := s.trace ++ [.noise] })
      ∧ (s.Calibrated → ((ts - s.ts2).toNat < s.min1.toNat ↔ 10 * (ts - s.ts2).toNat < 3 * s.period.toNat))
      ∧ (s.index = -1 → ∀ t, exec (.edge ts) s = .next t → t.skip = false)

/-- R92: every enabled edge moves `TS[2]` into `TS[1]` and writes the new timestamp into `TS[2]`, whatever happens to it
afterwards. -/
def Obligations.EnabledEdgeShiftsDelayLine : Prop :=
  ∀ (ts : Timestamp) (s : State), s.Inv → s.enabled = true →
    ∃ t, exec (.edge ts) s = .next t ∧ t.ts1 = s.ts2 ∧ t.ts2 = ts
      ∧ (s.Measures ts → t.ts0 = s.ts2) ∧ (¬ s.Measures ts → t.ts0 = s.ts0)

/-- R95 and R96: an edge that passes the gate, the skip flag and the filter measures `TS[1] - TS[0]`, moves the leading
edge, and runs exactly the arm of `STATE`; every value of `STATE` that can occur has one. -/
def Obligations.MeasuredEdgeRunsItsArm : Prop :=
  (∀ (ts : Timestamp) (s : State) (a : Arm), s.Measures ts → armOf s.index = some a →
      exec (.edge ts) s = runArm a (s.ts2 - s.ts0) { s with ts0 := s.ts2, ts1 := s.ts2, ts2 := ts })
    ∧ ∀ x : Int, (armOf x = some .search ↔ x = -1) ∧ (armOf x = some .startHi ↔ x = 0) ∧ (armOf x = some .startLo ↔ x = 1)
        ∧ (armOf x = some .part ↔ 2 ≤ x ∧ x ≤ 145) ∧ (armOf x = some .stopHi ↔ x = 146)
        ∧ (armOf x = some .stopLo ↔ x = 147) ∧ (armOf x = none ↔ x < -1 ∨ 147 < x)

/-- Timestamps that wrap measure the true elapsed time as long as the edge source keeps its duty (R99, R219). -/
def Obligations.WrappedClockMeasuresTrueTime : Prop :=
  ∀ (t0 t1 t2 : Nat) (s : State), timesKept [t0, t1, t2] = true →
    s.ts0 = BitVec.ofNat 32 t0 → s.ts2 = BitVec.ofNat 32 t1 →
    (s.shiftDelay (BitVec.ofNat 32 t2)).duration.toNat = t1 - t0
      ∧ (s.shiftDelay (BitVec.ofNat 32 t2)).interval.toNat = t2 - t1

/-- What an `EDGE` leaves unchanged, by the value of `STATE` it meets (10_state.md R20, "written by"). -/
def Obligations.EdgeFrame : Prop :=
  ∀ (ts : Timestamp) (s t : State), exec (.edge ts) s = .next t →
    (t.pending = s.pending ∧ t.enabled = s.enabled ∧ t.minRepeats = s.minRepeats)
      ∧ (s.index ≠ -1 → t.period = s.period ∧ t.min1 = s.min1 ∧ t.max1 = s.max1 ∧ t.min5 = s.min5 ∧ t.max5 = s.max5)
      ∧ (s.index ≠ 147 → t.bAddr = s.bAddr ∧ t.bGroup = s.bGroup ∧ t.bSwitch = s.bSwitch ∧ t.bUnit = s.bUnit
          ∧ t.bDim = s.bDim ∧ t.inCallback = s.inCallback ∧ t.outFrame = s.outFrame ∧ t.dispatches = s.dispatches)
      ∧ (s.index ≠ -1 → s.index ≠ 147 → t.repeats = s.repeats)
      ∧ (¬ (2 ≤ s.index ∧ s.index ≤ 145) → t.acc = s.acc)
      ∧ (s.index ≠ -1 → ¬ (5 ≤ s.index ∧ s.index ≤ 105 ∧ s.index % 4 = 1) → t.fAddr = s.fAddr)
      ∧ (s.index ≠ 109 → t.fGroup = s.fGroup)
      ∧ (s.index ≠ 113 → t.fSwitch = s.fSwitch)
      ∧ (s.index ≠ -1 → ¬ (117 ≤ s.index ∧ s.index ≤ 129 ∧ s.index % 4 = 1) → t.fUnit = s.fUnit)
      ∧ (s.index ≠ -1 → ¬ (133 ≤ s.index ∧ s.index ≤ 145 ∧ s.index % 4 = 1) → t.fDim = s.fDim)

/-- R23: only an edge that passes the gate, the skip flag and the filter moves `STATE`, by one unless it resyncs, with
the listed exceptions; `INIT` and `ENABLE` write -1; no other command writes it. -/
def Obligations.SequencerAdvance : Prop :=
  ∀ (i : Instr) (s t : State), s.SequencerLegal → exec i s = .next t →
    (∀ ts, i = .edge ts → ¬ s.Measures ts → t.state = s.state)
      ∧ (∀ ts, i = .edge ts → s.Measures ts →
          t.index = -1
            ∨ (s.index ≠ 147 ∧ (s.index = 129 → s.fSwitch = 2) ∧ t.index = s.index + 1)
            ∨ (s.index = 129 ∧ s.fSwitch ≠ 2 ∧ t.index = 146)
            ∨ (s.index = 147 ∧ t.index = 0))
      ∧ ((∃ n, i = .init n) ∨ i = .enable → t.index = -1)
      ∧ ((∀ ts, i ≠ .edge ts) → (∀ n, i ≠ .init n) → i ≠ .enable → t.state = s.state)

/-! ### Synchronisation -/

/-- R110, R111, R113, R114: the searching arm. A duration above the sync floor calibrates; any other changes nothing but
the delay line. -/
def Obligations.SearchArm : Prop :=
  ∀ (ts : Timestamp) (s : State), s.enabled = true → s.skip = false → s.index = -1 →
    (4800 < s.measured → exec (.edge ts) s = .next { s with
        ts0 := s.ts2, ts1 := s.ts2, ts2 := ts
        period := BitVec.ofNat 32 (s.measured / 40)
        min1 := BitVec.ofNat 32 ((3 * (s.measured / 40) + 9) / 10)
        max1 := BitVec.ofNat 32 (3 * (s.measured / 40))
        min5 := BitVec.ofNat 32 (3 * (s.measured / 40))
        max5 := BitVec.ofNat 32 (8 * (s.measured / 40))
        fAddr := 0, fUnit := 0, fDim := 0, repeats := 0, state := 0
        trace := s.trace ++ [.sync] })
      ∧ (s.measured ≤ 4800 → exec (.edge ts) s = .next { s with
        ts0 := s.ts2, ts1 := s.ts2, ts2 := ts, trace := s.trace ++ [.ignored] })

/-- The calibrated values are exact, with no truncation in their registers: `MIN1` is the least integer at or above
0.3 P, `MAX1 = MIN5 = 3 P`, `MAX5 = 8 P`, `PERIOD` lies in [120, 2^27) and `MIN1` is at least 36 (R112, R115, R28). -/
def Obligations.CalibrationIsExact : Prop :=
  ∀ (ts : Timestamp) (s : State), s.enabled = true → s.skip = false → s.index = -1 → 4800 < s.measured →
    ∃ t, exec (.edge ts) s = .next t ∧ t.period.toNat = s.measured / 40
      ∧ (∀ d : Nat, t.min1.toNat ≤ d ↔ 3 * t.period.toNat ≤ 10 * d)
      ∧ t.max1.toNat = 3 * t.period.toNat ∧ t.min5.toNat = 3 * t.period.toNat ∧ t.max5.toNat = 8 * t.period.toNat
      ∧ 120 ≤ t.period.toNat ∧ t.period.toNat < 2 ^ 27 ∧ 36 ≤ t.min1.toNat

/-- Calibration is re-derived at every sync: two blocks that differ in anything else but measure the same gap end with
the same calibration registers, scratch fields, count and `STATE` (R116). -/
def Obligations.CalibrationForgetsThePast : Prop :=
  ∀ (ts ts' : Timestamp) (s s' : State), s.enabled = true → s.skip = false → s.index = -1 →
    s'.enabled = true → s'.skip = false → s'.index = -1 → s.measured = s'.measured → 4800 < s.measured →
    ∃ t t', exec (.edge ts) s = .next t ∧ exec (.edge ts') s' = .next t'
      ∧ t.period = t'.period ∧ t.min1 = t'.min1 ∧ t.max1 = t'.max1 ∧ t.min5 = t'.min5 ∧ t.max5 = t'.max5
      ∧ t.fAddr = t'.fAddr ∧ t.fUnit = t'.fUnit ∧ t.fDim = t'.fDim ∧ t.repeats = t'.repeats ∧ t.state = t'.state

/-- With a floor parameter below 40 a period of 0 becomes possible: then every threshold is 0, nothing is filtered, and
the tests of states 0 and 1 fail unless the duration is 0 (R115). -/
def Obligations.FloorBelowFortyGivesPeriodZero : Prop :=
  ∀ (floor : Nat) (d d' ts : Timestamp) (s : State), floor < d.toNat → d.toNat < 40 →
    let t := searchAbove floor d s
    t.period = 0 ∧ t.min1 = 0 ∧ t.max1 = 0 ∧ t.min5 = 0 ∧ t.max5 = 0 ∧ (t.shiftDelay ts).isNoise = false
      ∧ (d' ≠ 0 → startHi d' t = t.raiseResync .startHiLong ∧ startLo d' t = t.raiseResync .startLoRange)
      ∧ (d' = 0 → startHi d' t = t.advanceTo 1 ∧ startLo d' t = t.advanceTo 2)

/-! ### The bit and field decoder -/

/-- R126: the start-bit high pulse has an upper bound only. -/
def Obligations.StartHighArm : Prop :=
  ∀ (ts : Timestamp) (s : State), s.Measures ts → s.index = 0 →
    (s.measured ≤ s.max1.toNat → exec (.edge ts) s = .next { s with
        ts0 := s.ts2, ts1 := s.ts2, ts2 := ts, state := 1, trace := s.trace ++ [.advance] })
      ∧ (s.max1.toNat < s.measured → exec (.edge ts) s = .next { s with
        ts0 := s.ts2, ts1 := s.ts2, ts2 := ts, state := 0x1FF, trace := s.trace ++ [.resync .startHiLong] })
      ∧ (s.CalibrationSound → (s.max1.toNat < s.measured ↔ 3 * s.period.toNat < s.measured))

/-- R128: the start-bit low pulse lies in [7 P, 15 P]. -/
def Obligations.StartLowArm : Prop :=
  ∀ (ts : Timestamp) (s : State), s.Measures ts → s.index = 1 →
    (7 * s.period.toNat ≤ s.measured ∧ s.measured ≤ 15 * s.period.toNat → exec (.edge ts) s = .next { s with
        ts0 := s.ts2, ts1 := s.ts2, ts2 := ts, state := 2, trace := s.trace ++ [.advance] })
      ∧ (s.measured < 7 * s.period.toNat ∨ 15 * s.period.toNat < s.measured → exec (.edge ts) s = .next { s with
        ts0 := s.ts2, ts1 := s.ts2, ts2 := ts, state := 0x1FF, trace := s.trace ++ [.resync .startLoRange] })

/-- R147: the stop-bit high pulse has the same bound as state 0. -/
def Obligations.StopHighArm : Prop :=
  ∀ (ts : Timestamp) (s : State), s.Measures ts → s.index = 146 →
    (s.measured ≤ s.max1.toNat → exec (.edge ts) s = .next { s with
        ts0 := s.ts2, ts1 := s.ts2, ts2 := ts, state := 147, trace := s.trace ++ [.advance] })
      ∧ (s.max1.toNat < s.measured → exec (.edge ts) s = .next { s with
        ts0 := s.ts2, ts1 := s.ts2, ts2 := ts, state := 0x1FF, trace := s.trace ++ [.resync .stopHiLong] })
      ∧ (s.CalibrationSound → (s.max1.toNat < s.measured ↔ 3 * s.period.toNat < s.measured))

/-- R131: short in [0.3 P, 3 P], long above 3 P up to 8 P, the shared value 3 P short; a part in neither range
resyncs. -/
def Obligations.PulseClassifier : Prop :=
  (∀ (d : Timestamp) (s : State), s.Calibrated →
      (classOf d s = some false ↔ 3 * s.period.toNat ≤ 10 * d.toNat ∧ d.toNat ≤ 3 * s.period.toNat)
        ∧ (classOf d s = some true ↔ 3 * s.period.toNat < d.toNat ∧ d.toNat ≤ 8 * s.period.toNat)
        ∧ (classOf d s = none ↔ 10 * d.toNat < 3 * s.period.toNat ∨ 8 * s.period.toNat < d.toNat))
    ∧ ∀ (ts : Timestamp) (s : State), s.Measures ts → 2 ≤ s.index → s.index ≤ 145 →
        ¬ (s.min1.toNat ≤ s.measured ∧ s.measured ≤ s.max1.toNat) →
        ¬ (s.min5.toNat ≤ s.measured ∧ s.measured ≤ s.max5.toNat) →
        exec (.edge ts) s = .next { s with
          ts0 := s.ts2, ts1 := s.ts2, ts2 := ts, state := 0x1FF, trace := s.trace ++ [.resync .partRange] }

/-- R132 and R137: a part that is not the fourth of its bit shifts its class into `ACC` (short 0, long 1) and advances;
no field register changes. -/
def Obligations.PartBeforeTheFourth : Prop :=
  ∀ (ts : Timestamp) (s : State) (b : Bool), s.Measures ts → 2 ≤ s.index → s.index ≤ 145 → s.index % 4 ≠ 1 →
    classOf (s.ts2 - s.ts0) s = some b →
    exec (.edge ts) s = .next { s with
      ts0 := s.ts2, ts1 := s.ts2, ts2 := ts, acc := BitVec.ofNat 4 (s.acc.toNat * 2 + b.toNat)
      state := BitVec.ofInt 9 (s.index + 1), trace := s.trace ++ [.advance] }

/-- R135: at a fourth part any accumulator but 0001, 0100 and 0000 resyncs, and no field register is written. -/
def Obligations.InvalidPatternResyncs : Prop :=
  ∀ (ts : Timestamp) (s : State) (b : Bool), s.Measures ts → 2 ≤ s.index → s.index ≤ 145 → s.index % 4 = 1 →
    classOf (s.ts2 - s.ts0) s = some b →
    shl s.acc b ≠ 0b0001 → shl s.acc b ≠ 0b0100 → shl s.acc b ≠ 0b0000 →
    exec (.edge ts) s = .next { s with
      ts0 := s.ts2, ts1 := s.ts2, ts2 := ts, acc := shl s.acc b, state := 0x1FF
      trace := s.trace ++ [.resync .badPattern] }

/-- R139, first sentence: an address bit enters `F_ADDR` at bit 0. -/
def Obligations.AddressBit : Prop :=
  ∀ (ts : Timestamp) (s : State) (b v : Bool), s.Measures ts → 2 ≤ s.index → s.index ≤ 105 → s.index % 4 = 1 →
    classOf (s.ts2 - s.ts0) s = some b → shl s.acc b = (if v then 0b0100 else 0b0001) →
    exec (.edge ts) s = .next { s with
      ts0 := s.ts2, ts1 := s.ts2, ts2 := ts, acc := shl s.acc b
      fAddr := BitVec.ofNat 26 (s.fAddr.toNat * 2 + v.toNat)
      state := BitVec.ofInt 9 (s.index + 1), trace := s.trace ++ [.advance] }

/-- R140: the group bit. -/
def Obligations.GroupBit : Prop :=
  ∀ (ts : Timestamp) (s : State) (b v : Bool), s.Measures ts → s.index = 109 →
    classOf (s.ts2 - s.ts0) s = some b → shl s.acc b = (if v then 0b0100 else 0b0001) →
    exec (.edge ts) s = .next { s with
      ts0 := s.ts2, ts1 := s.ts2, ts2 := ts, acc := shl s.acc b, fGroup := (if v then 1 else 0), state := 110
      trace := s.trace ++ [.advance] }

/-- R141 and R136: at state 113 the three symbols give Off, On and Dim; at every other fourth part the dim marker
resyncs and no field register is written. -/
def Obligations.SwitchTypeBitAndDimMarker : Prop :=
  ∀ (ts : Timestamp) (s : State) (b : Bool), s.Measures ts → classOf (s.ts2 - s.ts0) s = some b →
    (s.index = 113 → ∀ k : BitVec 2, (shl s.acc b = 0b0001 ∧ k = 0) ∨ (shl s.acc b = 0b0100 ∧ k = 1)
        ∨ (shl s.acc b = 0b0000 ∧ k = 2) →
      exec (.edge ts) s = .next { s with
        ts0 := s.ts2, ts1 := s.ts2, ts2 := ts, acc := shl s.acc b, fSwitch := k, state := 114
        trace := s.trace ++ [.advance] })
      ∧ (2 ≤ s.index → s.index ≤ 145 → s.index % 4 = 1 → s.index ≠ 113 → shl s.acc b = 0b0000 →
        exec (.edge ts) s = .next { s with
          ts0 := s.ts2, ts1 := s.ts2, ts2 := ts, acc := 0, state := 0x1FF
          trace := s.trace ++ [.resync .dimMisplaced] })

/-- R142: a unit bit enters `F_UNIT` at bit 0; at state 129 an Off or On frame goes on at 146, a Dim frame at 130. -/
def Obligations.UnitBit : Prop :=
  ∀ (ts : Timestamp) (s : State) (b v : Bool), s.Measures ts →
    s.index = 117 ∨ s.index = 121 ∨ s.index = 125 ∨ s.index = 129 → (s.index = 129 → s.fSwitch ≠ 3) →
    classOf (s.ts2 - s.ts0) s = some b → shl s.acc b = (if v then 0b0100 else 0b0001) →
    exec (.edge ts) s = .next { s with
      ts0 := s.ts2, ts1 := s.ts2, ts2 := ts, acc := shl s.acc b
      fUnit := BitVec.ofNat 4 (s.fUnit.toNat * 2 + v.toNat)
      state := (if s.index = 129 ∧ s.fSwitch ≠ 2 then 146 else BitVec.ofInt 9 (s.index + 1))
      trace := s.trace ++ [.advance] }

/-- A dim-level bit enters `F_DIM` at bit 0, and state 145 goes on at 146 (R143, R144). -/
def Obligations.DimBit : Prop :=
  ∀ (ts : Timestamp) (s : State) (b v : Bool), s.Measures ts →
    s.index = 133 ∨ s.index = 137 ∨ s.index = 141 ∨ s.index = 145 →
    classOf (s.ts2 - s.ts0) s = some b → shl s.acc b = (if v then 0b0100 else 0b0001) →
    exec (.edge ts) s = .next { s with
      ts0 := s.ts2, ts1 := s.ts2, ts2 := ts, acc := shl s.acc b
      fDim := BitVec.ofNat 4 (s.fDim.toNat * 2 + v.toNat)
      state := BitVec.ofInt 9 (s.index + 1), trace := s.trace ++ [.advance] }

/-! ### The stop gap and the aggregator -/

/-- R161: a stop gap outside [20 P, 80 P] resyncs. -/
def Obligations.StopGapOutOfRange : Prop :=
  ∀ (ts : Timestamp) (s : State), s.Measures ts → s.index = 147 →
    s.measured < 20 * s.period.toNat ∨ 80 * s.period.toNat < s.measured →
    exec (.edge ts) s = .next { s with
      ts0 := s.ts2, ts1 := s.ts2, ts2 := ts, state := 0x1FF, trace := s.trace ++ [.resync .stopLoRange] }

/-- A completed frame below the threshold: the count and the baseline are updated and the block waits at state 0,
keeping its calibration (R162 to R165, R168). Here and below a count of 255, which no run reaches (R36), is left out: the
model's wrap there is log entry 8. -/
def Obligations.FrameBelowThreshold : Prop :=
  ∀ (ts : Timestamp) (s : State), s.FrameEnds ts → s.repeats.toNat < 255 → s.countAfter.toNat < s.minRepeats.toNat →
    exec (.edge ts) s = .next { s with
      ts0 := s.ts2, ts1 := s.ts2, ts2 := ts, repeats := s.countAfter
      bAddr := s.fAddr, bGroup := s.fGroup, bSwitch := s.fSwitch, bUnit := s.fUnit, bDim := s.fDim
      state := 0, trace := s.trace ++ [.frameRepeat] }

/-- A frame at the threshold with no dispatch in progress is dispatched, all in one step: `IN_CALLBACK`, `OUT_FRAME`, the
event with the frame word, and `STATE = -1` (R166, R168, R210). -/
def Obligations.FrameDispatched : Prop :=
  ∀ (ts : Timestamp) (s : State), s.FrameEnds ts → s.repeats.toNat < 255 →
    s.minRepeats.toNat ≤ s.countAfter.toNat → s.inCallback = false →
    exec (.edge ts) s = .next { s with
      ts0 := s.ts2, ts1 := s.ts2, ts2 := ts, repeats := s.countAfter
      bAddr := s.fAddr, bGroup := s.fGroup, bSwitch := s.fSwitch, bUnit := s.fUnit, bDim := s.fDim
      inCallback := true
      outFrame := pack s.period s.fAddr s.fUnit s.fGroup s.fSwitch s.fDim
      dispatches := s.dispatches ++ [pack s.period s.fAddr s.fUnit s.fGroup s.fSwitch s.fDim]
      state := 0x1FF, trace := s.trace ++ [.dispatch] }

/-- A frame at the threshold while a dispatch is in progress is lost: nothing is emitted, `OUT_FRAME` is unchanged, and
`STATE` still goes to -1 (R167, R168). -/
def Obligations.FrameSuppressed : Prop :=
  ∀ (ts : Timestamp) (s : State), s.FrameEnds ts → s.repeats.toNat < 255 →
    s.minRepeats.toNat ≤ s.countAfter.toNat → s.inCallback = true →
    exec (.edge ts) s = .next { s with
      ts0 := s.ts2, ts1 := s.ts2, ts2 := ts, repeats := s.countAfter
      bAddr := s.fAddr, bGroup := s.fGroup, bSwitch := s.fSwitch, bUnit := s.fUnit, bDim := s.fDim
      state := 0x1FF, trace := s.trace ++ [.suppressed] }

/-- A threshold of 0 acts as 1 (R37, R165): on every completed frame the two blocks do the same. -/
def Obligations.ThresholdZeroActsAsOne : Prop :=
  ∀ (ts : Timestamp) (s : State), s.FrameEnds ts → s.repeats.toNat < 255 →
    ∃ t, exec (.edge ts) { s with minRepeats := 0 } = .next t ∧ t.index = -1
      ∧ exec (.edge ts) { s with minRepeats := 1 } = .next { t with minRepeats := 1 }

/-- R52: where the frame word carries each field, and that no two frames with periods below 2^27 share a word. -/
def Obligations.FrameWordFields : Prop :=
  (∀ (p : BitVec 32) (a : BitVec 26) (u : BitVec 4) (g : BitVec 1) (sw : BitVec 2) (d : BitVec 4),
      (pack p a u g sw d).extractLsb' 0 26 = a ∧ (pack p a u g sw d).extractLsb' 26 4 = u
        ∧ (pack p a u g sw d).extractLsb' 30 1 = g ∧ (pack p a u g sw d).extractLsb' 31 2 = sw
        ∧ (pack p a u g sw d).extractLsb' 33 4 = d ∧ (pack p a u g sw d).extractLsb' 37 27 = p.extractLsb' 0 27)
    ∧ ∀ (p p' : BitVec 32) (a a' : BitVec 26) (u u' : BitVec 4) (g g' : BitVec 1) (sw sw' : BitVec 2) (d d' : BitVec 4),
        p.toNat < 2 ^ 27 → p'.toNat < 2 ^ 27 → pack p a u g sw d = pack p' a' u' g' sw' d' →
        p = p' ∧ a = a' ∧ u = u' ∧ g = g' ∧ sw = sw' ∧ d = d'

/-! ### Failures and events -/

/-- R202 and R203: an edge that resyncs has written the delay line, `STATE <- -1` and, for a bad pattern or a misplaced
dim marker, `ACC`; nothing else. -/
def Obligations.ResyncWritesStateOnly : Prop :=
  ∀ (ts : Timestamp) (s t : State) (c : ResyncCause), exec (.edge ts) s = .next t →
    t.trace = s.trace ++ [.resync c] →
    t = { s with ts0 := s.ts2, ts1 := s.ts2, ts2 := ts, state := 0x1FF, acc := t.acc, trace := s.trace ++ [.resync c] }
      ∧ (t.acc ≠ s.acc → c = .badPattern ∨ c = .dimMisplaced)

/-- The arm and the condition each resync cause comes from, in a calibrated block (R200). -/
def Obligations.ResyncCauses : Prop :=
  ∀ (ts : Timestamp) (s t : State) (c : ResyncCause), s.CalibrationSound → exec (.edge ts) s = .next t →
    t.trace = s.trace ++ [.resync c] →
    match c with
    | .startHiLong => s.index = 0 ∧ 3 * s.period.toNat < s.measured
    | .startLoRange => s.index = 1 ∧ (s.measured < 7 * s.period.toNat ∨ 15 * s.period.toNat < s.measured)
    | .partRange => 2 ≤ s.index ∧ s.index ≤ 145
        ∧ (10 * s.measured < 3 * s.period.toNat ∨ 8 * s.period.toNat < s.measured)
    | .badPattern => 5 ≤ s.index ∧ s.index ≤ 145 ∧ s.index % 4 = 1 ∧ t.acc ≠ 0b0001 ∧ t.acc ≠ 0b0100 ∧ t.acc ≠ 0b0000
    | .dimMisplaced => 5 ≤ s.index ∧ s.index ≤ 145 ∧ s.index % 4 = 1 ∧ s.index ≠ 113 ∧ t.acc = 0b0000
    | .stopHiLong => s.index = 146 ∧ 3 * s.period.toNat < s.measured
    | .stopLoRange => s.index = 147 ∧ (s.measured < 20 * s.period.toNat ∨ 80 * s.period.toNat < s.measured)

/-- Exactly one event describes each executed `EDGE`, and no other command leaves one (R201). -/
def Obligations.OneEventPerEdge : Prop :=
  (∀ (ts : Timestamp) (s t : State), exec (.edge ts) s = .next t → ∃ e, t.trace = s.trace ++ [e])
    ∧ ∀ (i : Instr) (s t : State), (∀ ts, i ≠ .edge ts) → exec i s = .next t → t.trace = s.trace

/-! ### Whole-machine rules -/

/-- A step emits at most one `DISPATCH` event, and only an edge that completes a frame at the threshold with the guard
clear emits one, setting the guard, `OUT_FRAME` and `STATE` in the same step (R56, R62, R166, R210). -/
def Obligations.DispatchOnlyAtThreshold : Prop :=
  ∀ s t : State, step s = .next t →
    t.dispatches = s.dispatches
      ∨ (t.dispatches = s.dispatches ++ [t.outFrame]
        ∧ t.outFrame = pack s.period s.fAddr s.fUnit s.fGroup s.fSwitch s.fDim
        ∧ s.enabled = true ∧ s.inCallback = false ∧ t.inCallback = true ∧ s.index = 147 ∧ t.index = -1
        ∧ t.minRepeats.toNat ≤ t.repeats.toNat
        ∧ ∃ c rest ts, s.pending = c :: rest ∧ decodeWord c.word = .edge ts ∧ t.pending = rest)

/-- While a dispatch is in progress and no `CB_DONE` or `INIT` comes, no further event is emitted, the guard stays set and
`OUT_FRAME` keeps its frame, however many commands are executed (R167, R176, R211). -/
def Obligations.GuardHeldUntilAnswered : Prop :=
  ∀ (k : Nat) (s t : State), s.inCallback = true →
    (∀ c ∈ s.pending.take k, decodeWord c.word ≠ .cbDone ∧ ∀ n, decodeWord c.word ≠ .init n) →
    Sys2Proof.core.run k s = .next t →
    t.inCallback = true ∧ t.dispatches = s.dispatches ∧ t.outFrame = s.outFrame

/-- Noise immunity (R97): a glitch C after an accepted edge B, the next edge D and an accepted edge E leave every
register exactly as the same trace without B and C does; C is rejected, D is skipped. -/
def Obligations.GlitchLeavesNoTrace : Prop :=
  ∀ (s s1 : State) (b c d e : Timestamp), s.Inv → s.enabled = true → s.skip = false → 0 ≤ s.index →
    s.min1.toNat ≤ (b - s.ts2).toNat → exec (.edge b) s = .next s1 → 0 ≤ s1.index →
    (c - b).toNat < s.min1.toNat → s.min1.toNat ≤ (e - d).toNat →
    (b - s.ts2).toNat + (c - b).toNat + (d - c).toNat < 2 ^ 32 →
    ∃ (t t' : State) (x y : EdgeEvent),
      Sys2Proof.core.run 4 { s with pending := commandsOf .edgeSource [.edge b, .edge c, .edge d, .edge e] } = .next t
        ∧ Sys2Proof.core.run 2 { s with pending := commandsOf .edgeSource [.edge d, .edge e] } = .next t'
        ∧ t = { t' with trace := t.trace }
        ∧ t'.trace = s.trace ++ [x, y] ∧ t.trace = s.trace ++ [x, .noise, .skipped, y]

/-- Calibration on an overlong pulse (R236): while every edge comes less than `MIN1` after the one before it, nothing is
measured; `STATE`, `TS[0]` and every other register but the newer delay-line entries and `SKIP` stay as they are. -/
def Obligations.ShortIntervalsLockTheBlock : Prop :=
  ∀ (tss : List Timestamp) (s : State) (rest : List Command), s.enabled = true → 0 ≤ s.index → s.index ≤ 147 →
    closerThan s.min1.toNat s.ts2 tss = true → s.pending = commandsOf .edgeSource (tss.map .edge) ++ rest →
    ∃ t : State, Sys2Proof.core.run tss.length s = .next t
      ∧ t = { s with pending := rest, ts1 := t.ts1, ts2 := t.ts2, skip := t.skip, trace := t.trace }

/-- The stale delay line after `INIT` (R183, R234): the second edge measures the first edge's timestamp minus 0, and if
that is no sync gap the third edge measures the interval between the first two. -/
def Obligations.StaleDelayLineAfterInit : Prop :=
  ∀ (s : State) (n : BitVec 8) (a b c : Timestamp),
    s.pending = commandsOf .host [.init n] ++ commandsOf .edgeSource [.edge a, .edge b, .edge c] →
    (4800 < a.toNat → ∃ t : State, Sys2Proof.core.run 3 s = .next t ∧ t.index = 0 ∧ t.period.toNat = a.toNat / 40)
      ∧ (a.toNat ≤ 4800 → 4800 < (b - a).toNat →
          ∃ t : State, Sys2Proof.core.run 4 s = .next t ∧ t.index = 0 ∧ t.period.toNat = (b - a).toNat / 40)
      ∧ (a.toNat ≤ 4800 → (b - a).toNat ≤ 4800 →
          ∃ t : State, Sys2Proof.core.run 4 s = .next t ∧ t.index = -1 ∧ t.minRepeats = n ∧ t.dispatches = s.dispatches)

/-- Consecutive identical frames are dispatched on the Nth occurrence and not before: from a fresh count, with no frame
failing and no dispatch in progress, N - 1 or fewer completed frames emit nothing and the Nth emits the frame (R164 to
R166, R169, R170). -/
def Obligations.DispatchOnNthFrame : Prop :=
  ∀ (f : Frame) (s : State) (k : Nat), s.repeats = 0 → s.inCallback = false → 1 ≤ s.minRepeats.toNat →
    (k < s.minRepeats.toNat → (completeFrames (List.replicate k f) s).dispatches = s.dispatches
        ∧ (completeFrames (List.replicate k f) s).repeats.toNat = k)
      ∧ (k = s.minRepeats.toNat →
          (completeFrames (List.replicate k f) s).dispatches
              = s.dispatches ++ [pack s.period f.addr f.unit f.group f.switch f.dim]
            ∧ (completeFrames (List.replicate k f) s).index = -1)

/-- A single differing frame between two runs of N - 1 identical frames prevents any dispatch (R171). -/
def Obligations.ChangeResetsCounting : Prop :=
  ∀ (f g : Frame) (s : State), f ≠ g → s.repeats = 0 → 2 ≤ s.minRepeats.toNat →
    (completeFrames (List.replicate (s.minRepeats.toNat - 1) f ++ g :: List.replicate (s.minRepeats.toNat - 1) f)
        s).dispatches = s.dispatches
      ∧ (completeFrames (List.replicate (s.minRepeats.toNat - 1) f ++ g :: List.replicate (s.minRepeats.toNat - 1) f)
        s).repeats.toNat = s.minRepeats.toNat - 1

/-- The length of a frame: 132 pulses for Off and On, 148 for Dim, and at T = 260 it lasts 80194 and 87474 microseconds
whatever its bits (R75, R243). -/
def Obligations.FrameLayout : Prop :=
  ∀ (a : BitVec 26) (g : BitVec 1) (u : BitVec 4) (level : BitVec 4) (T : Nat),
    (pulsesFrame T a g .off u).length = 132 ∧ (pulsesFrame T a g .on u).length = 132
      ∧ (pulsesFrame T a g (.dim level) u).length = 148
      ∧ (pulsesFrame 260 a g .off u).sum = 80194 ∧ (pulsesFrame 260 a g .on u).sum = 80194
      ∧ (pulsesFrame 260 a g (.dim level) u).sum = 87474

/-- The decoder decodes what an ideal transmitter sends (R74 to R76, R79, R139 to R143, R160 to R168). A calibrated block
at the start of a frame, sent with a time unit T near enough to its period for every pulse to fall in its range, ends the
frame with the fields sent: they are in the scratch frame and the baseline, the count is updated, and the frame is
dispatched, with exactly those values, just when the count has reached the threshold and no dispatch is in progress. -/
def Obligations.FrameRoundTrip : Prop :=
  ∀ (s : State) (T r : Nat) (a : BitVec 26) (g : BitVec 1) (sw : FrameSwitch) (u : BitVec 4) (rest : List Command),
    s.Inv → s.enabled = true → s.skip = false → s.index = 0 → s.ts0 = s.ts1 → s.ts2 = s.ts1 + BitVec.ofNat 32 T →
    7 * s.period.toNat ≤ 1044 * T / 100 → 1044 * T / 100 ≤ 15 * s.period.toNat → 40 * T < 2 ^ 32 →
    s.min1.toNat ≤ r → r < 2 ^ 32 →
    s.pending = commandsOf .edgeSource
        ((edgesFrom s.ts2.toNat ((pulsesFrame T a g sw u).tail ++ [r])).map edgeAt) ++ rest →
    ∃ t : State, Sys2Proof.core.run (pulsesFrame T a g sw u).length s = .next t ∧ t.pending = rest
      ∧ t.fAddr = a ∧ t.fGroup = g ∧ t.fSwitch = switchCode sw ∧ t.fUnit = u ∧ t.fDim = (dimCode sw).getD s.fDim
      ∧ t.bAddr = a ∧ t.bGroup = g ∧ t.bSwitch = switchCode sw ∧ t.bUnit = u ∧ t.bDim = (dimCode sw).getD s.fDim
      ∧ t.period = s.period
      ∧ t.repeats = (if a = s.bAddr ∧ u = s.bUnit ∧ (dimCode sw).getD s.fDim = s.bDim ∧ g = s.bGroup
          ∧ switchCode sw = s.bSwitch then s.repeats + 1 else 1)
      ∧ (s.minRepeats.toNat ≤ t.repeats.toNat ∧ s.inCallback = false →
          t.index = -1 ∧ t.inCallback = true
            ∧ t.dispatches = s.dispatches ++ [pack s.period a u g (switchCode sw) ((dimCode sw).getD s.fDim)])
      ∧ (t.repeats.toNat < s.minRepeats.toNat → t.index = 0 ∧ t.dispatches = s.dispatches)
      ∧ (s.inCallback = true → t.dispatches = s.dispatches)
end

