-- ==== Sys2Proof/Laws/State.lean ====
section
/-! SUPPORT. One lemma per field per update of State, true by rfl, so that no later proof unfolds a record update. -/

namespace Sys2Proof.Machine

variable (s : State)

/-! ### note -/

@[simp] theorem State.note_state (e : EdgeEvent) : (s.note e).state = s.state := rfl
@[simp] theorem State.note_enabled (e : EdgeEvent) : (s.note e).enabled = s.enabled := rfl
@[simp] theorem State.note_skip (e : EdgeEvent) : (s.note e).skip = s.skip := rfl
@[simp] theorem State.note_ts0 (e : EdgeEvent) : (s.note e).ts0 = s.ts0 := rfl
@[simp] theorem State.note_ts1 (e : EdgeEvent) : (s.note e).ts1 = s.ts1 := rfl
@[simp] theorem State.note_ts2 (e : EdgeEvent) : (s.note e).ts2 = s.ts2 := rfl
@[simp] theorem State.note_period (e : EdgeEvent) : (s.note e).period = s.period := rfl
@[simp] theorem State.note_min1 (e : EdgeEvent) : (s.note e).min1 = s.min1 := rfl
@[simp] theorem State.note_max1 (e : EdgeEvent) : (s.note e).max1 = s.max1 := rfl
@[simp] theorem State.note_min5 (e : EdgeEvent) : (s.note e).min5 = s.min5 := rfl
@[simp] theorem State.note_max5 (e : EdgeEvent) : (s.note e).max5 = s.max5 := rfl
@[simp] theorem State.note_fAddr (e : EdgeEvent) : (s.note e).fAddr = s.fAddr := rfl
@[simp] theorem State.note_fGroup (e : EdgeEvent) : (s.note e).fGroup = s.fGroup := rfl
@[simp] theorem State.note_fSwitch (e : EdgeEvent) : (s.note e).fSwitch = s.fSwitch := rfl
@[simp] theorem State.note_fUnit (e : EdgeEvent) : (s.note e).fUnit = s.fUnit := rfl
@[simp] theorem State.note_fDim (e : EdgeEvent) : (s.note e).fDim = s.fDim := rfl
@[simp] theorem State.note_acc (e : EdgeEvent) : (s.note e).acc = s.acc := rfl
@[simp] theorem State.note_bAddr (e : EdgeEvent) : (s.note e).bAddr = s.bAddr := rfl
@[simp] theorem State.note_bGroup (e : EdgeEvent) : (s.note e).bGroup = s.bGroup := rfl
@[simp] theorem State.note_bSwitch (e : EdgeEvent) : (s.note e).bSwitch = s.bSwitch := rfl
@[simp] theorem State.note_bUnit (e : EdgeEvent) : (s.note e).bUnit = s.bUnit := rfl
@[simp] theorem State.note_bDim (e : EdgeEvent) : (s.note e).bDim = s.bDim := rfl
@[simp] theorem State.note_repeats (e : EdgeEvent) : (s.note e).repeats = s.repeats := rfl
@[simp] theorem State.note_minRepeats (e : EdgeEvent) : (s.note e).minRepeats = s.minRepeats := rfl
@[simp] theorem State.note_inCallback (e : EdgeEvent) : (s.note e).inCallback = s.inCallback := rfl
@[simp] theorem State.note_outFrame (e : EdgeEvent) : (s.note e).outFrame = s.outFrame := rfl
@[simp] theorem State.note_pending (e : EdgeEvent) : (s.note e).pending = s.pending := rfl
@[simp] theorem State.note_dispatches (e : EdgeEvent) : (s.note e).dispatches = s.dispatches := rfl
@[simp] theorem State.note_trace (e : EdgeEvent) : (s.note e).trace = s.trace ++ [e] := rfl

/-! ### raiseResync -/

@[simp] theorem State.raiseResync_state (c : ResyncCause) : (s.raiseResync c).state = 0x1FF := rfl
@[simp] theorem State.raiseResync_enabled (c : ResyncCause) : (s.raiseResync c).enabled = s.enabled := rfl
@[simp] theorem State.raiseResync_skip (c : ResyncCause) : (s.raiseResync c).skip = s.skip := rfl
@[simp] theorem State.raiseResync_ts0 (c : ResyncCause) : (s.raiseResync c).ts0 = s.ts0 := rfl
@[simp] theorem State.raiseResync_ts1 (c : ResyncCause) : (s.raiseResync c).ts1 = s.ts1 := rfl
@[simp] theorem State.raiseResync_ts2 (c : ResyncCause) : (s.raiseResync c).ts2 = s.ts2 := rfl
@[simp] theorem State.raiseResync_period (c : ResyncCause) : (s.raiseResync c).period = s.period := rfl
@[simp] theorem State.raiseResync_min1 (c : ResyncCause) : (s.raiseResync c).min1 = s.min1 := rfl
@[simp] theorem State.raiseResync_max1 (c : ResyncCause) : (s.raiseResync c).max1 = s.max1 := rfl
@[simp] theorem State.raiseResync_min5 (c : ResyncCause) : (s.raiseResync c).min5 = s.min5 := rfl
@[simp] theorem State.raiseResync_max5 (c : ResyncCause) : (s.raiseResync c).max5 = s.max5 := rfl
@[simp] theorem State.raiseResync_fAddr (c : ResyncCause) : (s.raiseResync c).fAddr = s.fAddr := rfl
@[simp] theorem State.raiseResync_fGroup (c : ResyncCause) : (s.raiseResync c).fGroup = s.fGroup := rfl
@[simp] theorem State.raiseResync_fSwitch (c : ResyncCause) : (s.raiseResync c).fSwitch = s.fSwitch := rfl
@[simp] theorem State.raiseResync_fUnit (c : ResyncCause) : (s.raiseResync c).fUnit = s.fUnit := rfl
@[simp] theorem State.raiseResync_fDim (c : ResyncCause) : (s.raiseResync c).fDim = s.fDim := rfl
@[simp] theorem State.raiseResync_acc (c : ResyncCause) : (s.raiseResync c).acc = s.acc := rfl
@[simp] theorem State.raiseResync_bAddr (c : ResyncCause) : (s.raiseResync c).bAddr = s.bAddr := rfl
@[simp] theorem State.raiseResync_bGroup (c : ResyncCause) : (s.raiseResync c).bGroup = s.bGroup := rfl
@[simp] theorem State.raiseResync_bSwitch (c : ResyncCause) : (s.raiseResync c).bSwitch = s.bSwitch := rfl
@[simp] theorem State.raiseResync_bUnit (c : ResyncCause) : (s.raiseResync c).bUnit = s.bUnit := rfl
@[simp] theorem State.raiseResync_bDim (c : ResyncCause) : (s.raiseResync c).bDim = s.bDim := rfl
@[simp] theorem State.raiseResync_repeats (c : ResyncCause) : (s.raiseResync c).repeats = s.repeats := rfl
@[simp] theorem State.raiseResync_minRepeats (c : ResyncCause) : (s.raiseResync c).minRepeats = s.minRepeats := rfl
@[simp] theorem State.raiseResync_inCallback (c : ResyncCause) : (s.raiseResync c).inCallback = s.inCallback := rfl
@[simp] theorem State.raiseResync_outFrame (c : ResyncCause) : (s.raiseResync c).outFrame = s.outFrame := rfl
@[simp] theorem State.raiseResync_pending (c : ResyncCause) : (s.raiseResync c).pending = s.pending := rfl
@[simp] theorem State.raiseResync_dispatches (c : ResyncCause) : (s.raiseResync c).dispatches = s.dispatches := rfl
@[simp] theorem State.raiseResync_trace (c : ResyncCause) : (s.raiseResync c).trace = s.trace ++ [.resync c] := rfl

/-! ### advanceTo -/

@[simp] theorem State.advanceTo_state (x : SeqWord) : (s.advanceTo x).state = x := rfl
@[simp] theorem State.advanceTo_enabled (x : SeqWord) : (s.advanceTo x).enabled = s.enabled := rfl
@[simp] theorem State.advanceTo_skip (x : SeqWord) : (s.advanceTo x).skip = s.skip := rfl
@[simp] theorem State.advanceTo_ts0 (x : SeqWord) : (s.advanceTo x).ts0 = s.ts0 := rfl
@[simp] theorem State.advanceTo_ts1 (x : SeqWord) : (s.advanceTo x).ts1 = s.ts1 := rfl
@[simp] theorem State.advanceTo_ts2 (x : SeqWord) : (s.advanceTo x).ts2 = s.ts2 := rfl
@[simp] theorem State.advanceTo_period (x : SeqWord) : (s.advanceTo x).period = s.period := rfl
@[simp] theorem State.advanceTo_min1 (x : SeqWord) : (s.advanceTo x).min1 = s.min1 := rfl
@[simp] theorem State.advanceTo_max1 (x : SeqWord) : (s.advanceTo x).max1 = s.max1 := rfl
@[simp] theorem State.advanceTo_min5 (x : SeqWord) : (s.advanceTo x).min5 = s.min5 := rfl
@[simp] theorem State.advanceTo_max5 (x : SeqWord) : (s.advanceTo x).max5 = s.max5 := rfl
@[simp] theorem State.advanceTo_fAddr (x : SeqWord) : (s.advanceTo x).fAddr = s.fAddr := rfl
@[simp] theorem State.advanceTo_fGroup (x : SeqWord) : (s.advanceTo x).fGroup = s.fGroup := rfl
@[simp] theorem State.advanceTo_fSwitch (x : SeqWord) : (s.advanceTo x).fSwitch = s.fSwitch := rfl
@[simp] theorem State.advanceTo_fUnit (x : SeqWord) : (s.advanceTo x).fUnit = s.fUnit := rfl
@[simp] theorem State.advanceTo_fDim (x : SeqWord) : (s.advanceTo x).fDim = s.fDim := rfl
@[simp] theorem State.advanceTo_acc (x : SeqWord) : (s.advanceTo x).acc = s.acc := rfl
@[simp] theorem State.advanceTo_bAddr (x : SeqWord) : (s.advanceTo x).bAddr = s.bAddr := rfl
@[simp] theorem State.advanceTo_bGroup (x : SeqWord) : (s.advanceTo x).bGroup = s.bGroup := rfl
@[simp] theorem State.advanceTo_bSwitch (x : SeqWord) : (s.advanceTo x).bSwitch = s.bSwitch := rfl
@[simp] theorem State.advanceTo_bUnit (x : SeqWord) : (s.advanceTo x).bUnit = s.bUnit := rfl
@[simp] theorem State.advanceTo_bDim (x : SeqWord) : (s.advanceTo x).bDim = s.bDim := rfl
@[simp] theorem State.advanceTo_repeats (x : SeqWord) : (s.advanceTo x).repeats = s.repeats := rfl
@[simp] theorem State.advanceTo_minRepeats (x : SeqWord) : (s.advanceTo x).minRepeats = s.minRepeats := rfl
@[simp] theorem State.advanceTo_inCallback (x : SeqWord) : (s.advanceTo x).inCallback = s.inCallback := rfl
@[simp] theorem State.advanceTo_outFrame (x : SeqWord) : (s.advanceTo x).outFrame = s.outFrame := rfl
@[simp] theorem State.advanceTo_pending (x : SeqWord) : (s.advanceTo x).pending = s.pending := rfl
@[simp] theorem State.advanceTo_dispatches (x : SeqWord) : (s.advanceTo x).dispatches = s.dispatches := rfl
@[simp] theorem State.advanceTo_trace (x : SeqWord) : (s.advanceTo x).trace = s.trace ++ [.advance] := rfl

/-! ### advance -/

@[simp] theorem State.advance_state : (s.advance).state = s.state + 1 := rfl
@[simp] theorem State.advance_enabled : (s.advance).enabled = s.enabled := rfl
@[simp] theorem State.advance_skip : (s.advance).skip = s.skip := rfl
@[simp] theorem State.advance_ts0 : (s.advance).ts0 = s.ts0 := rfl
@[simp] theorem State.advance_ts1 : (s.advance).ts1 = s.ts1 := rfl
@[simp] theorem State.advance_ts2 : (s.advance).ts2 = s.ts2 := rfl
@[simp] theorem State.advance_period : (s.advance).period = s.period := rfl
@[simp] theorem State.advance_min1 : (s.advance).min1 = s.min1 := rfl
@[simp] theorem State.advance_max1 : (s.advance).max1 = s.max1 := rfl
@[simp] theorem State.advance_min5 : (s.advance).min5 = s.min5 := rfl
@[simp] theorem State.advance_max5 : (s.advance).max5 = s.max5 := rfl
@[simp] theorem State.advance_fAddr : (s.advance).fAddr = s.fAddr := rfl
@[simp] theorem State.advance_fGroup : (s.advance).fGroup = s.fGroup := rfl
@[simp] theorem State.advance_fSwitch : (s.advance).fSwitch = s.fSwitch := rfl
@[simp] theorem State.advance_fUnit : (s.advance).fUnit = s.fUnit := rfl
@[simp] theorem State.advance_fDim : (s.advance).fDim = s.fDim := rfl
@[simp] theorem State.advance_acc : (s.advance).acc = s.acc := rfl
@[simp] theorem State.advance_bAddr : (s.advance).bAddr = s.bAddr := rfl
@[simp] theorem State.advance_bGroup : (s.advance).bGroup = s.bGroup := rfl
@[simp] theorem State.advance_bSwitch : (s.advance).bSwitch = s.bSwitch := rfl
@[simp] theorem State.advance_bUnit : (s.advance).bUnit = s.bUnit := rfl
@[simp] theorem State.advance_bDim : (s.advance).bDim = s.bDim := rfl
@[simp] theorem State.advance_repeats : (s.advance).repeats = s.repeats := rfl
@[simp] theorem State.advance_minRepeats : (s.advance).minRepeats = s.minRepeats := rfl
@[simp] theorem State.advance_inCallback : (s.advance).inCallback = s.inCallback := rfl
@[simp] theorem State.advance_outFrame : (s.advance).outFrame = s.outFrame := rfl
@[simp] theorem State.advance_pending : (s.advance).pending = s.pending := rfl
@[simp] theorem State.advance_dispatches : (s.advance).dispatches = s.dispatches := rfl
@[simp] theorem State.advance_trace : (s.advance).trace = s.trace ++ [.advance] := rfl

/-! ### shiftDelay -/

@[simp] theorem State.shiftDelay_state (ts : Timestamp) : (s.shiftDelay ts).state = s.state := rfl
@[simp] theorem State.shiftDelay_enabled (ts : Timestamp) : (s.shiftDelay ts).enabled = s.enabled := rfl
@[simp] theorem State.shiftDelay_skip (ts : Timestamp) : (s.shiftDelay ts).skip = s.skip := rfl
@[simp] theorem State.shiftDelay_ts0 (ts : Timestamp) : (s.shiftDelay ts).ts0 = s.ts0 := rfl
@[simp] theorem State.shiftDelay_ts1 (ts : Timestamp) : (s.shiftDelay ts).ts1 = s.ts2 := rfl
@[simp] theorem State.shiftDelay_ts2 (ts : Timestamp) : (s.shiftDelay ts).ts2 = ts := rfl
@[simp] theorem State.shiftDelay_period (ts : Timestamp) : (s.shiftDelay ts).period = s.period := rfl
@[simp] theorem State.shiftDelay_min1 (ts : Timestamp) : (s.shiftDelay ts).min1 = s.min1 := rfl
@[simp] theorem State.shiftDelay_max1 (ts : Timestamp) : (s.shiftDelay ts).max1 = s.max1 := rfl
@[simp] theorem State.shiftDelay_min5 (ts : Timestamp) : (s.shiftDelay ts).min5 = s.min5 := rfl
@[simp] theorem State.shiftDelay_max5 (ts : Timestamp) : (s.shiftDelay ts).max5 = s.max5 := rfl
@[simp] theorem State.shiftDelay_fAddr (ts : Timestamp) : (s.shiftDelay ts).fAddr = s.fAddr := rfl
@[simp] theorem State.shiftDelay_fGroup (ts : Timestamp) : (s.shiftDelay ts).fGroup = s.fGroup := rfl
@[simp] theorem State.shiftDelay_fSwitch (ts : Timestamp) : (s.shiftDelay ts).fSwitch = s.fSwitch := rfl
@[simp] theorem State.shiftDelay_fUnit (ts : Timestamp) : (s.shiftDelay ts).fUnit = s.fUnit := rfl
@[simp] theorem State.shiftDelay_fDim (ts : Timestamp) : (s.shiftDelay ts).fDim = s.fDim := rfl
@[simp] theorem State.shiftDelay_acc (ts : Timestamp) : (s.shiftDelay ts).acc = s.acc := rfl
@[simp] theorem State.shiftDelay_bAddr (ts : Timestamp) : (s.shiftDelay ts).bAddr = s.bAddr := rfl
@[simp] theorem State.shiftDelay_bGroup (ts : Timestamp) : (s.shiftDelay ts).bGroup = s.bGroup := rfl
@[simp] theorem State.shiftDelay_bSwitch (ts : Timestamp) : (s.shiftDelay ts).bSwitch = s.bSwitch := rfl
@[simp] theorem State.shiftDelay_bUnit (ts : Timestamp) : (s.shiftDelay ts).bUnit = s.bUnit := rfl
@[simp] theorem State.shiftDelay_bDim (ts : Timestamp) : (s.shiftDelay ts).bDim = s.bDim := rfl
@[simp] theorem State.shiftDelay_repeats (ts : Timestamp) : (s.shiftDelay ts).repeats = s.repeats := rfl
@[simp] theorem State.shiftDelay_minRepeats (ts : Timestamp) : (s.shiftDelay ts).minRepeats = s.minRepeats := rfl
@[simp] theorem State.shiftDelay_inCallback (ts : Timestamp) : (s.shiftDelay ts).inCallback = s.inCallback := rfl
@[simp] theorem State.shiftDelay_outFrame (ts : Timestamp) : (s.shiftDelay ts).outFrame = s.outFrame := rfl
@[simp] theorem State.shiftDelay_pending (ts : Timestamp) : (s.shiftDelay ts).pending = s.pending := rfl
@[simp] theorem State.shiftDelay_dispatches (ts : Timestamp) : (s.shiftDelay ts).dispatches = s.dispatches := rfl
@[simp] theorem State.shiftDelay_trace (ts : Timestamp) : (s.shiftDelay ts).trace = s.trace := rfl

/-! ### moveLeadingEdge -/

@[simp] theorem State.moveLeadingEdge_state : (s.moveLeadingEdge).state = s.state := rfl
@[simp] theorem State.moveLeadingEdge_enabled : (s.moveLeadingEdge).enabled = s.enabled := rfl
@[simp] theorem State.moveLeadingEdge_skip : (s.moveLeadingEdge).skip = s.skip := rfl
@[simp] theorem State.moveLeadingEdge_ts0 : (s.moveLeadingEdge).ts0 = s.ts1 := rfl
@[simp] theorem State.moveLeadingEdge_ts1 : (s.moveLeadingEdge).ts1 = s.ts1 := rfl
@[simp] theorem State.moveLeadingEdge_ts2 : (s.moveLeadingEdge).ts2 = s.ts2 := rfl
@[simp] theorem State.moveLeadingEdge_period : (s.moveLeadingEdge).period = s.period := rfl
@[simp] theorem State.moveLeadingEdge_min1 : (s.moveLeadingEdge).min1 = s.min1 := rfl
@[simp] theorem State.moveLeadingEdge_max1 : (s.moveLeadingEdge).max1 = s.max1 := rfl
@[simp] theorem State.moveLeadingEdge_min5 : (s.moveLeadingEdge).min5 = s.min5 := rfl
@[simp] theorem State.moveLeadingEdge_max5 : (s.moveLeadingEdge).max5 = s.max5 := rfl
@[simp] theorem State.moveLeadingEdge_fAddr : (s.moveLeadingEdge).fAddr = s.fAddr := rfl
@[simp] theorem State.moveLeadingEdge_fGroup : (s.moveLeadingEdge).fGroup = s.fGroup := rfl
@[simp] theorem State.moveLeadingEdge_fSwitch : (s.moveLeadingEdge).fSwitch = s.fSwitch := rfl
@[simp] theorem State.moveLeadingEdge_fUnit : (s.moveLeadingEdge).fUnit = s.fUnit := rfl
@[simp] theorem State.moveLeadingEdge_fDim : (s.moveLeadingEdge).fDim = s.fDim := rfl
@[simp] theorem State.moveLeadingEdge_acc : (s.moveLeadingEdge).acc = s.acc := rfl
@[simp] theorem State.moveLeadingEdge_bAddr : (s.moveLeadingEdge).bAddr = s.bAddr := rfl
@[simp] theorem State.moveLeadingEdge_bGroup : (s.moveLeadingEdge).bGroup = s.bGroup := rfl
@[simp] theorem State.moveLeadingEdge_bSwitch : (s.moveLeadingEdge).bSwitch = s.bSwitch := rfl
@[simp] theorem State.moveLeadingEdge_bUnit : (s.moveLeadingEdge).bUnit = s.bUnit := rfl
@[simp] theorem State.moveLeadingEdge_bDim : (s.moveLeadingEdge).bDim = s.bDim := rfl
@[simp] theorem State.moveLeadingEdge_repeats : (s.moveLeadingEdge).repeats = s.repeats := rfl
@[simp] theorem State.moveLeadingEdge_minRepeats : (s.moveLeadingEdge).minRepeats = s.minRepeats := rfl
@[simp] theorem State.moveLeadingEdge_inCallback : (s.moveLeadingEdge).inCallback = s.inCallback := rfl
@[simp] theorem State.moveLeadingEdge_outFrame : (s.moveLeadingEdge).outFrame = s.outFrame := rfl
@[simp] theorem State.moveLeadingEdge_pending : (s.moveLeadingEdge).pending = s.pending := rfl
@[simp] theorem State.moveLeadingEdge_dispatches : (s.moveLeadingEdge).dispatches = s.dispatches := rfl
@[simp] theorem State.moveLeadingEdge_trace : (s.moveLeadingEdge).trace = s.trace := rfl

/-! ### consumeSkip -/

@[simp] theorem State.consumeSkip_state : (s.consumeSkip).state = s.state := rfl
@[simp] theorem State.consumeSkip_enabled : (s.consumeSkip).enabled = s.enabled := rfl
@[simp] theorem State.consumeSkip_skip : (s.consumeSkip).skip = false := rfl
@[simp] theorem State.consumeSkip_ts0 : (s.consumeSkip).ts0 = s.ts0 := rfl
@[simp] theorem State.consumeSkip_ts1 : (s.consumeSkip).ts1 = s.ts1 := rfl
@[simp] theorem State.consumeSkip_ts2 : (s.consumeSkip).ts2 = s.ts2 := rfl
@[simp] theorem State.consumeSkip_period : (s.consumeSkip).period = s.period := rfl
@[simp] theorem State.consumeSkip_min1 : (s.consumeSkip).min1 = s.min1 := rfl
@[simp] theorem State.consumeSkip_max1 : (s.consumeSkip).max1 = s.max1 := rfl
@[simp] theorem State.consumeSkip_min5 : (s.consumeSkip).min5 = s.min5 := rfl
@[simp] theorem State.consumeSkip_max5 : (s.consumeSkip).max5 = s.max5 := rfl
@[simp] theorem State.consumeSkip_fAddr : (s.consumeSkip).fAddr = s.fAddr := rfl
@[simp] theorem State.consumeSkip_fGroup : (s.consumeSkip).fGroup = s.fGroup := rfl
@[simp] theorem State.consumeSkip_fSwitch : (s.consumeSkip).fSwitch = s.fSwitch := rfl
@[simp] theorem State.consumeSkip_fUnit : (s.consumeSkip).fUnit = s.fUnit := rfl
@[simp] theorem State.consumeSkip_fDim : (s.consumeSkip).fDim = s.fDim := rfl
@[simp] theorem State.consumeSkip_acc : (s.consumeSkip).acc = s.acc := rfl
@[simp] theorem State.consumeSkip_bAddr : (s.consumeSkip).bAddr = s.bAddr := rfl
@[simp] theorem State.consumeSkip_bGroup : (s.consumeSkip).bGroup = s.bGroup := rfl
@[simp] theorem State.consumeSkip_bSwitch : (s.consumeSkip).bSwitch = s.bSwitch := rfl
@[simp] theorem State.consumeSkip_bUnit : (s.consumeSkip).bUnit = s.bUnit := rfl
@[simp] theorem State.consumeSkip_bDim : (s.consumeSkip).bDim = s.bDim := rfl
@[simp] theorem State.consumeSkip_repeats : (s.consumeSkip).repeats = s.repeats := rfl
@[simp] theorem State.consumeSkip_minRepeats : (s.consumeSkip).minRepeats = s.minRepeats := rfl
@[simp] theorem State.consumeSkip_inCallback : (s.consumeSkip).inCallback = s.inCallback := rfl
@[simp] theorem State.consumeSkip_outFrame : (s.consumeSkip).outFrame = s.outFrame := rfl
@[simp] theorem State.consumeSkip_pending : (s.consumeSkip).pending = s.pending := rfl
@[simp] theorem State.consumeSkip_dispatches : (s.consumeSkip).dispatches = s.dispatches := rfl
@[simp] theorem State.consumeSkip_trace : (s.consumeSkip).trace = s.trace ++ [.skipped] := rfl

/-! ### rejectNoise -/

@[simp] theorem State.rejectNoise_state : (s.rejectNoise).state = s.state := rfl
@[simp] theorem State.rejectNoise_enabled : (s.rejectNoise).enabled = s.enabled := rfl
@[simp] theorem State.rejectNoise_skip : (s.rejectNoise).skip = true := rfl
@[simp] theorem State.rejectNoise_ts0 : (s.rejectNoise).ts0 = s.ts0 := rfl
@[simp] theorem State.rejectNoise_ts1 : (s.rejectNoise).ts1 = s.ts1 := rfl
@[simp] theorem State.rejectNoise_ts2 : (s.rejectNoise).ts2 = s.ts2 := rfl
@[simp] theorem State.rejectNoise_period : (s.rejectNoise).period = s.period := rfl
@[simp] theorem State.rejectNoise_min1 : (s.rejectNoise).min1 = s.min1 := rfl
@[simp] theorem State.rejectNoise_max1 : (s.rejectNoise).max1 = s.max1 := rfl
@[simp] theorem State.rejectNoise_min5 : (s.rejectNoise).min5 = s.min5 := rfl
@[simp] theorem State.rejectNoise_max5 : (s.rejectNoise).max5 = s.max5 := rfl
@[simp] theorem State.rejectNoise_fAddr : (s.rejectNoise).fAddr = s.fAddr := rfl
@[simp] theorem State.rejectNoise_fGroup : (s.rejectNoise).fGroup = s.fGroup := rfl
@[simp] theorem State.rejectNoise_fSwitch : (s.rejectNoise).fSwitch = s.fSwitch := rfl
@[simp] theorem State.rejectNoise_fUnit : (s.rejectNoise).fUnit = s.fUnit := rfl
@[simp] theorem State.rejectNoise_fDim : (s.rejectNoise).fDim = s.fDim := rfl
@[simp] theorem State.rejectNoise_acc : (s.rejectNoise).acc = s.acc := rfl
@[simp] theorem State.rejectNoise_bAddr : (s.rejectNoise).bAddr = s.bAddr := rfl
@[simp] theorem State.rejectNoise_bGroup : (s.rejectNoise).bGroup = s.bGroup := rfl
@[simp] theorem State.rejectNoise_bSwitch : (s.rejectNoise).bSwitch = s.bSwitch := rfl
@[simp] theorem State.rejectNoise_bUnit : (s.rejectNoise).bUnit = s.bUnit := rfl
@[simp] theorem State.rejectNoise_bDim : (s.rejectNoise).bDim = s.bDim := rfl
@[simp] theorem State.rejectNoise_repeats : (s.rejectNoise).repeats = s.repeats := rfl
@[simp] theorem State.rejectNoise_minRepeats : (s.rejectNoise).minRepeats = s.minRepeats := rfl
@[simp] theorem State.rejectNoise_inCallback : (s.rejectNoise).inCallback = s.inCallback := rfl
@[simp] theorem State.rejectNoise_outFrame : (s.rejectNoise).outFrame = s.outFrame := rfl
@[simp] theorem State.rejectNoise_pending : (s.rejectNoise).pending = s.pending := rfl
@[simp] theorem State.rejectNoise_dispatches : (s.rejectNoise).dispatches = s.dispatches := rfl
@[simp] theorem State.rejectNoise_trace : (s.rejectNoise).trace = s.trace ++ [.noise] := rfl

/-! ### calibrate -/

@[simp] theorem State.calibrate_state (d : Timestamp) : (s.calibrate d).state = 0 := rfl
@[simp] theorem State.calibrate_enabled (d : Timestamp) : (s.calibrate d).enabled = s.enabled := rfl
@[simp] theorem State.calibrate_skip (d : Timestamp) : (s.calibrate d).skip = s.skip := rfl
@[simp] theorem State.calibrate_ts0 (d : Timestamp) : (s.calibrate d).ts0 = s.ts0 := rfl
@[simp] theorem State.calibrate_ts1 (d : Timestamp) : (s.calibrate d).ts1 = s.ts1 := rfl
@[simp] theorem State.calibrate_ts2 (d : Timestamp) : (s.calibrate d).ts2 = s.ts2 := rfl
@[simp] theorem State.calibrate_period (d : Timestamp) : (s.calibrate d).period = BitVec.ofNat 32 (periodOf d) := rfl
@[simp] theorem State.calibrate_min1 (d : Timestamp) : (s.calibrate d).min1 = BitVec.ofNat 32 (min1Of (periodOf d)) := rfl
@[simp] theorem State.calibrate_max1 (d : Timestamp) : (s.calibrate d).max1 = BitVec.ofNat 32 (max1Of (periodOf d)) := rfl
@[simp] theorem State.calibrate_min5 (d : Timestamp) : (s.calibrate d).min5 = BitVec.ofNat 32 (min5Of (periodOf d)) := rfl
@[simp] theorem State.calibrate_max5 (d : Timestamp) : (s.calibrate d).max5 = BitVec.ofNat 32 (max5Of (periodOf d)) := rfl
@[simp] theorem State.calibrate_fAddr (d : Timestamp) : (s.calibrate d).fAddr = 0 := rfl
@[simp] theorem State.calibrate_fGroup (d : Timestamp) : (s.calibrate d).fGroup = s.fGroup := rfl
@[simp] theorem State.calibrate_fSwitch (d : Timestamp) : (s.calibrate d).fSwitch = s.fSwitch := rfl
@[simp] theorem State.calibrate_fUnit (d : Timestamp) : (s.calibrate d).fUnit = 0 := rfl
@[simp] theorem State.calibrate_fDim (d : Timestamp) : (s.calibrate d).fDim = 0 := rfl
@[simp] theorem State.calibrate_acc (d : Timestamp) : (s.calibrate d).acc = s.acc := rfl
@[simp] theorem State.calibrate_bAddr (d : Timestamp) : (s.calibrate d).bAddr = s.bAddr := rfl
@[simp] theorem State.calibrate_bGroup (d : Timestamp) : (s.calibrate d).bGroup = s.bGroup := rfl
@[simp] theorem State.calibrate_bSwitch (d : Timestamp) : (s.calibrate d).bSwitch = s.bSwitch := rfl
@[simp] theorem State.calibrate_bUnit (d : Timestamp) : (s.calibrate d).bUnit = s.bUnit := rfl
@[simp] theorem State.calibrate_bDim (d : Timestamp) : (s.calibrate d).bDim = s.bDim := rfl
@[simp] theorem State.calibrate_repeats (d : Timestamp) : (s.calibrate d).repeats = 0 := rfl
@[simp] theorem State.calibrate_minRepeats (d : Timestamp) : (s.calibrate d).minRepeats = s.minRepeats := rfl
@[simp] theorem State.calibrate_inCallback (d : Timestamp) : (s.calibrate d).inCallback = s.inCallback := rfl
@[simp] theorem State.calibrate_outFrame (d : Timestamp) : (s.calibrate d).outFrame = s.outFrame := rfl
@[simp] theorem State.calibrate_pending (d : Timestamp) : (s.calibrate d).pending = s.pending := rfl
@[simp] theorem State.calibrate_dispatches (d : Timestamp) : (s.calibrate d).dispatches = s.dispatches := rfl
@[simp] theorem State.calibrate_trace (d : Timestamp) : (s.calibrate d).trace = s.trace ++ [.sync] := rfl

/-! ### shiftAcc -/

@[simp] theorem State.shiftAcc_state (b : Bool) : (s.shiftAcc b).state = s.state := rfl
@[simp] theorem State.shiftAcc_enabled (b : Bool) : (s.shiftAcc b).enabled = s.enabled := rfl
@[simp] theorem State.shiftAcc_skip (b : Bool) : (s.shiftAcc b).skip = s.skip := rfl
@[simp] theorem State.shiftAcc_ts0 (b : Bool) : (s.shiftAcc b).ts0 = s.ts0 := rfl
@[simp] theorem State.shiftAcc_ts1 (b : Bool) : (s.shiftAcc b).ts1 = s.ts1 := rfl
@[simp] theorem State.shiftAcc_ts2 (b : Bool) : (s.shiftAcc b).ts2 = s.ts2 := rfl
@[simp] theorem State.shiftAcc_period (b : Bool) : (s.shiftAcc b).period = s.period := rfl
@[simp] theorem State.shiftAcc_min1 (b : Bool) : (s.shiftAcc b).min1 = s.min1 := rfl
@[simp] theorem State.shiftAcc_max1 (b : Bool) : (s.shiftAcc b).max1 = s.max1 := rfl
@[simp] theorem State.shiftAcc_min5 (b : Bool) : (s.shiftAcc b).min5 = s.min5 := rfl
@[simp] theorem State.shiftAcc_max5 (b : Bool) : (s.shiftAcc b).max5 = s.max5 := rfl
@[simp] theorem State.shiftAcc_fAddr (b : Bool) : (s.shiftAcc b).fAddr = s.fAddr := rfl
@[simp] theorem State.shiftAcc_fGroup (b : Bool) : (s.shiftAcc b).fGroup = s.fGroup := rfl
@[simp] theorem State.shiftAcc_fSwitch (b : Bool) : (s.shiftAcc b).fSwitch = s.fSwitch := rfl
@[simp] theorem State.shiftAcc_fUnit (b : Bool) : (s.shiftAcc b).fUnit = s.fUnit := rfl
@[simp] theorem State.shiftAcc_fDim (b : Bool) : (s.shiftAcc b).fDim = s.fDim := rfl
@[simp] theorem State.shiftAcc_acc (b : Bool) : (s.shiftAcc b).acc = shl s.acc b := rfl
@[simp] theorem State.shiftAcc_bAddr (b : Bool) : (s.shiftAcc b).bAddr = s.bAddr := rfl
@[simp] theorem State.shiftAcc_bGroup (b : Bool) : (s.shiftAcc b).bGroup = s.bGroup := rfl
@[simp] theorem State.shiftAcc_bSwitch (b : Bool) : (s.shiftAcc b).bSwitch = s.bSwitch := rfl
@[simp] theorem State.shiftAcc_bUnit (b : Bool) : (s.shiftAcc b).bUnit = s.bUnit := rfl
@[simp] theorem State.shiftAcc_bDim (b : Bool) : (s.shiftAcc b).bDim = s.bDim := rfl
@[simp] theorem State.shiftAcc_repeats (b : Bool) : (s.shiftAcc b).repeats = s.repeats := rfl
@[simp] theorem State.shiftAcc_minRepeats (b : Bool) : (s.shiftAcc b).minRepeats = s.minRepeats := rfl
@[simp] theorem State.shiftAcc_inCallback (b : Bool) : (s.shiftAcc b).inCallback = s.inCallback := rfl
@[simp] theorem State.shiftAcc_outFrame (b : Bool) : (s.shiftAcc b).outFrame = s.outFrame := rfl
@[simp] theorem State.shiftAcc_pending (b : Bool) : (s.shiftAcc b).pending = s.pending := rfl
@[simp] theorem State.shiftAcc_dispatches (b : Bool) : (s.shiftAcc b).dispatches = s.dispatches := rfl
@[simp] theorem State.shiftAcc_trace (b : Bool) : (s.shiftAcc b).trace = s.trace := rfl

/-! ### shiftAddr -/

@[simp] theorem State.shiftAddr_state (v : Bool) : (s.shiftAddr v).state = s.state := rfl
@[simp] theorem State.shiftAddr_enabled (v : Bool) : (s.shiftAddr v).enabled = s.enabled := rfl
@[simp] theorem State.shiftAddr_skip (v : Bool) : (s.shiftAddr v).skip = s.skip := rfl
@[simp] theorem State.shiftAddr_ts0 (v : Bool) : (s.shiftAddr v).ts0 = s.ts0 := rfl
@[simp] theorem State.shiftAddr_ts1 (v : Bool) : (s.shiftAddr v).ts1 = s.ts1 := rfl
@[simp] theorem State.shiftAddr_ts2 (v : Bool) : (s.shiftAddr v).ts2 = s.ts2 := rfl
@[simp] theorem State.shiftAddr_period (v : Bool) : (s.shiftAddr v).period = s.period := rfl
@[simp] theorem State.shiftAddr_min1 (v : Bool) : (s.shiftAddr v).min1 = s.min1 := rfl
@[simp] theorem State.shiftAddr_max1 (v : Bool) : (s.shiftAddr v).max1 = s.max1 := rfl
@[simp] theorem State.shiftAddr_min5 (v : Bool) : (s.shiftAddr v).min5 = s.min5 := rfl
@[simp] theorem State.shiftAddr_max5 (v : Bool) : (s.shiftAddr v).max5 = s.max5 := rfl
@[simp] theorem State.shiftAddr_fAddr (v : Bool) : (s.shiftAddr v).fAddr = shl s.fAddr v := rfl
@[simp] theorem State.shiftAddr_fGroup (v : Bool) : (s.shiftAddr v).fGroup = s.fGroup := rfl
@[simp] theorem State.shiftAddr_fSwitch (v : Bool) : (s.shiftAddr v).fSwitch = s.fSwitch := rfl
@[simp] theorem State.shiftAddr_fUnit (v : Bool) : (s.shiftAddr v).fUnit = s.fUnit := rfl
@[simp] theorem State.shiftAddr_fDim (v : Bool) : (s.shiftAddr v).fDim = s.fDim := rfl
@[simp] theorem State.shiftAddr_acc (v : Bool) : (s.shiftAddr v).acc = s.acc := rfl
@[simp] theorem State.shiftAddr_bAddr (v : Bool) : (s.shiftAddr v).bAddr = s.bAddr := rfl
@[simp] theorem State.shiftAddr_bGroup (v : Bool) : (s.shiftAddr v).bGroup = s.bGroup := rfl
@[simp] theorem State.shiftAddr_bSwitch (v : Bool) : (s.shiftAddr v).bSwitch = s.bSwitch := rfl
@[simp] theorem State.shiftAddr_bUnit (v : Bool) : (s.shiftAddr v).bUnit = s.bUnit := rfl
@[simp] theorem State.shiftAddr_bDim (v : Bool) : (s.shiftAddr v).bDim = s.bDim := rfl
@[simp] theorem State.shiftAddr_repeats (v : Bool) : (s.shiftAddr v).repeats = s.repeats := rfl
@[simp] theorem State.shiftAddr_minRepeats (v : Bool) : (s.shiftAddr v).minRepeats = s.minRepeats := rfl
@[simp] theorem State.shiftAddr_inCallback (v : Bool) : (s.shiftAddr v).inCallback = s.inCallback := rfl
@[simp] theorem State.shiftAddr_outFrame (v : Bool) : (s.shiftAddr v).outFrame = s.outFrame := rfl
@[simp] theorem State.shiftAddr_pending (v : Bool) : (s.shiftAddr v).pending = s.pending := rfl
@[simp] theorem State.shiftAddr_dispatches (v : Bool) : (s.shiftAddr v).dispatches = s.dispatches := rfl
@[simp] theorem State.shiftAddr_trace (v : Bool) : (s.shiftAddr v).trace = s.trace := rfl

/-! ### setGroup -/

@[simp] theorem State.setGroup_state (v : Bool) : (s.setGroup v).state = s.state := rfl
@[simp] theorem State.setGroup_enabled (v : Bool) : (s.setGroup v).enabled = s.enabled := rfl
@[simp] theorem State.setGroup_skip (v : Bool) : (s.setGroup v).skip = s.skip := rfl
@[simp] theorem State.setGroup_ts0 (v : Bool) : (s.setGroup v).ts0 = s.ts0 := rfl
@[simp] theorem State.setGroup_ts1 (v : Bool) : (s.setGroup v).ts1 = s.ts1 := rfl
@[simp] theorem State.setGroup_ts2 (v : Bool) : (s.setGroup v).ts2 = s.ts2 := rfl
@[simp] theorem State.setGroup_period (v : Bool) : (s.setGroup v).period = s.period := rfl
@[simp] theorem State.setGroup_min1 (v : Bool) : (s.setGroup v).min1 = s.min1 := rfl
@[simp] theorem State.setGroup_max1 (v : Bool) : (s.setGroup v).max1 = s.max1 := rfl
@[simp] theorem State.setGroup_min5 (v : Bool) : (s.setGroup v).min5 = s.min5 := rfl
@[simp] theorem State.setGroup_max5 (v : Bool) : (s.setGroup v).max5 = s.max5 := rfl
@[simp] theorem State.setGroup_fAddr (v : Bool) : (s.setGroup v).fAddr = s.fAddr := rfl
@[simp] theorem State.setGroup_fGroup (v : Bool) : (s.setGroup v).fGroup = BitVec.ofBool v := rfl
@[simp] theorem State.setGroup_fSwitch (v : Bool) : (s.setGroup v).fSwitch = s.fSwitch := rfl
@[simp] theorem State.setGroup_fUnit (v : Bool) : (s.setGroup v).fUnit = s.fUnit := rfl
@[simp] theorem State.setGroup_fDim (v : Bool) : (s.setGroup v).fDim = s.fDim := rfl
@[simp] theorem State.setGroup_acc (v : Bool) : (s.setGroup v).acc = s.acc := rfl
@[simp] theorem State.setGroup_bAddr (v : Bool) : (s.setGroup v).bAddr = s.bAddr := rfl
@[simp] theorem State.setGroup_bGroup (v : Bool) : (s.setGroup v).bGroup = s.bGroup := rfl
@[simp] theorem State.setGroup_bSwitch (v : Bool) : (s.setGroup v).bSwitch = s.bSwitch := rfl
@[simp] theorem State.setGroup_bUnit (v : Bool) : (s.setGroup v).bUnit = s.bUnit := rfl
@[simp] theorem State.setGroup_bDim (v : Bool) : (s.setGroup v).bDim = s.bDim := rfl
@[simp] theorem State.setGroup_repeats (v : Bool) : (s.setGroup v).repeats = s.repeats := rfl
@[simp] theorem State.setGroup_minRepeats (v : Bool) : (s.setGroup v).minRepeats = s.minRepeats := rfl
@[simp] theorem State.setGroup_inCallback (v : Bool) : (s.setGroup v).inCallback = s.inCallback := rfl
@[simp] theorem State.setGroup_outFrame (v : Bool) : (s.setGroup v).outFrame = s.outFrame := rfl
@[simp] theorem State.setGroup_pending (v : Bool) : (s.setGroup v).pending = s.pending := rfl
@[simp] theorem State.setGroup_dispatches (v : Bool) : (s.setGroup v).dispatches = s.dispatches := rfl
@[simp] theorem State.setGroup_trace (v : Bool) : (s.setGroup v).trace = s.trace := rfl

/-! ### setSwitch -/

@[simp] theorem State.setSwitch_state (sym : Symbol) : (s.setSwitch sym).state = s.state := rfl
@[simp] theorem State.setSwitch_enabled (sym : Symbol) : (s.setSwitch sym).enabled = s.enabled := rfl
@[simp] theorem State.setSwitch_skip (sym : Symbol) : (s.setSwitch sym).skip = s.skip := rfl
@[simp] theorem State.setSwitch_ts0 (sym : Symbol) : (s.setSwitch sym).ts0 = s.ts0 := rfl
@[simp] theorem State.setSwitch_ts1 (sym : Symbol) : (s.setSwitch sym).ts1 = s.ts1 := rfl
@[simp] theorem State.setSwitch_ts2 (sym : Symbol) : (s.setSwitch sym).ts2 = s.ts2 := rfl
@[simp] theorem State.setSwitch_period (sym : Symbol) : (s.setSwitch sym).period = s.period := rfl
@[simp] theorem State.setSwitch_min1 (sym : Symbol) : (s.setSwitch sym).min1 = s.min1 := rfl
@[simp] theorem State.setSwitch_max1 (sym : Symbol) : (s.setSwitch sym).max1 = s.max1 := rfl
@[simp] theorem State.setSwitch_min5 (sym : Symbol) : (s.setSwitch sym).min5 = s.min5 := rfl
@[simp] theorem State.setSwitch_max5 (sym : Symbol) : (s.setSwitch sym).max5 = s.max5 := rfl
@[simp] theorem State.setSwitch_fAddr (sym : Symbol) : (s.setSwitch sym).fAddr = s.fAddr := rfl
@[simp] theorem State.setSwitch_fGroup (sym : Symbol) : (s.setSwitch sym).fGroup = s.fGroup := rfl
@[simp] theorem State.setSwitch_fSwitch (sym : Symbol) : (s.setSwitch sym).fSwitch = switchOf sym := rfl
@[simp] theorem State.setSwitch_fUnit (sym : Symbol) : (s.setSwitch sym).fUnit = s.fUnit := rfl
@[simp] theorem State.setSwitch_fDim (sym : Symbol) : (s.setSwitch sym).fDim = s.fDim := rfl
@[simp] theorem State.setSwitch_acc (sym : Symbol) : (s.setSwitch sym).acc = s.acc := rfl
@[simp] theorem State.setSwitch_bAddr (sym : Symbol) : (s.setSwitch sym).bAddr = s.bAddr := rfl
@[simp] theorem State.setSwitch_bGroup (sym : Symbol) : (s.setSwitch sym).bGroup = s.bGroup := rfl
@[simp] theorem State.setSwitch_bSwitch (sym : Symbol) : (s.setSwitch sym).bSwitch = s.bSwitch := rfl
@[simp] theorem State.setSwitch_bUnit (sym : Symbol) : (s.setSwitch sym).bUnit = s.bUnit := rfl
@[simp] theorem State.setSwitch_bDim (sym : Symbol) : (s.setSwitch sym).bDim = s.bDim := rfl
@[simp] theorem State.setSwitch_repeats (sym : Symbol) : (s.setSwitch sym).repeats = s.repeats := rfl
@[simp] theorem State.setSwitch_minRepeats (sym : Symbol) : (s.setSwitch sym).minRepeats = s.minRepeats := rfl
@[simp] theorem State.setSwitch_inCallback (sym : Symbol) : (s.setSwitch sym).inCallback = s.inCallback := rfl
@[simp] theorem State.setSwitch_outFrame (sym : Symbol) : (s.setSwitch sym).outFrame = s.outFrame := rfl
@[simp] theorem State.setSwitch_pending (sym : Symbol) : (s.setSwitch sym).pending = s.pending := rfl
@[simp] theorem State.setSwitch_dispatches (sym : Symbol) : (s.setSwitch sym).dispatches = s.dispatches := rfl
@[simp] theorem State.setSwitch_trace (sym : Symbol) : (s.setSwitch sym).trace = s.trace := rfl

/-! ### shiftUnit -/

@[simp] theorem State.shiftUnit_state (v : Bool) : (s.shiftUnit v).state = s.state := rfl
@[simp] theorem State.shiftUnit_enabled (v : Bool) : (s.shiftUnit v).enabled = s.enabled := rfl
@[simp] theorem State.shiftUnit_skip (v : Bool) : (s.shiftUnit v).skip = s.skip := rfl
@[simp] theorem State.shiftUnit_ts0 (v : Bool) : (s.shiftUnit v).ts0 = s.ts0 := rfl
@[simp] theorem State.shiftUnit_ts1 (v : Bool) : (s.shiftUnit v).ts1 = s.ts1 := rfl
@[simp] theorem State.shiftUnit_ts2 (v : Bool) : (s.shiftUnit v).ts2 = s.ts2 := rfl
@[simp] theorem State.shiftUnit_period (v : Bool) : (s.shiftUnit v).period = s.period := rfl
@[simp] theorem State.shiftUnit_min1 (v : Bool) : (s.shiftUnit v).min1 = s.min1 := rfl
@[simp] theorem State.shiftUnit_max1 (v : Bool) : (s.shiftUnit v).max1 = s.max1 := rfl
@[simp] theorem State.shiftUnit_min5 (v : Bool) : (s.shiftUnit v).min5 = s.min5 := rfl
@[simp] theorem State.shiftUnit_max5 (v : Bool) : (s.shiftUnit v).max5 = s.max5 := rfl
@[simp] theorem State.shiftUnit_fAddr (v : Bool) : (s.shiftUnit v).fAddr = s.fAddr := rfl
@[simp] theorem State.shiftUnit_fGroup (v : Bool) : (s.shiftUnit v).fGroup = s.fGroup := rfl
@[simp] theorem State.shiftUnit_fSwitch (v : Bool) : (s.shiftUnit v).fSwitch = s.fSwitch := rfl
@[simp] theorem State.shiftUnit_fUnit (v : Bool) : (s.shiftUnit v).fUnit = shl s.fUnit v := rfl
@[simp] theorem State.shiftUnit_fDim (v : Bool) : (s.shiftUnit v).fDim = s.fDim := rfl
@[simp] theorem State.shiftUnit_acc (v : Bool) : (s.shiftUnit v).acc = s.acc := rfl
@[simp] theorem State.shiftUnit_bAddr (v : Bool) : (s.shiftUnit v).bAddr = s.bAddr := rfl
@[simp] theorem State.shiftUnit_bGroup (v : Bool) : (s.shiftUnit v).bGroup = s.bGroup := rfl
@[simp] theorem State.shiftUnit_bSwitch (v : Bool) : (s.shiftUnit v).bSwitch = s.bSwitch := rfl
@[simp] theorem State.shiftUnit_bUnit (v : Bool) : (s.shiftUnit v).bUnit = s.bUnit := rfl
@[simp] theorem State.shiftUnit_bDim (v : Bool) : (s.shiftUnit v).bDim = s.bDim := rfl
@[simp] theorem State.shiftUnit_repeats (v : Bool) : (s.shiftUnit v).repeats = s.repeats := rfl
@[simp] theorem State.shiftUnit_minRepeats (v : Bool) : (s.shiftUnit v).minRepeats = s.minRepeats := rfl
@[simp] theorem State.shiftUnit_inCallback (v : Bool) : (s.shiftUnit v).inCallback = s.inCallback := rfl
@[simp] theorem State.shiftUnit_outFrame (v : Bool) : (s.shiftUnit v).outFrame = s.outFrame := rfl
@[simp] theorem State.shiftUnit_pending (v : Bool) : (s.shiftUnit v).pending = s.pending := rfl
@[simp] theorem State.shiftUnit_dispatches (v : Bool) : (s.shiftUnit v).dispatches = s.dispatches := rfl
@[simp] theorem State.shiftUnit_trace (v : Bool) : (s.shiftUnit v).trace = s.trace := rfl

/-! ### shiftDim -/

@[simp] theorem State.shiftDim_state (v : Bool) : (s.shiftDim v).state = s.state := rfl
@[simp] theorem State.shiftDim_enabled (v : Bool) : (s.shiftDim v).enabled = s.enabled := rfl
@[simp] theorem State.shiftDim_skip (v : Bool) : (s.shiftDim v).skip = s.skip := rfl
@[simp] theorem State.shiftDim_ts0 (v : Bool) : (s.shiftDim v).ts0 = s.ts0 := rfl
@[simp] theorem State.shiftDim_ts1 (v : Bool) : (s.shiftDim v).ts1 = s.ts1 := rfl
@[simp] theorem State.shiftDim_ts2 (v : Bool) : (s.shiftDim v).ts2 = s.ts2 := rfl
@[simp] theorem State.shiftDim_period (v : Bool) : (s.shiftDim v).period = s.period := rfl
@[simp] theorem State.shiftDim_min1 (v : Bool) : (s.shiftDim v).min1 = s.min1 := rfl
@[simp] theorem State.shiftDim_max1 (v : Bool) : (s.shiftDim v).max1 = s.max1 := rfl
@[simp] theorem State.shiftDim_min5 (v : Bool) : (s.shiftDim v).min5 = s.min5 := rfl
@[simp] theorem State.shiftDim_max5 (v : Bool) : (s.shiftDim v).max5 = s.max5 := rfl
@[simp] theorem State.shiftDim_fAddr (v : Bool) : (s.shiftDim v).fAddr = s.fAddr := rfl
@[simp] theorem State.shiftDim_fGroup (v : Bool) : (s.shiftDim v).fGroup = s.fGroup := rfl
@[simp] theorem State.shiftDim_fSwitch (v : Bool) : (s.shiftDim v).fSwitch = s.fSwitch := rfl
@[simp] theorem State.shiftDim_fUnit (v : Bool) : (s.shiftDim v).fUnit = s.fUnit := rfl
@[simp] theorem State.shiftDim_fDim (v : Bool) : (s.shiftDim v).fDim = shl s.fDim v := rfl
@[simp] theorem State.shiftDim_acc (v : Bool) : (s.shiftDim v).acc = s.acc := rfl
@[simp] theorem State.shiftDim_bAddr (v : Bool) : (s.shiftDim v).bAddr = s.bAddr := rfl
@[simp] theorem State.shiftDim_bGroup (v : Bool) : (s.shiftDim v).bGroup = s.bGroup := rfl
@[simp] theorem State.shiftDim_bSwitch (v : Bool) : (s.shiftDim v).bSwitch = s.bSwitch := rfl
@[simp] theorem State.shiftDim_bUnit (v : Bool) : (s.shiftDim v).bUnit = s.bUnit := rfl
@[simp] theorem State.shiftDim_bDim (v : Bool) : (s.shiftDim v).bDim = s.bDim := rfl
@[simp] theorem State.shiftDim_repeats (v : Bool) : (s.shiftDim v).repeats = s.repeats := rfl
@[simp] theorem State.shiftDim_minRepeats (v : Bool) : (s.shiftDim v).minRepeats = s.minRepeats := rfl
@[simp] theorem State.shiftDim_inCallback (v : Bool) : (s.shiftDim v).inCallback = s.inCallback := rfl
@[simp] theorem State.shiftDim_outFrame (v : Bool) : (s.shiftDim v).outFrame = s.outFrame := rfl
@[simp] theorem State.shiftDim_pending (v : Bool) : (s.shiftDim v).pending = s.pending := rfl
@[simp] theorem State.shiftDim_dispatches (v : Bool) : (s.shiftDim v).dispatches = s.dispatches := rfl
@[simp] theorem State.shiftDim_trace (v : Bool) : (s.shiftDim v).trace = s.trace := rfl

/-! ### countFrame -/

@[simp] theorem State.countFrame_state : (s.countFrame).state = s.state := rfl
@[simp] theorem State.countFrame_enabled : (s.countFrame).enabled = s.enabled := rfl
@[simp] theorem State.countFrame_skip : (s.countFrame).skip = s.skip := rfl
@[simp] theorem State.countFrame_ts0 : (s.countFrame).ts0 = s.ts0 := rfl
@[simp] theorem State.countFrame_ts1 : (s.countFrame).ts1 = s.ts1 := rfl
@[simp] theorem State.countFrame_ts2 : (s.countFrame).ts2 = s.ts2 := rfl
@[simp] theorem State.countFrame_period : (s.countFrame).period = s.period := rfl
@[simp] theorem State.countFrame_min1 : (s.countFrame).min1 = s.min1 := rfl
@[simp] theorem State.countFrame_max1 : (s.countFrame).max1 = s.max1 := rfl
@[simp] theorem State.countFrame_min5 : (s.countFrame).min5 = s.min5 := rfl
@[simp] theorem State.countFrame_max5 : (s.countFrame).max5 = s.max5 := rfl
@[simp] theorem State.countFrame_fAddr : (s.countFrame).fAddr = s.fAddr := rfl
@[simp] theorem State.countFrame_fGroup : (s.countFrame).fGroup = s.fGroup := rfl
@[simp] theorem State.countFrame_fSwitch : (s.countFrame).fSwitch = s.fSwitch := rfl
@[simp] theorem State.countFrame_fUnit : (s.countFrame).fUnit = s.fUnit := rfl
@[simp] theorem State.countFrame_fDim : (s.countFrame).fDim = s.fDim := rfl
@[simp] theorem State.countFrame_acc : (s.countFrame).acc = s.acc := rfl
@[simp] theorem State.countFrame_bAddr : (s.countFrame).bAddr = s.bAddr := rfl
@[simp] theorem State.countFrame_bGroup : (s.countFrame).bGroup = s.bGroup := rfl
@[simp] theorem State.countFrame_bSwitch : (s.countFrame).bSwitch = s.bSwitch := rfl
@[simp] theorem State.countFrame_bUnit : (s.countFrame).bUnit = s.bUnit := rfl
@[simp] theorem State.countFrame_bDim : (s.countFrame).bDim = s.bDim := rfl
@[simp] theorem State.countFrame_repeats : (s.countFrame).repeats = s.repeats + 1 := rfl
@[simp] theorem State.countFrame_minRepeats : (s.countFrame).minRepeats = s.minRepeats := rfl
@[simp] theorem State.countFrame_inCallback : (s.countFrame).inCallback = s.inCallback := rfl
@[simp] theorem State.countFrame_outFrame : (s.countFrame).outFrame = s.outFrame := rfl
@[simp] theorem State.countFrame_pending : (s.countFrame).pending = s.pending := rfl
@[simp] theorem State.countFrame_dispatches : (s.countFrame).dispatches = s.dispatches := rfl
@[simp] theorem State.countFrame_trace : (s.countFrame).trace = s.trace := rfl

/-! ### awaitRepeat -/

@[simp] theorem State.awaitRepeat_state : (s.awaitRepeat).state = 0 := rfl
@[simp] theorem State.awaitRepeat_enabled : (s.awaitRepeat).enabled = s.enabled := rfl
@[simp] theorem State.awaitRepeat_skip : (s.awaitRepeat).skip = s.skip := rfl
@[simp] theorem State.awaitRepeat_ts0 : (s.awaitRepeat).ts0 = s.ts0 := rfl
@[simp] theorem State.awaitRepeat_ts1 : (s.awaitRepeat).ts1 = s.ts1 := rfl
@[simp] theorem State.awaitRepeat_ts2 : (s.awaitRepeat).ts2 = s.ts2 := rfl
@[simp] theorem State.awaitRepeat_period : (s.awaitRepeat).period = s.period := rfl
@[simp] theorem State.awaitRepeat_min1 : (s.awaitRepeat).min1 = s.min1 := rfl
@[simp] theorem State.awaitRepeat_max1 : (s.awaitRepeat).max1 = s.max1 := rfl
@[simp] theorem State.awaitRepeat_min5 : (s.awaitRepeat).min5 = s.min5 := rfl
@[simp] theorem State.awaitRepeat_max5 : (s.awaitRepeat).max5 = s.max5 := rfl
@[simp] theorem State.awaitRepeat_fAddr : (s.awaitRepeat).fAddr = s.fAddr := rfl
@[simp] theorem State.awaitRepeat_fGroup : (s.awaitRepeat).fGroup = s.fGroup := rfl
@[simp] theorem State.awaitRepeat_fSwitch : (s.awaitRepeat).fSwitch = s.fSwitch := rfl
@[simp] theorem State.awaitRepeat_fUnit : (s.awaitRepeat).fUnit = s.fUnit := rfl
@[simp] theorem State.awaitRepeat_fDim : (s.awaitRepeat).fDim = s.fDim := rfl
@[simp] theorem State.awaitRepeat_acc : (s.awaitRepeat).acc = s.acc := rfl
@[simp] theorem State.awaitRepeat_bAddr : (s.awaitRepeat).bAddr = s.bAddr := rfl
@[simp] theorem State.awaitRepeat_bGroup : (s.awaitRepeat).bGroup = s.bGroup := rfl
@[simp] theorem State.awaitRepeat_bSwitch : (s.awaitRepeat).bSwitch = s.bSwitch := rfl
@[simp] theorem State.awaitRepeat_bUnit : (s.awaitRepeat).bUnit = s.bUnit := rfl
@[simp] theorem State.awaitRepeat_bDim : (s.awaitRepeat).bDim = s.bDim := rfl
@[simp] theorem State.awaitRepeat_repeats : (s.awaitRepeat).repeats = s.repeats := rfl
@[simp] theorem State.awaitRepeat_minRepeats : (s.awaitRepeat).minRepeats = s.minRepeats := rfl
@[simp] theorem State.awaitRepeat_inCallback : (s.awaitRepeat).inCallback = s.inCallback := rfl
@[simp] theorem State.awaitRepeat_outFrame : (s.awaitRepeat).outFrame = s.outFrame := rfl
@[simp] theorem State.awaitRepeat_pending : (s.awaitRepeat).pending = s.pending := rfl
@[simp] theorem State.awaitRepeat_dispatches : (s.awaitRepeat).dispatches = s.dispatches := rfl
@[simp] theorem State.awaitRepeat_trace : (s.awaitRepeat).trace = s.trace ++ [.frameRepeat] := rfl

/-! ### dispatchEntry -/

@[simp] theorem State.dispatchEntry_state : (s.dispatchEntry).state = 0x1FF := rfl
@[simp] theorem State.dispatchEntry_enabled : (s.dispatchEntry).enabled = s.enabled := rfl
@[simp] theorem State.dispatchEntry_skip : (s.dispatchEntry).skip = s.skip := rfl
@[simp] theorem State.dispatchEntry_ts0 : (s.dispatchEntry).ts0 = s.ts0 := rfl
@[simp] theorem State.dispatchEntry_ts1 : (s.dispatchEntry).ts1 = s.ts1 := rfl
@[simp] theorem State.dispatchEntry_ts2 : (s.dispatchEntry).ts2 = s.ts2 := rfl
@[simp] theorem State.dispatchEntry_period : (s.dispatchEntry).period = s.period := rfl
@[simp] theorem State.dispatchEntry_min1 : (s.dispatchEntry).min1 = s.min1 := rfl
@[simp] theorem State.dispatchEntry_max1 : (s.dispatchEntry).max1 = s.max1 := rfl
@[simp] theorem State.dispatchEntry_min5 : (s.dispatchEntry).min5 = s.min5 := rfl
@[simp] theorem State.dispatchEntry_max5 : (s.dispatchEntry).max5 = s.max5 := rfl
@[simp] theorem State.dispatchEntry_fAddr : (s.dispatchEntry).fAddr = s.fAddr := rfl
@[simp] theorem State.dispatchEntry_fGroup : (s.dispatchEntry).fGroup = s.fGroup := rfl
@[simp] theorem State.dispatchEntry_fSwitch : (s.dispatchEntry).fSwitch = s.fSwitch := rfl
@[simp] theorem State.dispatchEntry_fUnit : (s.dispatchEntry).fUnit = s.fUnit := rfl
@[simp] theorem State.dispatchEntry_fDim : (s.dispatchEntry).fDim = s.fDim := rfl
@[simp] theorem State.dispatchEntry_acc : (s.dispatchEntry).acc = s.acc := rfl
@[simp] theorem State.dispatchEntry_bAddr : (s.dispatchEntry).bAddr = s.bAddr := rfl
@[simp] theorem State.dispatchEntry_bGroup : (s.dispatchEntry).bGroup = s.bGroup := rfl
@[simp] theorem State.dispatchEntry_bSwitch : (s.dispatchEntry).bSwitch = s.bSwitch := rfl
@[simp] theorem State.dispatchEntry_bUnit : (s.dispatchEntry).bUnit = s.bUnit := rfl
@[simp] theorem State.dispatchEntry_bDim : (s.dispatchEntry).bDim = s.bDim := rfl
@[simp] theorem State.dispatchEntry_repeats : (s.dispatchEntry).repeats = s.repeats := rfl
@[simp] theorem State.dispatchEntry_minRepeats : (s.dispatchEntry).minRepeats = s.minRepeats := rfl
@[simp] theorem State.dispatchEntry_inCallback : (s.dispatchEntry).inCallback = true := rfl
@[simp] theorem State.dispatchEntry_outFrame : (s.dispatchEntry).outFrame = s.frameWord := rfl
@[simp] theorem State.dispatchEntry_pending : (s.dispatchEntry).pending = s.pending := rfl
@[simp] theorem State.dispatchEntry_dispatches : (s.dispatchEntry).dispatches = s.dispatches ++ [s.frameWord] := rfl
@[simp] theorem State.dispatchEntry_trace : (s.dispatchEntry).trace = s.trace ++ [.dispatch] := rfl

/-! ### dispatchReturn -/

@[simp] theorem State.dispatchReturn_state : (s.dispatchReturn).state = s.state := rfl
@[simp] theorem State.dispatchReturn_enabled : (s.dispatchReturn).enabled = s.enabled := rfl
@[simp] theorem State.dispatchReturn_skip : (s.dispatchReturn).skip = s.skip := rfl
@[simp] theorem State.dispatchReturn_ts0 : (s.dispatchReturn).ts0 = s.ts0 := rfl
@[simp] theorem State.dispatchReturn_ts1 : (s.dispatchReturn).ts1 = s.ts1 := rfl
@[simp] theorem State.dispatchReturn_ts2 : (s.dispatchReturn).ts2 = s.ts2 := rfl
@[simp] theorem State.dispatchReturn_period : (s.dispatchReturn).period = s.period := rfl
@[simp] theorem State.dispatchReturn_min1 : (s.dispatchReturn).min1 = s.min1 := rfl
@[simp] theorem State.dispatchReturn_max1 : (s.dispatchReturn).max1 = s.max1 := rfl
@[simp] theorem State.dispatchReturn_min5 : (s.dispatchReturn).min5 = s.min5 := rfl
@[simp] theorem State.dispatchReturn_max5 : (s.dispatchReturn).max5 = s.max5 := rfl
@[simp] theorem State.dispatchReturn_fAddr : (s.dispatchReturn).fAddr = s.fAddr := rfl
@[simp] theorem State.dispatchReturn_fGroup : (s.dispatchReturn).fGroup = s.fGroup := rfl
@[simp] theorem State.dispatchReturn_fSwitch : (s.dispatchReturn).fSwitch = s.fSwitch := rfl
@[simp] theorem State.dispatchReturn_fUnit : (s.dispatchReturn).fUnit = s.fUnit := rfl
@[simp] theorem State.dispatchReturn_fDim : (s.dispatchReturn).fDim = s.fDim := rfl
@[simp] theorem State.dispatchReturn_acc : (s.dispatchReturn).acc = s.acc := rfl
@[simp] theorem State.dispatchReturn_bAddr : (s.dispatchReturn).bAddr = s.bAddr := rfl
@[simp] theorem State.dispatchReturn_bGroup : (s.dispatchReturn).bGroup = s.bGroup := rfl
@[simp] theorem State.dispatchReturn_bSwitch : (s.dispatchReturn).bSwitch = s.bSwitch := rfl
@[simp] theorem State.dispatchReturn_bUnit : (s.dispatchReturn).bUnit = s.bUnit := rfl
@[simp] theorem State.dispatchReturn_bDim : (s.dispatchReturn).bDim = s.bDim := rfl
@[simp] theorem State.dispatchReturn_repeats : (s.dispatchReturn).repeats = s.repeats := rfl
@[simp] theorem State.dispatchReturn_minRepeats : (s.dispatchReturn).minRepeats = s.minRepeats := rfl
@[simp] theorem State.dispatchReturn_inCallback : (s.dispatchReturn).inCallback = false := rfl
@[simp] theorem State.dispatchReturn_outFrame : (s.dispatchReturn).outFrame = s.outFrame := rfl
@[simp] theorem State.dispatchReturn_pending : (s.dispatchReturn).pending = s.pending := rfl
@[simp] theorem State.dispatchReturn_dispatches : (s.dispatchReturn).dispatches = s.dispatches := rfl
@[simp] theorem State.dispatchReturn_trace : (s.dispatchReturn).trace = s.trace := rfl

/-! ### suppressDispatch -/

@[simp] theorem State.suppressDispatch_state : (s.suppressDispatch).state = 0x1FF := rfl
@[simp] theorem State.suppressDispatch_enabled : (s.suppressDispatch).enabled = s.enabled := rfl
@[simp] theorem State.suppressDispatch_skip : (s.suppressDispatch).skip = s.skip := rfl
@[simp] theorem State.suppressDispatch_ts0 : (s.suppressDispatch).ts0 = s.ts0 := rfl
@[simp] theorem State.suppressDispatch_ts1 : (s.suppressDispatch).ts1 = s.ts1 := rfl
@[simp] theorem State.suppressDispatch_ts2 : (s.suppressDispatch).ts2 = s.ts2 := rfl
@[simp] theorem State.suppressDispatch_period : (s.suppressDispatch).period = s.period := rfl
@[simp] theorem State.suppressDispatch_min1 : (s.suppressDispatch).min1 = s.min1 := rfl
@[simp] theorem State.suppressDispatch_max1 : (s.suppressDispatch).max1 = s.max1 := rfl
@[simp] theorem State.suppressDispatch_min5 : (s.suppressDispatch).min5 = s.min5 := rfl
@[simp] theorem State.suppressDispatch_max5 : (s.suppressDispatch).max5 = s.max5 := rfl
@[simp] theorem State.suppressDispatch_fAddr : (s.suppressDispatch).fAddr = s.fAddr := rfl
@[simp] theorem State.suppressDispatch_fGroup : (s.suppressDispatch).fGroup = s.fGroup := rfl
@[simp] theorem State.suppressDispatch_fSwitch : (s.suppressDispatch).fSwitch = s.fSwitch := rfl
@[simp] theorem State.suppressDispatch_fUnit : (s.suppressDispatch).fUnit = s.fUnit := rfl
@[simp] theorem State.suppressDispatch_fDim : (s.suppressDispatch).fDim = s.fDim := rfl
@[simp] theorem State.suppressDispatch_acc : (s.suppressDispatch).acc = s.acc := rfl
@[simp] theorem State.suppressDispatch_bAddr : (s.suppressDispatch).bAddr = s.bAddr := rfl
@[simp] theorem State.suppressDispatch_bGroup : (s.suppressDispatch).bGroup = s.bGroup := rfl
@[simp] theorem State.suppressDispatch_bSwitch : (s.suppressDispatch).bSwitch = s.bSwitch := rfl
@[simp] theorem State.suppressDispatch_bUnit : (s.suppressDispatch).bUnit = s.bUnit := rfl
@[simp] theorem State.suppressDispatch_bDim : (s.suppressDispatch).bDim = s.bDim := rfl
@[simp] theorem State.suppressDispatch_repeats : (s.suppressDispatch).repeats = s.repeats := rfl
@[simp] theorem State.suppressDispatch_minRepeats : (s.suppressDispatch).minRepeats = s.minRepeats := rfl
@[simp] theorem State.suppressDispatch_inCallback : (s.suppressDispatch).inCallback = s.inCallback := rfl
@[simp] theorem State.suppressDispatch_outFrame : (s.suppressDispatch).outFrame = s.outFrame := rfl
@[simp] theorem State.suppressDispatch_pending : (s.suppressDispatch).pending = s.pending := rfl
@[simp] theorem State.suppressDispatch_dispatches : (s.suppressDispatch).dispatches = s.dispatches := rfl
@[simp] theorem State.suppressDispatch_trace : (s.suppressDispatch).trace = s.trace ++ [.suppressed] := rfl

/-! ### offerCommand -/

@[simp] theorem State.offerCommand_state (a : Agent) (w : CmdWord) : (s.offerCommand a w).state = s.state := rfl
@[simp] theorem State.offerCommand_enabled (a : Agent) (w : CmdWord) : (s.offerCommand a w).enabled = s.enabled := rfl
@[simp] theorem State.offerCommand_skip (a : Agent) (w : CmdWord) : (s.offerCommand a w).skip = s.skip := rfl
@[simp] theorem State.offerCommand_ts0 (a : Agent) (w : CmdWord) : (s.offerCommand a w).ts0 = s.ts0 := rfl
@[simp] theorem State.offerCommand_ts1 (a : Agent) (w : CmdWord) : (s.offerCommand a w).ts1 = s.ts1 := rfl
@[simp] theorem State.offerCommand_ts2 (a : Agent) (w : CmdWord) : (s.offerCommand a w).ts2 = s.ts2 := rfl
@[simp] theorem State.offerCommand_period (a : Agent) (w : CmdWord) : (s.offerCommand a w).period = s.period := rfl
@[simp] theorem State.offerCommand_min1 (a : Agent) (w : CmdWord) : (s.offerCommand a w).min1 = s.min1 := rfl
@[simp] theorem State.offerCommand_max1 (a : Agent) (w : CmdWord) : (s.offerCommand a w).max1 = s.max1 := rfl
@[simp] theorem State.offerCommand_min5 (a : Agent) (w : CmdWord) : (s.offerCommand a w).min5 = s.min5 := rfl
@[simp] theorem State.offerCommand_max5 (a : Agent) (w : CmdWord) : (s.offerCommand a w).max5 = s.max5 := rfl
@[simp] theorem State.offerCommand_fAddr (a : Agent) (w : CmdWord) : (s.offerCommand a w).fAddr = s.fAddr := rfl
@[simp] theorem State.offerCommand_fGroup (a : Agent) (w : CmdWord) : (s.offerCommand a w).fGroup = s.fGroup := rfl
@[simp] theorem State.offerCommand_fSwitch (a : Agent) (w : CmdWord) : (s.offerCommand a w).fSwitch = s.fSwitch := rfl
@[simp] theorem State.offerCommand_fUnit (a : Agent) (w : CmdWord) : (s.offerCommand a w).fUnit = s.fUnit := rfl
@[simp] theorem State.offerCommand_fDim (a : Agent) (w : CmdWord) : (s.offerCommand a w).fDim = s.fDim := rfl
@[simp] theorem State.offerCommand_acc (a : Agent) (w : CmdWord) : (s.offerCommand a w).acc = s.acc := rfl
@[simp] theorem State.offerCommand_bAddr (a : Agent) (w : CmdWord) : (s.offerCommand a w).bAddr = s.bAddr := rfl
@[simp] theorem State.offerCommand_bGroup (a : Agent) (w : CmdWord) : (s.offerCommand a w).bGroup = s.bGroup := rfl
@[simp] theorem State.offerCommand_bSwitch (a : Agent) (w : CmdWord) : (s.offerCommand a w).bSwitch = s.bSwitch := rfl
@[simp] theorem State.offerCommand_bUnit (a : Agent) (w : CmdWord) : (s.offerCommand a w).bUnit = s.bUnit := rfl
@[simp] theorem State.offerCommand_bDim (a : Agent) (w : CmdWord) : (s.offerCommand a w).bDim = s.bDim := rfl
@[simp] theorem State.offerCommand_repeats (a : Agent) (w : CmdWord) : (s.offerCommand a w).repeats = s.repeats := rfl
@[simp] theorem State.offerCommand_minRepeats (a : Agent) (w : CmdWord) : (s.offerCommand a w).minRepeats = s.minRepeats := rfl
@[simp] theorem State.offerCommand_inCallback (a : Agent) (w : CmdWord) : (s.offerCommand a w).inCallback = s.inCallback := rfl
@[simp] theorem State.offerCommand_outFrame (a : Agent) (w : CmdWord) : (s.offerCommand a w).outFrame = s.outFrame := rfl
@[simp] theorem State.offerCommand_pending (a : Agent) (w : CmdWord) : (s.offerCommand a w).pending = ⟨a, w⟩ :: s.pending := rfl
@[simp] theorem State.offerCommand_dispatches (a : Agent) (w : CmdWord) : (s.offerCommand a w).dispatches = s.dispatches := rfl
@[simp] theorem State.offerCommand_trace (a : Agent) (w : CmdWord) : (s.offerCommand a w).trace = s.trace := rfl

/-! ### compareBaseline -/

@[simp] theorem State.compareBaseline_state : s.compareBaseline.state = s.state := by
  unfold State.compareBaseline; split <;> rfl
@[simp] theorem State.compareBaseline_enabled : s.compareBaseline.enabled = s.enabled := by
  unfold State.compareBaseline; split <;> rfl
@[simp] theorem State.compareBaseline_skip : s.compareBaseline.skip = s.skip := by
  unfold State.compareBaseline; split <;> rfl
@[simp] theorem State.compareBaseline_ts0 : s.compareBaseline.ts0 = s.ts0 := by
  unfold State.compareBaseline; split <;> rfl
@[simp] theorem State.compareBaseline_ts1 : s.compareBaseline.ts1 = s.ts1 := by
  unfold State.compareBaseline; split <;> rfl
@[simp] theorem State.compareBaseline_ts2 : s.compareBaseline.ts2 = s.ts2 := by
  unfold State.compareBaseline; split <;> rfl
@[simp] theorem State.compareBaseline_period : s.compareBaseline.period = s.period := by
  unfold State.compareBaseline; split <;> rfl
@[simp] theorem State.compareBaseline_min1 : s.compareBaseline.min1 = s.min1 := by
  unfold State.compareBaseline; split <;> rfl
@[simp] theorem State.compareBaseline_max1 : s.compareBaseline.max1 = s.max1 := by
  unfold State.compareBaseline; split <;> rfl
@[simp] theorem State.compareBaseline_min5 : s.compareBaseline.min5 = s.min5 := by
  unfold State.compareBaseline; split <;> rfl
@[simp] theorem State.compareBaseline_max5 : s.compareBaseline.max5 = s.max5 := by
  unfold State.compareBaseline; split <;> rfl
@[simp] theorem State.compareBaseline_fAddr : s.compareBaseline.fAddr = s.fAddr := by
  unfold State.compareBaseline; split <;> rfl
@[simp] theorem State.compareBaseline_fGroup : s.compareBaseline.fGroup = s.fGroup := by
  unfold State.compareBaseline; split <;> rfl
@[simp] theorem State.compareBaseline_fSwitch : s.compareBaseline.fSwitch = s.fSwitch := by
  unfold State.compareBaseline; split <;> rfl
@[simp] theorem State.compareBaseline_fUnit : s.compareBaseline.fUnit = s.fUnit := by
  unfold State.compareBaseline; split <;> rfl
@[simp] theorem State.compareBaseline_fDim : s.compareBaseline.fDim = s.fDim := by
  unfold State.compareBaseline; split <;> rfl
@[simp] theorem State.compareBaseline_acc : s.compareBaseline.acc = s.acc := by
  unfold State.compareBaseline; split <;> rfl
@[simp] theorem State.compareBaseline_bAddr : s.compareBaseline.bAddr = s.fAddr := by
  unfold State.compareBaseline State.sameAsBaseline; split <;> simp_all
@[simp] theorem State.compareBaseline_bGroup : s.compareBaseline.bGroup = s.fGroup := by
  unfold State.compareBaseline State.sameAsBaseline; split <;> simp_all
@[simp] theorem State.compareBaseline_bSwitch : s.compareBaseline.bSwitch = s.fSwitch := by
  unfold State.compareBaseline State.sameAsBaseline; split <;> simp_all
@[simp] theorem State.compareBaseline_bUnit : s.compareBaseline.bUnit = s.fUnit := by
  unfold State.compareBaseline State.sameAsBaseline; split <;> simp_all
@[simp] theorem State.compareBaseline_bDim : s.compareBaseline.bDim = s.fDim := by
  unfold State.compareBaseline State.sameAsBaseline; split <;> simp_all
@[simp] theorem State.compareBaseline_repeats : s.compareBaseline.repeats = if s.sameAsBaseline then s.repeats else 0 := by
  unfold State.compareBaseline; split <;> rfl
@[simp] theorem State.compareBaseline_minRepeats : s.compareBaseline.minRepeats = s.minRepeats := by
  unfold State.compareBaseline; split <;> rfl
@[simp] theorem State.compareBaseline_inCallback : s.compareBaseline.inCallback = s.inCallback := by
  unfold State.compareBaseline; split <;> rfl
@[simp] theorem State.compareBaseline_outFrame : s.compareBaseline.outFrame = s.outFrame := by
  unfold State.compareBaseline; split <;> rfl
@[simp] theorem State.compareBaseline_pending : s.compareBaseline.pending = s.pending := by
  unfold State.compareBaseline; split <;> rfl
@[simp] theorem State.compareBaseline_dispatches : s.compareBaseline.dispatches = s.dispatches := by
  unfold State.compareBaseline; split <;> rfl
@[simp] theorem State.compareBaseline_trace : s.compareBaseline.trace = s.trace := by
  unfold State.compareBaseline; split <;> rfl

/-! ### initialised -/

@[simp] theorem State.initialised_state (n : BitVec 8) : (s.initialised n).state = State.reset.state := rfl
@[simp] theorem State.initialised_enabled (n : BitVec 8) : (s.initialised n).enabled = true := rfl
@[simp] theorem State.initialised_skip (n : BitVec 8) : (s.initialised n).skip = State.reset.skip := rfl
@[simp] theorem State.initialised_ts0 (n : BitVec 8) : (s.initialised n).ts0 = State.reset.ts0 := rfl
@[simp] theorem State.initialised_ts1 (n : BitVec 8) : (s.initialised n).ts1 = State.reset.ts1 := rfl
@[simp] theorem State.initialised_ts2 (n : BitVec 8) : (s.initialised n).ts2 = State.reset.ts2 := rfl
@[simp] theorem State.initialised_period (n : BitVec 8) : (s.initialised n).period = State.reset.period := rfl
@[simp] theorem State.initialised_min1 (n : BitVec 8) : (s.initialised n).min1 = State.reset.min1 := rfl
@[simp] theorem State.initialised_max1 (n : BitVec 8) : (s.initialised n).max1 = State.reset.max1 := rfl
@[simp] theorem State.initialised_min5 (n : BitVec 8) : (s.initialised n).min5 = State.reset.min5 := rfl
@[simp] theorem State.initialised_max5 (n : BitVec 8) : (s.initialised n).max5 = State.reset.max5 := rfl
@[simp] theorem State.initialised_fAddr (n : BitVec 8) : (s.initialised n).fAddr = State.reset.fAddr := rfl
@[simp] theorem State.initialised_fGroup (n : BitVec 8) : (s.initialised n).fGroup = State.reset.fGroup := rfl
@[simp] theorem State.initialised_fSwitch (n : BitVec 8) : (s.initialised n).fSwitch = State.reset.fSwitch := rfl
@[simp] theorem State.initialised_fUnit (n : BitVec 8) : (s.initialised n).fUnit = State.reset.fUnit := rfl
@[simp] theorem State.initialised_fDim (n : BitVec 8) : (s.initialised n).fDim = State.reset.fDim := rfl
@[simp] theorem State.initialised_acc (n : BitVec 8) : (s.initialised n).acc = State.reset.acc := rfl
@[simp] theorem State.initialised_bAddr (n : BitVec 8) : (s.initialised n).bAddr = State.reset.bAddr := rfl
@[simp] theorem State.initialised_bGroup (n : BitVec 8) : (s.initialised n).bGroup = State.reset.bGroup := rfl
@[simp] theorem State.initialised_bSwitch (n : BitVec 8) : (s.initialised n).bSwitch = State.reset.bSwitch := rfl
@[simp] theorem State.initialised_bUnit (n : BitVec 8) : (s.initialised n).bUnit = State.reset.bUnit := rfl
@[simp] theorem State.initialised_bDim (n : BitVec 8) : (s.initialised n).bDim = State.reset.bDim := rfl
@[simp] theorem State.initialised_repeats (n : BitVec 8) : (s.initialised n).repeats = State.reset.repeats := rfl
@[simp] theorem State.initialised_minRepeats (n : BitVec 8) : (s.initialised n).minRepeats = n := rfl
@[simp] theorem State.initialised_inCallback (n : BitVec 8) : (s.initialised n).inCallback = State.reset.inCallback := rfl
@[simp] theorem State.initialised_outFrame (n : BitVec 8) : (s.initialised n).outFrame = State.reset.outFrame := rfl
@[simp] theorem State.initialised_pending (n : BitVec 8) : (s.initialised n).pending = s.pending := rfl
@[simp] theorem State.initialised_dispatches (n : BitVec 8) : (s.initialised n).dispatches = s.dispatches := rfl
@[simp] theorem State.initialised_trace (n : BitVec 8) : (s.initialised n).trace = s.trace := rfl

end Sys2Proof.Machine
end

