-- ==== Sys2Proof/Laws/Ops.lean ====
section
/-! SUPPORT. What each shared operation and arm can do, said once: an equation per operation on the index, and one lemma
per arm that lists every outcome. Later proofs cite these and do not unfold the arms. -/

namespace Sys2Proof.Machine

variable {s t : State} {d ts : Timestamp}

/-! ### The index -/

@[simp] theorem State.index_note (e : EdgeEvent) (s : State) : (s.note e).index = s.index := rfl
@[simp] theorem State.index_raiseResync (c : ResyncCause) (s : State) : (s.raiseResync c).index = -1 := by
  show BitVec.toInt 0x1FF#9 = -1; rfl
@[simp] theorem State.index_calibrate (d : Timestamp) (s : State) : (s.calibrate d).index = 0 := rfl
@[simp] theorem State.index_shiftDelay (ts : Timestamp) (s : State) : (s.shiftDelay ts).index = s.index := rfl
@[simp] theorem State.index_moveLeadingEdge (s : State) : s.moveLeadingEdge.index = s.index := rfl
@[simp] theorem State.index_consumeSkip (s : State) : s.consumeSkip.index = s.index := rfl
@[simp] theorem State.index_rejectNoise (s : State) : s.rejectNoise.index = s.index := rfl
@[simp] theorem State.index_shiftAcc (b : Bool) (s : State) : (s.shiftAcc b).index = s.index := rfl
@[simp] theorem State.index_shiftAddr (v : Bool) (s : State) : (s.shiftAddr v).index = s.index := rfl
@[simp] theorem State.index_setGroup (v : Bool) (s : State) : (s.setGroup v).index = s.index := rfl
@[simp] theorem State.index_setSwitch (sym : Symbol) (s : State) : (s.setSwitch sym).index = s.index := rfl
@[simp] theorem State.index_shiftUnit (v : Bool) (s : State) : (s.shiftUnit v).index = s.index := rfl
@[simp] theorem State.index_shiftDim (v : Bool) (s : State) : (s.shiftDim v).index = s.index := rfl
@[simp] theorem State.index_countFrame (s : State) : s.countFrame.index = s.index := rfl
@[simp] theorem State.index_compareBaseline (s : State) : s.compareBaseline.index = s.index := by
  simp [State.index]
@[simp] theorem State.index_dispatchReturn (s : State) : s.dispatchReturn.index = s.index := rfl
@[simp] theorem State.index_awaitRepeat (s : State) : s.awaitRepeat.index = 0 := rfl
@[simp] theorem State.index_dispatchEntry (s : State) : s.dispatchEntry.index = -1 := by
  show BitVec.toInt 0x1FF#9 = -1; rfl
@[simp] theorem State.index_suppressDispatch (s : State) : s.suppressDispatch.index = -1 := by
  show BitVec.toInt 0x1FF#9 = -1; rfl
@[simp] theorem State.index_advanceTo (x : SeqWord) (s : State) : (s.advanceTo x).index = x.toInt := rfl

/-- `STATE + 1` below the register's end is the index plus one. -/
theorem State.index_advance (h : -1 ≤ s.index ∧ s.index ≤ 147) : s.advance.index = s.index + 1 := by
  have key : ∀ x : SeqWord, -1 ≤ x.toInt → x.toInt ≤ 147 → (x + 1).toInt = x.toInt + 1 := by decide
  exact key s.state h.1 h.2

/-- A stored index determines the register. -/
theorem State.state_of_index {x : SeqWord} (h : s.index = x.toInt) : s.state = x := BitVec.toInt_inj.1 h

/-! ### The calibration values, with their constants -/

theorem periodOf_eq (d : Timestamp) : periodOf d = d.toNat / 40 := rfl
theorem min1Of_eq (p : Nat) : min1Of p = (3 * p + 9) / 10 := rfl
theorem max1Of_eq (p : Nat) : max1Of p = 3 * p := rfl
theorem min5Of_eq (p : Nat) : min5Of p = 3 * p := rfl
theorem max5Of_eq (p : Nat) : max5Of p = 8 * p := rfl

/-- `ceil(3 P / 10)` compared with an integer is 0.3 P compared with it (R112). -/
theorem min1_le_iff (p d : Nat) : ceilDiv (3 * p) 10 ≤ d ↔ 3 * p ≤ 10 * d := by unfold ceilDiv; omega

/-! ### The conditions -/

theorem State.isNoise_iff (s : State) : s.isNoise = true ↔ 0 ≤ s.index ∧ (s.ts2 - s.ts1).toNat < s.min1.toNat := by
  unfold State.isNoise
  rw [Bool.and_eq_true, decide_eq_true_eq, decide_eq_true_eq]
  rfl

theorem exceedsShortMax_iff (d : Timestamp) (s : State) : exceedsShortMax d s = true ↔ s.max1.toNat < d.toNat := by
  simp [exceedsShortMax]

theorem startLowInRange_iff (d : Timestamp) (s : State) :
    startLowInRange d s = true ↔ 7 * s.period.toNat ≤ d.toNat ∧ d.toNat ≤ 15 * s.period.toNat := by
  simp [startLowInRange]

theorem stopLowInRange_iff (d : Timestamp) (s : State) :
    stopLowInRange d s = true ↔ 20 * s.period.toNat ≤ d.toNat ∧ d.toNat ≤ 80 * s.period.toNat := by
  simp [stopLowInRange]

theorem State.switchIllegal_iff (s : State) : s.switchIllegal = true ↔ s.fSwitch = 3 := by simp [State.switchIllegal]

theorem State.isDimFrame_iff (s : State) : s.isDimFrame = true ↔ s.fSwitch = 2 := by simp [State.isDimFrame]

theorem State.thresholdReached_iff (s : State) :
    s.thresholdReached = true ↔ s.minRepeats.toNat ≤ s.repeats.toNat := by simp [State.thresholdReached]

theorem State.receivingAbove_iff (s : State) (r : Int) : s.receivingAbove r = true ↔ r < s.index := by
  simp [State.receivingAbove]

theorem State.sameAsBaseline_iff (s : State) : s.sameAsBaseline = true ↔
    s.fAddr = s.bAddr ∧ s.fUnit = s.bUnit ∧ s.fDim = s.bDim ∧ s.fGroup = s.bGroup ∧ s.fSwitch = s.bSwitch := by
  simp [State.sameAsBaseline]

theorem isFourthPart_iff (x : Int) : isFourthPart x = true ↔ x % 4 = 1 := by simp [isFourthPart]

/-! ### Arms -/

theorem armOf_eq_none_iff (x : Int) : armOf x = none ↔ x < -1 ∨ 147 < x := by
  unfold armOf; split_ifs <;> simp <;> omega

theorem armOf_search_iff (x : Int) : armOf x = some .search ↔ x = -1 := by
  unfold armOf; split_ifs <;> simp <;> omega

theorem armOf_startHi_iff (x : Int) : armOf x = some .startHi ↔ x = 0 := by
  unfold armOf; split_ifs <;> simp <;> omega

theorem armOf_startLo_iff (x : Int) : armOf x = some .startLo ↔ x = 1 := by
  unfold armOf; split_ifs <;> simp <;> omega

theorem armOf_part_iff (x : Int) : armOf x = some .part ↔ 2 ≤ x ∧ x ≤ 145 := by
  unfold armOf; split_ifs <;> simp <;> omega

theorem armOf_stopHi_iff (x : Int) : armOf x = some .stopHi ↔ x = 146 := by
  unfold armOf; split_ifs <;> simp <;> omega

theorem armOf_stopLo_iff (x : Int) : armOf x = some .stopLo ↔ x = 147 := by
  unfold armOf; split_ifs <;> simp <;> omega

/-! ### The searching arm -/

theorem search_cases (d : Timestamp) (s : State) :
    (Config.syncFloorUs < d.toNat ∧ search d s = s.calibrate d)
      ∨ (d.toNat ≤ Config.syncFloorUs ∧ search d s = s.note .ignored) := by
  unfold search searchAbove
  split
  · exact .inl ⟨‹_›, rfl⟩
  · exact .inr ⟨by omega, rfl⟩

/-! ### The decoding arms -/

theorem startHi_cases (d : Timestamp) (s : State) :
    (s.max1.toNat < d.toNat ∧ startHi d s = s.raiseResync .startHiLong)
      ∨ (d.toNat ≤ s.max1.toNat ∧ startHi d s = s.advanceTo 1) := by
  unfold startHi
  split
  · exact .inl ⟨(exceedsShortMax_iff d s).1 ‹_›, rfl⟩
  · exact .inr ⟨Nat.not_lt.1 fun h => ‹¬ _› ((exceedsShortMax_iff d s).2 h), rfl⟩

theorem stopHi_cases (d : Timestamp) (s : State) :
    (s.max1.toNat < d.toNat ∧ stopHi d s = s.raiseResync .stopHiLong)
      ∨ (d.toNat ≤ s.max1.toNat ∧ stopHi d s = s.advanceTo 147) := by
  unfold stopHi
  split
  · exact .inl ⟨(exceedsShortMax_iff d s).1 ‹_›, rfl⟩
  · exact .inr ⟨Nat.not_lt.1 fun h => ‹¬ _› ((exceedsShortMax_iff d s).2 h), rfl⟩

theorem startLo_cases (d : Timestamp) (s : State) :
    ((7 * s.period.toNat ≤ d.toNat ∧ d.toNat ≤ 15 * s.period.toNat) ∧ startLo d s = s.advanceTo 2)
      ∨ ((d.toNat < 7 * s.period.toNat ∨ 15 * s.period.toNat < d.toNat) ∧ startLo d s = s.raiseResync .startLoRange) := by
  unfold startLo
  split
  · exact .inl ⟨(startLowInRange_iff d s).1 ‹_›, rfl⟩
  · rename_i h
    rw [startLowInRange_iff] at h
    exact .inr ⟨by omega, rfl⟩

theorem classOf_eq_short_iff : classOf d s = some false ↔ s.min1.toNat ≤ d.toNat ∧ d.toNat ≤ s.max1.toNat := by
  unfold classOf; split_ifs <;> simp_all

theorem classOf_eq_long_iff :
    classOf d s = some true ↔
      ¬ (s.min1.toNat ≤ d.toNat ∧ d.toNat ≤ s.max1.toNat) ∧ s.min5.toNat ≤ d.toNat ∧ d.toNat ≤ s.max5.toNat := by
  unfold classOf; split_ifs <;> simp_all

theorem classOf_eq_none_iff :
    classOf d s = none ↔
      ¬ (s.min1.toNat ≤ d.toNat ∧ d.toNat ≤ s.max1.toNat) ∧ ¬ (s.min5.toNat ≤ d.toNat ∧ d.toNat ≤ s.max5.toNat) := by
  unfold classOf; split_ifs <;> simp_all

/-- What a completed bit with a valid symbol can lead to, for an index where a part is decoded. -/
inductive BitOutcome (sym : Symbol) (s : State) : Host.Outcome State Fault Refusal → Prop where
  | misplaced (h : s.index ≠ 113) (hs : sym = .dimMark) : BitOutcome sym s (.next (s.raiseResync .dimMisplaced))
  | switch (h : s.index = 113) : BitOutcome sym s (.next (s.setSwitch sym).advance)
  | addr (v : Bool) (hs : sym = if v then .one else .zero) (h : s.index ≤ 105) :
      BitOutcome sym s (.next (s.shiftAddr v).advance)
  | group (v : Bool) (hs : sym = if v then .one else .zero) (h : s.index = 109) :
      BitOutcome sym s (.next (s.setGroup v).advance)
  | unit (v : Bool) (hs : sym = if v then .one else .zero) (h : 105 < s.index ∧ s.index ≠ 109 ∧ s.index ≠ 113)
      (h' : s.index < 129) : BitOutcome sym s (.next (s.shiftUnit v).advance)
  | lastUnitIllegal (h : s.index = 129) (h' : s.fSwitch = 3) : BitOutcome sym s (.fault .illegalSwitchType)
  | lastUnitDim (v : Bool) (hs : sym = if v then .one else .zero) (h : s.index = 129) (h' : s.fSwitch = 2) :
      BitOutcome sym s (.next (s.shiftUnit v).advance)
  | lastUnit (v : Bool) (hs : sym = if v then .one else .zero) (h : s.index = 129) (h' : s.fSwitch ≠ 2 ∧ s.fSwitch ≠ 3) :
      BitOutcome sym s (.next ((s.shiftUnit v).advanceTo 146))
  | dim (v : Bool) (hs : sym = if v then .one else .zero) (h : 129 < s.index) :
      BitOutcome sym s (.next (s.shiftDim v).advance)

theorem fieldAt_switch_iff (x : Int) : fieldAt x = .switch ↔ x = 113 := by
  unfold fieldAt; split_ifs <;> simp <;> omega

theorem fieldAt_addr_iff (x : Int) : fieldAt x = .addr ↔ x ≤ 105 := by
  unfold fieldAt; split_ifs <;> simp <;> omega

theorem fieldAt_group_iff (x : Int) : fieldAt x = .group ↔ x = 109 := by
  unfold fieldAt; split_ifs <;> simp <;> omega

theorem fieldAt_unit_iff (x : Int) : fieldAt x = .unit ↔ 105 < x ∧ x ≠ 109 ∧ x ≠ 113 ∧ x ≤ 129 := by
  unfold fieldAt; split_ifs <;> simp <;> omega

theorem fieldAt_dim_iff (x : Int) : fieldAt x = .dim ↔ 129 < x := by
  unfold fieldAt; split_ifs <;> simp <;> omega

theorem afterUnitBit_cases (v : Bool) (s : State) (h : 105 < s.index ∧ s.index ≠ 109 ∧ s.index ≠ 113 ∧ s.index ≤ 129) :
    BitOutcome (if v then .one else .zero) s (afterUnitBit (s.shiftUnit v)) := by
  obtain ⟨h1, h2, h3, h4⟩ := h
  unfold afterUnitBit
  simp only [State.switchIllegal_iff, State.isDimFrame_iff, State.index_shiftUnit, State.shiftUnit_fSwitch]
  by_cases hx : s.index = 129
  · simp only [hx, if_true]
    by_cases h3' : s.fSwitch = 3
    · rw [if_pos h3']; exact .lastUnitIllegal hx h3'
    · by_cases h2' : s.fSwitch = 2
      · rw [if_neg h3', if_pos h2']; exact .lastUnitDim v rfl hx h2'
      · rw [if_neg h3', if_neg h2']; exact .lastUnit v rfl hx ⟨h2', h3'⟩
  · simpa only [hx, if_false] using BitOutcome.unit v rfl ⟨h1, h2, h3⟩ (by omega)

theorem valueBit_cases (v : Bool) (s : State) (h : s.index ≠ 113) :
    BitOutcome (if v then .one else .zero) s (valueBit v s) := by
  unfold valueBit
  cases hf : fieldAt s.index with
  | addr => exact .addr v rfl ((fieldAt_addr_iff _).1 hf)
  | group => exact .group v rfl ((fieldAt_group_iff _).1 hf)
  | unit => exact afterUnitBit_cases v s ((fieldAt_unit_iff _).1 hf)
  | dim => exact .dim v rfl ((fieldAt_dim_iff _).1 hf)
  | switch => exact absurd ((fieldAt_switch_iff _).1 hf) h

theorem completeBit_cases (sym : Symbol) (s : State) : BitOutcome sym s (completeBit sym s) := by
  unfold completeBit
  split
  · exact .switch ((fieldAt_switch_iff _).1 ‹_›)
  · rename_i h
    exact .misplaced (fun e => h ((fieldAt_switch_iff _).2 e)) rfl
  · rename_i h
    exact valueBit_cases true s (fun e => h ((fieldAt_switch_iff _).2 e))
  · rename_i h
    exact valueBit_cases false s (fun e => h ((fieldAt_switch_iff _).2 e))

/-- What a part can lead to. -/
inductive PartOutcome (d : Timestamp) (s : State) : Host.Outcome State Fault Refusal → Prop where
  | outOfRange (h : classOf d s = none) : PartOutcome d s (.next (s.raiseResync .partRange))
  | notFourth (b : Bool) (h : classOf d s = some b) (h4 : s.index % 4 ≠ 1) : PartOutcome d s (.next (s.shiftAcc b).advance)
  | badPattern (b : Bool) (h : classOf d s = some b) (h4 : s.index % 4 = 1) (hs : symbolOf (shl s.acc b) = none) :
      PartOutcome d s (.next ((s.shiftAcc b).raiseResync .badPattern))
  | bit (b : Bool) (sym : Symbol) (h : classOf d s = some b) (h4 : s.index % 4 = 1)
      (hs : symbolOf (shl s.acc b) = some sym) : PartOutcome d s (completeBit sym (s.shiftAcc b))

theorem part_cases (d : Timestamp) (s : State) : PartOutcome d s (part d s) := by
  unfold part afterShift isFourthPart
  cases hc : classOf d s with
  | none => exact .outOfRange hc
  | some b =>
    by_cases h4 : s.index % 4 = 1
    · cases hs : symbolOf (shl s.acc b) with
      | none => simpa [h4, hs] using PartOutcome.badPattern (d := d) b hc h4 hs
      | some sym => simpa [h4, hs] using PartOutcome.bit b sym hc h4 hs
    · simpa [h4] using PartOutcome.notFourth (d := d) b hc h4

/-! ### The stop gap and the aggregator -/

theorem aggregateFrame_cases (s : State) :
    let c := s.compareBaseline.countFrame
    (c.thresholdReached = true ∧ s.inCallback = false ∧ aggregateFrame s = c.dispatchEntry)
      ∨ (c.thresholdReached = true ∧ s.inCallback = true ∧ aggregateFrame s = c.suppressDispatch)
      ∨ (c.thresholdReached = false ∧ aggregateFrame s = c.awaitRepeat) := by
  unfold aggregateFrame settleFrame deliver
  cases hr : s.compareBaseline.countFrame.thresholdReached <;> cases hc : s.inCallback <;> simp [hr, hc]

theorem stopLo_cases (d : Timestamp) (s : State) :
    ((20 * s.period.toNat ≤ d.toNat ∧ d.toNat ≤ 80 * s.period.toNat) ∧ s.fSwitch = 3 ∧ stopLo d s = .fault .illegalSwitchType)
      ∨ ((20 * s.period.toNat ≤ d.toNat ∧ d.toNat ≤ 80 * s.period.toNat) ∧ s.fSwitch ≠ 3
          ∧ stopLo d s = .next (aggregateFrame s))
      ∨ ((d.toNat < 20 * s.period.toNat ∨ 80 * s.period.toNat < d.toNat) ∧ stopLo d s = .next (s.raiseResync .stopLoRange)) := by
  unfold stopLo
  simp only [stopLowInRange_iff, State.switchIllegal_iff]
  by_cases hd : 20 * s.period.toNat ≤ d.toNat ∧ d.toNat ≤ 80 * s.period.toNat
  · rw [if_pos hd]
    by_cases h3 : s.fSwitch = 3
    · exact .inl ⟨hd, h3, if_pos h3⟩
    · exact .inr (.inl ⟨hd, h3, if_neg h3⟩)
  · exact .inr (.inr ⟨by omega, if_neg hd⟩)

/-! ### EDGE -/

/-- What an `EDGE` can lead to. -/
inductive EdgeOutcome (ts : Timestamp) (s : State) : Host.Outcome State Fault Refusal → Prop where
  | disabled (h : s.enabled = false) : EdgeOutcome ts s (.next (s.note .disabled))
  | skipped (h : s.enabled = true) (hk : s.skip = true) : EdgeOutcome ts s (.next (s.shiftDelay ts).consumeSkip)
  | illegal (h : s.enabled = true) (hk : s.skip = false) (ha : s.index < -1 ∨ 147 < s.index) :
      EdgeOutcome ts s (.fault .illegalSequencerState)
  | noise (h : s.enabled = true) (hk : s.skip = false) (hx : 0 ≤ s.index ∧ s.index ≤ 147)
      (hn : s.newInterval ts < s.min1.toNat) : EdgeOutcome ts s (.next (s.shiftDelay ts).rejectNoise)
  | measured (a : Arm) (h : s.Measures ts) (ha : armOf s.index = some a) :
      EdgeOutcome ts s (runArm a (s.ts2 - s.ts0) (s.shiftDelay ts).moveLeadingEdge)

theorem execEdge_cases (ts : Timestamp) (s : State) : EdgeOutcome ts s (execEdge ts s) := by
  unfold execEdge
  cases he : s.enabled with
  | false => simpa using EdgeOutcome.disabled (ts := ts) he
  | true =>
    unfold acceptEdge
    cases hk : s.skip with
    | true => simpa [hk] using EdgeOutcome.skipped (ts := ts) he hk
    | false =>
      unfold filterEdge
      simp only [State.shiftDelay_skip, hk, State.index_shiftDelay, if_true, Bool.false_eq_true, if_false]
      cases ha : armOf s.index with
      | none => exact .illegal he hk ((armOf_eq_none_iff _).1 ha)
      | some a =>
        have hr : -1 ≤ s.index ∧ s.index ≤ 147 := by
          by_contra hc
          rw [(armOf_eq_none_iff _).2 (by omega)] at ha
          cases ha
        by_cases hn : 0 ≤ s.index ∧ s.newInterval ts < s.min1.toNat
        · simp only [(State.isNoise_iff (s.shiftDelay ts)).2 hn, if_true]
          exact .noise he hk ⟨hn.1, hr.2⟩ hn.2
        · have : ¬ (s.shiftDelay ts).isNoise = true := fun h => hn ((State.isNoise_iff _).1 h)
          simp only [this, Bool.false_eq_true, if_false]
          exact .measured a ⟨he, hk, fun h0 => by by_contra hc; exact hn ⟨h0, by omega⟩⟩ ha

/-- An edge that measures runs exactly the arm of its index on the measured duration. -/
theorem execEdge_measured {a : Arm} (h : s.Measures ts) (ha : armOf s.index = some a) :
    execEdge ts s = runArm a (s.ts2 - s.ts0) (s.shiftDelay ts).moveLeadingEdge := by
  have := execEdge_cases ts s
  obtain ⟨h1, h2, h3⟩ := h
  have hr : ¬ (s.index < -1 ∨ 147 < s.index) := fun hc => by
    rw [(armOf_eq_none_iff _).2 hc] at ha; cases ha
  generalize he : execEdge ts s = o at this
  cases this with
  | disabled h => simp [h1] at h
  | skipped _ hk => simp [h2] at hk
  | illegal _ _ hx => exact absurd hx hr
  | noise _ _ hx hn => have := h3 hx.1; omega
  | measured b _ hb => rw [ha] at hb; cases hb; rfl

/-! ### A step -/

/-- A step waits where nothing is pending, and otherwise executes the next command. -/
theorem step_cases (s : State) :
    (s.pending = [] ∧ step s = .next s)
      ∨ ∃ c rest, s.pending = c :: rest ∧ step s = exec (decodeWord c.word) { s with pending := rest } := by
  unfold step State.takeCommand
  cases hp : s.pending with
  | nil => simp
  | cons c rest => simp

end Sys2Proof.Machine
end

