-- ==== Sys2Proof/Laws/Edge.lean ====
section
/-! SUPPORT. Every next state an `EDGE` can give, in one list: the inversion of execEdge through its arms. Frames and
invariants are case analyses over it. -/

namespace Sys2Proof.Machine

variable {s t : State} {ts : Timestamp}

/-- The state the arm of a measured edge works on: the delay line shifted and its leading edge moved (R92, R95). -/
def State.measuredAt (s : State) (ts : Timestamp) : State := (s.shiftDelay ts).moveLeadingEdge

theorem State.measuredAt_eq (s : State) (ts : Timestamp) :
    s.measuredAt ts = { s with ts0 := s.ts2, ts1 := s.ts2, ts2 := ts } := rfl

@[simp] theorem State.measuredAt_state : (s.measuredAt ts).state = s.state := rfl
@[simp] theorem State.measuredAt_enabled : (s.measuredAt ts).enabled = s.enabled := rfl
@[simp] theorem State.measuredAt_skip : (s.measuredAt ts).skip = s.skip := rfl
@[simp] theorem State.measuredAt_ts0 : (s.measuredAt ts).ts0 = s.ts2 := rfl
@[simp] theorem State.measuredAt_ts1 : (s.measuredAt ts).ts1 = s.ts2 := rfl
@[simp] theorem State.measuredAt_ts2 : (s.measuredAt ts).ts2 = ts := rfl
@[simp] theorem State.measuredAt_period : (s.measuredAt ts).period = s.period := rfl
@[simp] theorem State.measuredAt_min1 : (s.measuredAt ts).min1 = s.min1 := rfl
@[simp] theorem State.measuredAt_max1 : (s.measuredAt ts).max1 = s.max1 := rfl
@[simp] theorem State.measuredAt_min5 : (s.measuredAt ts).min5 = s.min5 := rfl
@[simp] theorem State.measuredAt_max5 : (s.measuredAt ts).max5 = s.max5 := rfl
@[simp] theorem State.measuredAt_fAddr : (s.measuredAt ts).fAddr = s.fAddr := rfl
@[simp] theorem State.measuredAt_fGroup : (s.measuredAt ts).fGroup = s.fGroup := rfl
@[simp] theorem State.measuredAt_fSwitch : (s.measuredAt ts).fSwitch = s.fSwitch := rfl
@[simp] theorem State.measuredAt_fUnit : (s.measuredAt ts).fUnit = s.fUnit := rfl
@[simp] theorem State.measuredAt_fDim : (s.measuredAt ts).fDim = s.fDim := rfl
@[simp] theorem State.measuredAt_acc : (s.measuredAt ts).acc = s.acc := rfl
@[simp] theorem State.measuredAt_bAddr : (s.measuredAt ts).bAddr = s.bAddr := rfl
@[simp] theorem State.measuredAt_bGroup : (s.measuredAt ts).bGroup = s.bGroup := rfl
@[simp] theorem State.measuredAt_bSwitch : (s.measuredAt ts).bSwitch = s.bSwitch := rfl
@[simp] theorem State.measuredAt_bUnit : (s.measuredAt ts).bUnit = s.bUnit := rfl
@[simp] theorem State.measuredAt_bDim : (s.measuredAt ts).bDim = s.bDim := rfl
@[simp] theorem State.measuredAt_repeats : (s.measuredAt ts).repeats = s.repeats := rfl
@[simp] theorem State.measuredAt_minRepeats : (s.measuredAt ts).minRepeats = s.minRepeats := rfl
@[simp] theorem State.measuredAt_inCallback : (s.measuredAt ts).inCallback = s.inCallback := rfl
@[simp] theorem State.measuredAt_outFrame : (s.measuredAt ts).outFrame = s.outFrame := rfl
@[simp] theorem State.measuredAt_pending : (s.measuredAt ts).pending = s.pending := rfl
@[simp] theorem State.measuredAt_dispatches : (s.measuredAt ts).dispatches = s.dispatches := rfl
@[simp] theorem State.measuredAt_trace : (s.measuredAt ts).trace = s.trace := rfl
@[simp] theorem State.index_measuredAt : (s.measuredAt ts).index = s.index := rfl

/-- The next states of `EDGE ts` from `s`, each with the condition under which it arises. -/
inductive EdgeNext (ts : Timestamp) (s : State) : State → Prop where
  | disabled (he : s.enabled = false) : EdgeNext ts s (s.note .disabled)
  | skipped (he : s.enabled = true) (hk : s.skip = true) : EdgeNext ts s (s.shiftDelay ts).consumeSkip
  | noise (he : s.enabled = true) (hk : s.skip = false) (hx : 0 ≤ s.index ∧ s.index ≤ 147)
      (hn : s.newInterval ts < s.min1.toNat) : EdgeNext ts s (s.shiftDelay ts).rejectNoise
  | ignored (hm : s.Measures ts) (hx : s.index = -1) (hd : s.measured ≤ 4800) :
      EdgeNext ts s ((s.measuredAt ts).note .ignored)
  | sync (hm : s.Measures ts) (hx : s.index = -1) (hd : 4800 < s.measured) :
      EdgeNext ts s ((s.measuredAt ts).calibrate (s.ts2 - s.ts0))
  | startHiLong (hm : s.Measures ts) (hx : s.index = 0) (hd : s.max1.toNat < s.measured) :
      EdgeNext ts s ((s.measuredAt ts).raiseResync .startHiLong)
  | startHi (hm : s.Measures ts) (hx : s.index = 0) (hd : s.measured ≤ s.max1.toNat) :
      EdgeNext ts s ((s.measuredAt ts).advanceTo 1)
  | startLoRange (hm : s.Measures ts) (hx : s.index = 1)
      (hd : s.measured < 7 * s.period.toNat ∨ 15 * s.period.toNat < s.measured) :
      EdgeNext ts s ((s.measuredAt ts).raiseResync .startLoRange)
  | startLo (hm : s.Measures ts) (hx : s.index = 1)
      (hd : 7 * s.period.toNat ≤ s.measured ∧ s.measured ≤ 15 * s.period.toNat) :
      EdgeNext ts s ((s.measuredAt ts).advanceTo 2)
  | partRange (hm : s.Measures ts) (hx : 2 ≤ s.index ∧ s.index ≤ 145) (hc : classOf (s.ts2 - s.ts0) s = none) :
      EdgeNext ts s ((s.measuredAt ts).raiseResync .partRange)
  | part (b : Bool) (hm : s.Measures ts) (hx : 2 ≤ s.index ∧ s.index ≤ 145) (h4 : s.index % 4 ≠ 1)
      (hc : classOf (s.ts2 - s.ts0) s = some b) : EdgeNext ts s ((s.measuredAt ts).shiftAcc b).advance
  | badPattern (b : Bool) (hm : s.Measures ts) (hx : 2 ≤ s.index ∧ s.index ≤ 145) (h4 : s.index % 4 = 1)
      (hc : classOf (s.ts2 - s.ts0) s = some b) (hs : symbolOf (shl s.acc b) = none) :
      EdgeNext ts s (((s.measuredAt ts).shiftAcc b).raiseResync .badPattern)
  | bit (b : Bool) (sym : Symbol) (hm : s.Measures ts) (hx : 2 ≤ s.index ∧ s.index ≤ 145) (h4 : s.index % 4 = 1)
      (hc : classOf (s.ts2 - s.ts0) s = some b) (hs : symbolOf (shl s.acc b) = some sym)
      (u : State) (hu : BitOutcome sym ((s.measuredAt ts).shiftAcc b) (.next u)) : EdgeNext ts s u
  | stopHiLong (hm : s.Measures ts) (hx : s.index = 146) (hd : s.max1.toNat < s.measured) :
      EdgeNext ts s ((s.measuredAt ts).raiseResync .stopHiLong)
  | stopHi (hm : s.Measures ts) (hx : s.index = 146) (hd : s.measured ≤ s.max1.toNat) :
      EdgeNext ts s ((s.measuredAt ts).advanceTo 147)
  | stopLoRange (hm : s.Measures ts) (hx : s.index = 147)
      (hd : s.measured < 20 * s.period.toNat ∨ 80 * s.period.toNat < s.measured) :
      EdgeNext ts s ((s.measuredAt ts).raiseResync .stopLoRange)
  | frameRepeat (hm : s.FrameEnds ts) (hr : (s.measuredAt ts).compareBaseline.countFrame.thresholdReached = false) :
      EdgeNext ts s (s.measuredAt ts).compareBaseline.countFrame.awaitRepeat
  | dispatch (hm : s.FrameEnds ts) (hr : (s.measuredAt ts).compareBaseline.countFrame.thresholdReached = true)
      (hc : s.inCallback = false) : EdgeNext ts s (s.measuredAt ts).compareBaseline.countFrame.dispatchEntry
  | suppressed (hm : s.FrameEnds ts) (hr : (s.measuredAt ts).compareBaseline.countFrame.thresholdReached = true)
      (hc : s.inCallback = true) : EdgeNext ts s (s.measuredAt ts).compareBaseline.countFrame.suppressDispatch

/-- The class of a duration reads only registers the front end does not write. -/
theorem classOf_measuredAt (d : Timestamp) : classOf d (s.measuredAt ts) = classOf d s := rfl

theorem runArm_next {a : Arm} (hm : s.Measures ts) (ha : armOf s.index = some a)
    (h : runArm a (s.ts2 - s.ts0) (s.measuredAt ts) = .next t) : EdgeNext ts s t := by
  cases a with
  | search =>
    have hx := (armOf_search_iff _).1 ha
    cases h
    rcases search_cases (s.ts2 - s.ts0) (s.measuredAt ts) with ⟨hd, he⟩ | ⟨hd, he⟩
    · rw [he]; exact .sync hm hx hd
    · rw [he]; exact .ignored hm hx hd
  | startHi =>
    have hx := (armOf_startHi_iff _).1 ha
    cases h
    rcases startHi_cases (s.ts2 - s.ts0) (s.measuredAt ts) with ⟨hd, he⟩ | ⟨hd, he⟩
    · rw [he]; exact .startHiLong hm hx hd
    · rw [he]; exact .startHi hm hx hd
  | startLo =>
    have hx := (armOf_startLo_iff _).1 ha
    cases h
    rcases startLo_cases (s.ts2 - s.ts0) (s.measuredAt ts) with ⟨hd, he⟩ | ⟨hd, he⟩
    · rw [he]; exact .startLo hm hx hd
    · rw [he]; exact .startLoRange hm hx hd
  | part =>
    have hx := (armOf_part_iff _).1 ha
    have hp := part_cases (s.ts2 - s.ts0) (s.measuredAt ts)
    rw [show part (s.ts2 - s.ts0) (s.measuredAt ts) = .next t from h] at hp
    generalize ho : Host.Outcome.next t = o at hp
    cases hp with
    | outOfRange hc => cases ho; exact .partRange hm hx hc
    | notFourth b hc h4 => cases ho; exact .part b hm hx h4 hc
    | badPattern b hc h4 hs => cases ho; exact .badPattern b hm hx h4 hc hs
    | bit b sym hc h4 hs =>
      have hb := completeBit_cases sym ((s.measuredAt ts).shiftAcc b)
      rw [← ho] at hb
      exact .bit b sym hm hx h4 hc hs t hb
  | stopHi =>
    have hx := (armOf_stopHi_iff _).1 ha
    cases h
    rcases stopHi_cases (s.ts2 - s.ts0) (s.measuredAt ts) with ⟨hd, he⟩ | ⟨hd, he⟩
    · rw [he]; exact .stopHiLong hm hx hd
    · rw [he]; exact .stopHi hm hx hd
  | stopLo =>
    have hx := (armOf_stopLo_iff _).1 ha
    have h' : stopLo (s.ts2 - s.ts0) (s.measuredAt ts) = .next t := h
    rcases stopLo_cases (s.ts2 - s.ts0) (s.measuredAt ts) with ⟨_, _, he⟩ | ⟨hd, h3, he⟩ | ⟨hd, he⟩
    · rw [he] at h'; cases h'
    · rw [he] at h'; cases h'
      have hf : s.FrameEnds ts := ⟨hm, hx, hd.1, hd.2, h3⟩
      rcases aggregateFrame_cases (s.measuredAt ts) with ⟨hr, hc, ha'⟩ | ⟨hr, hc, ha'⟩ | ⟨hr, ha'⟩
      · rw [ha']; exact .dispatch hf hr hc
      · rw [ha']; exact .suppressed hf hr hc
      · rw [ha']; exact .frameRepeat hf hr
    · rw [he] at h'; cases h'; exact .stopLoRange hm hx hd

/-- Every next state of `EDGE` is one of the list. -/
theorem execEdge_next (h : execEdge ts s = .next t) : EdgeNext ts s t := by
  have hc := execEdge_cases ts s
  generalize ho : execEdge ts s = o at hc
  cases hc with
  | disabled he => cases ho.symm.trans h; exact .disabled he
  | skipped he hk => cases ho.symm.trans h; exact .skipped he hk
  | illegal => cases ho.symm.trans h
  | noise he hk hx hn => cases ho.symm.trans h; exact .noise he hk hx hn
  | measured a hm ha => exact runArm_next hm ha (ho.symm.trans h)

end Sys2Proof.Machine
end

