-- ==== Sys2Proof/Laws/PerInstr.lean ====
section
/-! SUPPORT. Facts about the commands as syntax, one lemma per constructor: the family `TableRow` of LAWS.json, for
spec/opcode_table.json (R71). -/

namespace Sys2Proof.Laws

/-- The mask of every row: the opcode bits. -/
theorem opcodeMask_eq : (0xF00000000 : CmdWord) = (0xF : BitVec 4) ++ (0 : BitVec 32) := by decide

/-- What that mask leaves of an encoded command: its opcode. -/
theorem encode_and_mask (i : Instr) : encode i &&& 0xF00000000 = i.opcode ++ (0 : BitVec 32) := by
  have h : ∀ x : BitVec 4, x &&& 0xF = x := by decide
  rw [opcodeMask_eq, encode, BitVec.and_append, h]
  exact congrArg (i.opcode ++ ·) BitVec.and_zero

/-- The rows of a table that select an encoded command depend on its opcode alone. -/
theorem selects_encode (r : OpcodeRow) (i : Instr) (h : r.mask = 0xF00000000) :
    r.selects (encode i) = decide (i.opcode ++ (0 : BitVec 32) = r.bits) := by
  rw [OpcodeRow.selects, h, encode_and_mask]

/-- Exactly one row of the opcode table selects the encoding of the command, and it carries the command's mnemonic. -/
def TableRow.Statement (i : Instr) : Prop :=
  (opcodeTable.filter fun r => r.selects (encode i)).map (fun r => r.mnemonic) = [i.mnemonic]

/-- The mnemonics of the rows with an opcode. -/
def mnemonicsAt (op : BitVec 4) : List String :=
  (opcodeTable.filter fun r => decide (op ++ (0 : BitVec 32) = r.bits)).map fun r => r.mnemonic

/-- The selected rows, computed from the opcode. -/
theorem TableRow.of_opcode (i : Instr) (h : mnemonicsAt i.opcode = [i.mnemonic]) : TableRow.Statement i := by
  rw [TableRow.Statement, ← h, mnemonicsAt]
  congr 1
  refine List.filter_congr fun r hr => selects_encode r i ?_
  revert r
  decide

theorem TableRow.nop : TableRow.Statement .nop := TableRow.of_opcode _ (by decide)
theorem TableRow.edge (ts : Timestamp) : TableRow.Statement (.edge ts) :=
  TableRow.of_opcode _ (show mnemonicsAt 0x1 = ["EDGE"] by decide)
theorem TableRow.init (n : BitVec 8) : TableRow.Statement (.init n) :=
  TableRow.of_opcode _ (show mnemonicsAt 0x2 = ["INIT"] by decide)
theorem TableRow.enable : TableRow.Statement .enable := TableRow.of_opcode _ (by decide)
theorem TableRow.disable : TableRow.Statement .disable := TableRow.of_opcode _ (by decide)
theorem TableRow.cbDone : TableRow.Statement .cbDone := TableRow.of_opcode _ (by decide)
theorem TableRow.reserved6 : TableRow.Statement .reserved6 := TableRow.of_opcode _ (by decide)
theorem TableRow.reserved7 : TableRow.Statement .reserved7 := TableRow.of_opcode _ (by decide)
theorem TableRow.reserved8 : TableRow.Statement .reserved8 := TableRow.of_opcode _ (by decide)
theorem TableRow.reserved9 : TableRow.Statement .reserved9 := TableRow.of_opcode _ (by decide)
theorem TableRow.reservedA : TableRow.Statement .reservedA := TableRow.of_opcode _ (by decide)
theorem TableRow.reservedB : TableRow.Statement .reservedB := TableRow.of_opcode _ (by decide)
theorem TableRow.reservedC : TableRow.Statement .reservedC := TableRow.of_opcode _ (by decide)
theorem TableRow.reservedD : TableRow.Statement .reservedD := TableRow.of_opcode _ (by decide)
theorem TableRow.reservedE : TableRow.Statement .reservedE := TableRow.of_opcode _ (by decide)
theorem TableRow.reservedF : TableRow.Statement .reservedF := TableRow.of_opcode _ (by decide)

end Sys2Proof.Laws
end

