-- ==== Sys2Proof/Tests/Slice0.lean ====
section
/-! SUPPORT. Tests of the model. Expected values come from spec/95_test_vectors.md (the section is named at each test) or,
for an encoding, from R65 and R71 written out bit by bit. The last part shows, for each statement of Obligations.lean with
hypotheses, a state and operands that meet them. -/

namespace Sys2Proof.Tests

open Sys2Proof Sys2Proof.Machine Host

/-! ### Well-formed terms -/

/-- R78: `EDGE ts` needs `ts < 2^32`. -/
theorem test_wf_edge : AsmLine.wf (.edge (2 ^ 32)) = false ∧ AsmLine.wf (.edge (2 ^ 32 - 1)) = true := by decide

/-- R78: `INIT n` needs `n <= 255`. -/
theorem test_wf_init : AsmLine.wf (.init 256) = false ∧ AsmLine.wf (.init 255) = true := by decide

/-- R73: a program must not issue a reserved command. -/
theorem test_wf_reserved : Instr.wf .reserved6 = false ∧ Instr.wf .reservedF = false ∧ Instr.wf .cbDone = true := by decide

/-- R79: a pseudo-instruction before any `EDGE` is an assembly error, as is an operand out of its range. -/
theorem test_asm_error : assemble [.init 2, .pulse 260] = none ∧ assemble [.init 256] = none := by decide

/-- 95 §3 P1, its first five lines: the edges 0, 260, 10660, 10920. -/
theorem test_asm_pulses : assemble [.init 2, .edge 0, .pulse 260, .pulse 10400, .pulse 260]
    = some [.init 2, .edge 0, .edge 260, .edge 10660, .edge 10920] := by decide

/-- 95 §3 P2: `START` after edge 10660 with `T = 260` gives the edges 10920 and 13634; `.T` changes the unit. -/
theorem test_asm_start : assemble [.edge 10660, .start, .unit 100, .bit0]
    = some [.edge 10660, .edge 10920, .edge 13634, .edge 13734, .edge 13834, .edge 13934, .edge 14434] := by decide

/-! ### Decoding: every row, from its bits -/

theorem test_decode_nop : decodeWord 0b0000_00000000000000000000000000000000#36 = .nop := by decide
theorem test_decode_edge : decodeWord 0b0001_00000000000000000010101010101000#36 = .edge 10920 := by decide
theorem test_decode_init : decodeWord 0b0010_11111111111111111111111100000011#36 = .init 3 := by decide
theorem test_decode_enable : decodeWord 0b0011_00000000000000000000000011111111#36 = .enable := by decide
theorem test_decode_disable : decodeWord 0b0100_00000000000000000000000000000000#36 = .disable := by decide
theorem test_decode_cbDone : decodeWord 0b0101_00000000000000000000000000000000#36 = .cbDone := by decide
theorem test_decode_reserved6 : decodeWord 0b0110_00000000000000000000000000000000#36 = .reserved6 := by decide
theorem test_decode_reserved7 : decodeWord 0b0111_00000000000000000000000000000001#36 = .reserved7 := by decide
theorem test_decode_reserved8 : decodeWord 0b1000_00000000000000000000000000000000#36 = .reserved8 := by decide
theorem test_decode_reserved9 : decodeWord 0b1001_00000000000000000000000000000000#36 = .reserved9 := by decide
theorem test_decode_reservedA : decodeWord 0b1010_00000000000000000000000000000000#36 = .reservedA := by decide
theorem test_decode_reservedB : decodeWord 0b1011_10000000000000000000000000000000#36 = .reservedB := by decide
theorem test_decode_reservedC : decodeWord 0b1100_00000000000000000000000000000000#36 = .reservedC := by decide
theorem test_decode_reservedD : decodeWord 0b1101_00000000000000000000000000000000#36 = .reservedD := by decide
theorem test_decode_reservedE : decodeWord 0b1110_00000000000000000000000000000000#36 = .reservedE := by decide
theorem test_decode_reservedF : decodeWord 0b1111_00010010001101000101011001111000#36 = .reservedF := by decide

/-- R70: a command is exactly 36 bits. -/
theorem test_decode_wide : decodeTableWord 40 0xFF00000000 = none ∧ decodeTableWord 40 0x0300000000 = some .enable
    ∧ decodeTableWord 36 0x1FFFFFFFF = some (.edge 0xFFFFFFFF) := by decide

/-! ### One step -/

/-- The state a step ends in. -/
def nextOf (o : Outcome State Fault Refusal) : Option State :=
  match o with
  | .next s => some s
  | .fault _ => none
  | .refused _ => none

/-- An enabled block at `PERIOD = 260` (95, conventions) with a sequencer state and a delay line. -/
def cal (x : SeqWord) (a b c : Timestamp) : State :=
  { State.reset with
    enabled := true, minRepeats := 2, period := 260, min1 := 78, max1 := 780, min5 := 780, max5 := 2080
    state := x, ts0 := a, ts1 := b, ts2 := c }

/-- That block where the next edge, 260 after the newest, measures `d`. -/
def atDuration (x : SeqWord) (d : Timestamp) : State := cal x 0 0 d

/-- What a vector shows of an `EDGE`: the event, `STATE`, `SKIP` and the delay line. -/
def edgeResult (s : State) (ts : Timestamp) : Option (List EdgeEvent × Int × Bool × List Nat) :=
  (nextOf (exec (.edge ts) s)).map fun t => (t.trace, t.index, t.skip, [t.ts0.toNat, t.ts1.toNat, t.ts2.toNat])

/-- The event and the `STATE` after an edge that measures `d` at `x`. -/
def armResult (x : SeqWord) (d : Timestamp) : Option (List EdgeEvent × Int) :=
  (nextOf (exec (.edge (d + 260)) (atDuration x d))).map fun t => (t.trace, t.index)

/-- 95 §2.2, F1 to F8. -/
theorem test_edge_front_end :
    [edgeResult { cal 5 100 200 300 with enabled := false } 400, edgeResult { cal 5 100 200 300 with skip := true } 400,
      edgeResult (cal 5 100 200 300) 377, edgeResult (cal 2 100 200 300) 378, edgeResult (cal 0x1FF 100 200 300) 301,
      edgeResult (cal 0 4294967096 4294967196 50) 400, edgeResult (cal 1 4294966296 4294966296 1714) 2000,
      edgeResult (cal 5 0 260 520) 520]
    = [some ([.disabled], 5, false, [100, 200, 300]), some ([.skipped], 5, false, [100, 300, 400]),
      some ([.noise], 5, true, [100, 300, 377]), some ([.advance], 3, false, [300, 300, 378]),
      some ([.ignored], -1, false, [300, 300, 301]), some ([.advance], 1, false, [50, 50, 400]),
      some ([.advance], 2, false, [1714, 1714, 2000]), some ([.noise], 5, true, [0, 520, 520])] := by decide

/-- 95 §2.3 and §2.4: the bounds of every arm at `PERIOD = 260`. -/
theorem test_edge_arms :
    [armResult 0x1FF 4800, armResult 0x1FF 4801, armResult 0 0, armResult 0 780, armResult 0 781, armResult 1 1819,
      armResult 1 1820, armResult 1 3900, armResult 1 3901, armResult 2 77, armResult 2 78, armResult 2 2080,
      armResult 2 2081, armResult 146 0, armResult 146 780, armResult 146 781, armResult 147 5199, armResult 147 5200,
      armResult 147 20800, armResult 147 20801]
    = [some ([.ignored], -1), some ([.sync], 0), some ([.advance], 1), some ([.advance], 1),
      some ([.resync .startHiLong], -1), some ([.resync .startLoRange], -1), some ([.advance], 2), some ([.advance], 2),
      some ([.resync .startLoRange], -1), some ([.resync .partRange], -1), some ([.advance], 3), some ([.advance], 3),
      some ([.resync .partRange], -1), some ([.advance], 147), some ([.advance], 147), some ([.resync .stopHiLong], -1),
      some ([.resync .stopLoRange], -1), some ([.frameRepeat], 0), some ([.frameRepeat], 0),
      some ([.resync .stopLoRange], -1)] := by decide

/-- 95 §2.7, the row `INIT 2`. -/
theorem test_init :
    nextOf (exec (.init 2) { cal 57 1 2 3 with skip := true, inCallback := true, repeats := 3, minRepeats := 5, enabled := false })
      = some { State.reset with minRepeats := 2, enabled := true } := by decide

/-- 95 §2.7, the row `ENABLE`. -/
theorem test_enable :
    nextOf (exec .enable { cal 57 1 2 3 with skip := true, inCallback := true, repeats := 3 })
      = some { cal 0x1FF 1 2 3 with inCallback := true, repeats := 3 } := by decide

/-- 95 §2.7, the row `DISABLE`. -/
theorem test_disable : nextOf (exec .disable (cal 57 1 2 3)) = some { cal 57 1 2 3 with enabled := false } := by decide

/-- 95 §2.7, the rows `CB_DONE`. -/
theorem test_cbDone :
    nextOf (exec .cbDone { cal 57 1 2 3 with inCallback := true, enabled := false })
        = some { cal 57 1 2 3 with enabled := false }
      ∧ nextOf (exec .cbDone (cal 57 1 2 3)) = some (cal 57 1 2 3) := by decide

/-- 95 §2.7, the rows `NOP` and `0xF12345678`. -/
theorem test_nop_reserved :
    nextOf (exec .nop (cal 57 1 2 3)) = some (cal 57 1 2 3)
      ∧ nextOf (exec (decodeWord 0xF12345678) (cal 57 1 2 3)) = some (cal 57 1 2 3) := by decide

/-- U12: the two register values that no rule writes stop an `EDGE` that reads them; a disabled edge reads neither. -/
theorem test_unwritten_values :
    nextOf (exec (.edge 400) (cal 148 0 0 0)) = none
      ∧ nextOf (exec (.edge 10660) { atDuration 147 10400 with fSwitch := 3 }) = none
      ∧ nextOf (exec (.edge 400) { cal 148 0 0 0 with enabled := false })
        = some { cal 148 0 0 0 with enabled := false, trace := [.disabled] } := by decide

/-- `step` runs exactly the word `withFetchWord` places. -/
theorem test_step_word :
    nextOf (step (State.reset.withFetchWord 40 0x200000002)) = some { State.reset with minRepeats := 2, enabled := true }
      ∧ nextOf (step State.reset) = some State.reset := by decide

/-! ### The operations -/

/-- 95 §2.3: `PERIOD`, `MIN1`, `MAX1`, `MIN5`, `MAX5` after a sync gap of `d`. -/
def syncResult (d : Timestamp) : List Nat :=
  let t := search d State.reset
  [t.period.toNat, t.min1.toNat, t.max1.toNat, t.min5.toNat, t.max5.toNat]

theorem test_calibration :
    syncResult 4800 = [0, 0, 0, 0, 0] ∧ syncResult 4801 = [120, 36, 360, 360, 960]
      ∧ syncResult 10439 = [260, 78, 780, 780, 2080] ∧ syncResult 10440 = [261, 79, 783, 783, 2088]
      ∧ syncResult 4294967295 = [107374182, 32212255, 322122546, 322122546, 858993456] := by decide

/-- 95 §2.3: the classes at `PERIOD = 260`, the tie 780 short. -/
theorem test_classes :
    [0, 77, 78, 780, 781, 2080, 2081].map (fun d => classOf d (cal 2 0 0 0))
      = [none, none, some false, some false, some true, some true, none] := by decide

/-- 95 §2.4: the three symbols; the other 13 patterns have none. -/
theorem test_symbols :
    symbolOf 0b0001 = some .zero ∧ symbolOf 0b0100 = some .one ∧ symbolOf 0b0000 = some .dimMark
      ∧ ∀ a : BitVec 4, a ≠ 0b0001 → a ≠ 0b0100 → a ≠ 0b0000 → symbolOf a = none := by decide

/-- A block where the next edge measures a part of duration `d` at `x` with `ACC` before it: 260 is short, 1300 long. -/
def partAt (x : SeqWord) (acc : BitVec 4) (d : Timestamp) : State := { atDuration x d with acc := acc }

/-- The event, `STATE`, `ACC` and the five scratch fields after that edge. -/
def partResult (s : State) : Option (List EdgeEvent × Int × Nat × List Nat) :=
  (nextOf (exec (.edge (s.ts2 + 260)) s)).map fun t =>
    (t.trace, t.index, t.acc.toNat, [t.fAddr.toNat, t.fGroup.toNat, t.fSwitch.toNat, t.fUnit.toNat, t.fDim.toNat])

/-- 95 §2.4 and §2.5: where each symbol goes. -/
theorem test_fields :
    [partResult { partAt 5 0b0000 1300 with fAddr := 0x155 }, partResult { partAt 5 0b1010 260 with fAddr := 0x155 },
      partResult { partAt 5 0b0000 260 with fAddr := 0x155 }, partResult { partAt 5 0b0001 260 with fAddr := 0x155 },
      partResult { partAt 105 0b0010 260 with fAddr := 0x3FFFFFF }, partResult (partAt 109 0b0010 260),
      partResult (partAt 113 0b0010 260), partResult (partAt 113 0b0000 260),
      partResult { partAt 129 0b0000 1300 with fUnit := 2, fSwitch := 1 },
      partResult { partAt 129 0b0000 1300 with fUnit := 2, fSwitch := 2 },
      partResult { partAt 145 0b0010 260 with fDim := 4, fSwitch := 2 }, partResult (partAt 6 0b0001 1300)]
    = [some ([.advance], 6, 1, [0x2AA, 0, 0, 0, 0]), some ([.advance], 6, 4, [0x2AB, 0, 0, 0, 0]),
      some ([.resync .dimMisplaced], -1, 0, [0x155, 0, 0, 0, 0]), some ([.resync .badPattern], -1, 2, [0x155, 0, 0, 0, 0]),
      some ([.advance], 106, 4, [0x3FFFFFF, 0, 0, 0, 0]), some ([.advance], 110, 4, [0, 1, 0, 0, 0]),
      some ([.advance], 114, 4, [0, 0, 1, 0, 0]), some ([.advance], 114, 0, [0, 0, 2, 0, 0]),
      some ([.advance], 146, 1, [0, 0, 1, 4, 0]), some ([.advance], 130, 1, [0, 0, 2, 4, 0]),
      some ([.advance], 146, 4, [0, 0, 2, 0, 9]), some ([.advance], 7, 3, [0, 0, 0, 0, 0])] := by decide

/-- 95 §2.1: frame words. -/
theorem test_pack :
    pack 260 0x0ABCDEF 5 0 1 0 = 0x0000208094ABCDEF ∧ pack 260 0x1234567 3 1 2 9 = 0x000020934D234567
      ∧ pack 107374182 0x3FFFFFF 15 1 2 15 = 0xCCCCCCDF7FFFFFFF := by decide

/-- The block at the end of a stop gap of 10400 with `F_ADDR = 0x155` (95 §2.6). -/
def frameEnd (repeats : BitVec 8) (base : BitVec 26) (busy : Bool) : State :=
  { atDuration 147 10400 with fAddr := 0x155, bAddr := base, repeats := repeats, inCallback := busy }

/-- The event, `STATE`, `IN_CALLBACK`, then `REPEATS`, `B_ADDR`, `OUT_FRAME` and the events emitted, after it. -/
def frameResult (s : State) : Option (List EdgeEvent × Int × Bool × List Nat) :=
  (nextOf (exec (.edge 10660) s)).map fun t =>
    (t.trace, t.index, t.inCallback, [t.repeats.toNat, t.bAddr.toNat, t.outFrame.toNat] ++ t.dispatches.map BitVec.toNat)

/-- 95 §2.6: the rows of the aggregation table. -/
theorem test_aggregation :
    [frameEnd 1 0x155 false, frameEnd 1 0x155 true, frameEnd 0 0x155 false, frameEnd 5 0x156 false].map frameResult
    = [some ([.dispatch], -1, true, [2, 0x155, 0x0000208000000155, 0x0000208000000155]),
      some ([.suppressed], -1, true, [2, 0x155, 0]), some ([.frameRepeat], 0, false, [1, 0x155, 0]),
      some ([.frameRepeat], 0, false, [1, 0x155, 0])] := by decide

/-- 95 §2.7: `RECEIVING` for threshold states 0, 1, 5 and 146. -/
theorem test_receiving :
    ([0x1FF, 0, 1, 5, 146, 147] : List SeqWord).map (fun x => [0, 1, 5, 146].map fun r => (cal x 0 0 0).receivingAbove r)
      = [[false, false, false, false], [false, false, false, false], [true, false, false, false],
         [true, true, false, false], [true, true, true, false], [true, true, true, true]] := by decide

/-- R233: the boot order; R220: the consumer's duty; R219: the edge source's duty. -/
theorem test_duties :
    bootOrderKept [.init 2, .edge 4800] = true ∧ bootOrderKept [.init 2, .edge 4801] = false
      ∧ bootOrderKept [.edge 0, .init 2] = false ∧ bootOrderKept [.nop, .init 2, .edge 0] = true
      ∧ State.consumerKeepsDuty { State.reset with inCallback := true, pending := [⟨.consumer, encode .enable⟩] } = false
      ∧ State.consumerKeepsDuty { State.reset with inCallback := true, pending := [⟨.host, encode .enable⟩] } = true
      ∧ timesKept [5, 5, 4294967300] = true ∧ timesKept [5, 4294967301] = false ∧ timesKept [5, 4] = false := by decide

/-- R11: the observation of a run, one entry a step. -/
theorem test_observation :
    (observeRun 2 { frameEnd 1 0x155 false with pending := commandsOf .edgeSource [.edge 10660] ++ commandsOf .consumer [.cbDone] }).map
        (fun o => (o.dispatches, o.inCallback))
      = [([0x0000208000000155], true), ([0x0000208000000155], false)] := by decide

/-! ### Witnesses: the hypotheses of each statement are met together

One theorem for each statement that has hypotheses, its clauses at boundary values. -/

theorem witness_OpcodeSelectsCommand :
    ([0x000000000, 0x1FFFFFFFF, 0x2000000FF, 0x300000000, 0x4FFFFFFFF, 0x500000000, 0x600000000, 0x700000000,
      0x800000000, 0x900000000, 0xA00000000, 0xB00000000, 0xC00000000, 0xD00000000, 0xE00000000,
      0xFFFFFFFFF] : List CmdWord).map (fun w => w.extractLsb' 32 4)
    = [0, 1, 2, 3, 4, 5, 6, 7, 8, 9, 10, 11, 12, 13, 14, 15] := by decide

theorem witness_UnusedBitsIgnored :
    let w : CmdWord := 0x2FFFFFF03
    let w' : CmdWord := 0x200000003
    (w.extractLsb' 32 4 = w'.extractLsb' 32 4 ∧ w.extractLsb' 32 4 ≠ 0x1
        ∧ (w.extractLsb' 32 4 = 0x2 → w.extractLsb' 0 8 = w'.extractLsb' 0 8))
      ∧ (∀ ts, Instr.cbDone ≠ .edge ts) ∧ ∀ n, Instr.cbDone ≠ .init n :=
  ⟨by decide, nofun, nofun⟩

theorem witness_OpcodeTablePartition : (⟨"EDGE", 0x100000000, 0xF00000000⟩ : OpcodeRow) ∈ opcodeTable := by decide

theorem witness_StepExecutesNextCommand :
    (∃ c rest, ({ State.reset with pending := commandsOf .host [.init 2] } : State).pending = c :: rest)
      ∧ State.reset.pending = [] := ⟨⟨_, _, rfl⟩, rfl⟩

theorem witness_StopsOnlyOnUnwrittenValues :
    exec (.edge 400) (cal 148 0 0 0) = .fault .illegalSequencerState
      ∧ exec (.edge 10660) { atDuration 147 10400 with fSwitch := 3 } = .fault .illegalSwitchType
      ∧ exec (.edge 1560) { partAt 129 0b0000 1300 with fSwitch := 3 } = .fault .illegalSwitchType
      ∧ (let s := cal 0x1FE 0 0 0;
        s.enabled = true ∧ s.skip = false ∧ (s.index < -1 ∨ 147 < s.index))
      ∧ (let s : State := { partAt 129 0b0000 1300 with fSwitch := 3 };
        s.Measures 1560 ∧ s.index = 129 ∧ s.fSwitch = 3 ∧ classOf (s.ts2 - s.ts0) s = some true
          ∧ shl s.acc true = 0b0001)
      ∧ (let s : State := { atDuration 147 5200 with fSwitch := 3 };
        s.Measures 5460 ∧ s.index = 147 ∧ s.fSwitch = 3 ∧ 20 * s.period.toNat ≤ s.measured
          ∧ s.measured ≤ 80 * s.period.toNat) := ⟨rfl, rfl, rfl, by decide, by decide, by decide⟩

/-- A decoding block with the invariant whose next command is an edge. -/
def running : State := { atDuration 0 260 with pending := commandsOf .edgeSource [.edge 2974] }

theorem witness_StepKeepsInv : running.Inv ∧ ∃ t, step running = .next t := ⟨by decide, _, rfl⟩

theorem witness_RunNeverStops : running.Inv := by decide

theorem witness_NopAndReservedChangeNothing :
    (let s : State := { cal 57 1 2 3 with pending := [⟨.host, 0xF12345678⟩, ⟨.host, 0x0FFFFFFFF⟩] };
      s.pending = ⟨.host, 0xF12345678⟩ :: [⟨.host, 0x0FFFFFFFF⟩])
      ∧ 6 ≤ ((0xF12345678 : CmdWord).extractLsb' 32 4).toNat ∧ 6 ≤ ((0x600000000 : CmdWord).extractLsb' 32 4).toNat
      ∧ (0x0FFFFFFFF : CmdWord).extractLsb' 32 4 = 0x0 := by decide

theorem witness_InitResetsEveryRegister : (0x2FFFFFF03 : CmdWord).extractLsb' 32 4 = 0x2 := by decide

theorem witness_EnableRestartsSearch :
    (0x3000000FF : CmdWord).extractLsb' 32 4 = 0x3 ∧ ∃ t, exec .enable (cal 57 1 2 3) = .next t := ⟨by decide, _, rfl⟩

theorem witness_DisableClearsEnabled : (0x4000000FF : CmdWord).extractLsb' 32 4 = 0x4 := by decide

theorem witness_DisabledBlockIgnoresEdges :
    let s : State := { cal 5 1 2 3 with
      enabled := false, pending := commandsOf .edgeSource ([260, 520].map .edge) ++ commandsOf .host [.enable] }
    s.enabled = false
      ∧ s.pending = commandsOf .edgeSource (([260, 520] : List Timestamp).map .edge) ++ commandsOf .host [.enable] :=
  ⟨rfl, rfl⟩

theorem witness_CbDoneClearsGuard :
    (0x5FFFFFFFF : CmdWord).extractLsb' 32 4 = 0x5 ∧ (cal 57 1 2 3).inCallback = false := by decide

theorem witness_ReceivingFollowsState : (cal 0x1FF 0 0 0).index = -1 ∧ (cal 147 0 0 0).index = 147 := by decide

theorem witness_DisableActsFromNextEdge :
    ∃ s : State, s.pending = ⟨.host, encode .disable⟩ :: ⟨.edgeSource, encode (.edge 3000)⟩ :: []
      ∧ ∃ t, exec (.edge 3000) { s with pending := ⟨.host, encode .disable⟩ :: [] } = .next t :=
  ⟨{ cal 5 1 2 3 with pending := [⟨.host, encode .disable⟩, ⟨.edgeSource, encode (.edge 3000)⟩] }, rfl, _, rfl⟩

theorem witness_DisabledEdgeHasNoEffect : State.reset.enabled = false := by decide

theorem witness_SkippedEdgeOnlyClearsSkip :
    let s : State := { cal 5 100 200 300 with skip := true }
    s.enabled = true ∧ s.skip = true := by decide

theorem witness_NoiseFilterRejects :
    (let s := cal 0 100 200 300;
      s.enabled = true ∧ s.skip = false ∧ 0 ≤ s.index ∧ s.index ≤ 147 ∧ ((377 : Timestamp) - s.ts2).toNat < s.min1.toNat
        ∧ s.Calibrated)
      ∧ (let s := cal 147 100 200 300;
        s.enabled = true ∧ s.skip = false ∧ 0 ≤ s.index ∧ s.index ≤ 147 ∧ ((377 : Timestamp) - s.ts2).toNat < s.min1.toNat)
      ∧ (let s := cal 0x1FF 100 200 300;
        s.enabled = true ∧ s.skip = false ∧ s.index = -1)
      ∧ ∃ t, exec (.edge 301) (cal 0x1FF 100 200 300) = .next t := ⟨by decide, by decide, by decide, _, rfl⟩

theorem witness_EnabledEdgeShiftsDelayLine :
    (cal 5 100 200 300).Inv ∧ (cal 5 100 200 300).enabled = true ∧ (cal 5 100 200 300).Measures 378
      ∧ ¬ (cal 5 100 200 300).Measures 377 := by decide

theorem witness_MeasuredEdgeRunsItsArm :
    ([0x1FF, 0, 1, 2, 145, 146, 147] : List SeqWord).map
        (fun x => decide ((cal x 100 200 300).Measures 378) && (armOf (cal x 100 200 300).index).isSome)
      = [true, true, true, true, true, true, true] := by decide

theorem witness_WrappedClockMeasuresTrueTime :
    let s : State := { State.reset with ts0 := BitVec.ofNat 32 4294967000, ts2 := BitVec.ofNat 32 4294967300 }
    timesKept [4294967000, 4294967300, 8589934595] = true ∧ s.ts0 = BitVec.ofNat 32 4294967000
      ∧ s.ts2 = BitVec.ofNat 32 4294967300 := by decide

theorem witness_EdgeFrame :
    (∃ t, exec (.edge 5000) (atDuration 0x1FF 4801) = .next t) ∧ (∃ t, exec (.edge 1560) (partAt 109 0b0010 1300) = .next t)
      ∧ (∃ t, exec (.edge 10660) (frameEnd 1 0x155 false) = .next t)
      ∧ (cal 0x1FF 0 0 0).index = -1 ∧ (cal 5 0 0 0).index = 5 ∧ (cal 105 0 0 0).index = 105
      ∧ (cal 147 0 0 0).index = 147 := ⟨⟨_, rfl⟩, ⟨_, rfl⟩, ⟨_, rfl⟩, by decide⟩

theorem witness_SequencerAdvance :
    (cal 147 0 0 0).SequencerLegal ∧ (cal 0x1FF 0 0 0).SequencerLegal
      ∧ (∃ t, exec (.edge 377) (cal 5 100 200 300) = .next t ∧ ¬ (cal 5 100 200 300).Measures 377)
      ∧ (∃ t, exec (.edge 10660) (frameEnd 0 0 false) = .next t ∧ (frameEnd 0 0 false).Measures 10660)
      ∧ (∃ t, exec (.init 2) (cal 5 100 200 300) = .next t) ∧ (∃ t, exec .enable (cal 5 100 200 300) = .next t)
      ∧ (∃ t, exec .cbDone (cal 5 100 200 300) = .next t) :=
  ⟨by decide, by decide, ⟨_, rfl, by decide⟩, ⟨_, rfl, by decide⟩, ⟨_, rfl⟩, ⟨_, rfl⟩, ⟨_, rfl⟩⟩

theorem witness_SearchArm :
    (let s := atDuration 0x1FF 4801;
      s.enabled = true ∧ s.skip = false ∧ s.index = -1 ∧ 4800 < s.measured)
      ∧ (let s := atDuration 0x1FF 4800;
        s.enabled = true ∧ s.skip = false ∧ s.index = -1 ∧ s.measured ≤ 4800) := by decide

theorem witness_CalibrationIsExact :
    let s := atDuration 0x1FF 4294967295
    s.enabled = true ∧ s.skip = false ∧ s.index = -1 ∧ 4800 < s.measured := by decide

theorem witness_CalibrationForgetsThePast :
    let s := atDuration 0x1FF 5000
    let s' := cal 0x1FF 1000 0 6000
    s.enabled = true ∧ s.skip = false ∧ s.index = -1 ∧ s'.enabled = true ∧ s'.skip = false ∧ s'.index = -1
      ∧ s.measured = s'.measured ∧ 4800 < s.measured ∧ s ≠ s' := by decide

theorem witness_FloorBelowFortyGivesPeriodZero :
    38 < (39 : Timestamp).toNat ∧ (39 : Timestamp).toNat < 40 ∧ (0 : Timestamp) = 0 ∧ (1 : Timestamp) ≠ 0 := by decide

theorem witness_StartHighArm :
    (let s := atDuration 0 780;
      s.Measures 1040 ∧ s.index = 0 ∧ s.measured ≤ s.max1.toNat ∧ s.CalibrationSound)
      ∧ (let s := atDuration 0 781;
        s.Measures 1041 ∧ s.index = 0 ∧ s.max1.toNat < s.measured ∧ s.CalibrationSound) := by decide

theorem witness_StartLowArm :
    ([1820, 3900] : List Timestamp).all (fun d => let s := atDuration 1 d
        decide (s.Measures (d + 260) ∧ s.index = 1 ∧ 7 * s.period.toNat ≤ s.measured ∧ s.measured ≤ 15 * s.period.toNat))
      ∧ ([1819, 3901] : List Timestamp).all (fun d => let s := atDuration 1 d
        decide (s.Measures (d + 260) ∧ s.index = 1
          ∧ (s.measured < 7 * s.period.toNat ∨ 15 * s.period.toNat < s.measured))) := by decide

theorem witness_StopHighArm :
    (let s := atDuration 146 780;
      s.Measures 1040 ∧ s.index = 146 ∧ s.measured ≤ s.max1.toNat ∧ s.CalibrationSound)
      ∧ (let s := atDuration 146 781;
        s.Measures 1041 ∧ s.index = 146 ∧ s.max1.toNat < s.measured ∧ s.CalibrationSound) := by decide

theorem witness_PulseClassifier :
    (cal 2 0 0 0).Calibrated ∧ ([(2, 77), (145, 2081)] : List (SeqWord × Timestamp)).all fun p =>
      let s := atDuration p.1 p.2
      decide (s.Measures (p.2 + 260) ∧ 2 ≤ s.index ∧ s.index ≤ 145
        ∧ ¬ (s.min1.toNat ≤ s.measured ∧ s.measured ≤ s.max1.toNat)
        ∧ ¬ (s.min5.toNat ≤ s.measured ∧ s.measured ≤ s.max5.toNat)) := by decide

theorem witness_PartBeforeTheFourth :
    ([(2, 260, false), (144, 1300, true)] : List (SeqWord × Timestamp × Bool)).all fun p =>
      let s := atDuration p.1 p.2.1
      decide (s.Measures (p.2.1 + 260) ∧ 2 ≤ s.index ∧ s.index ≤ 145 ∧ s.index % 4 ≠ 1
        ∧ classOf (s.ts2 - s.ts0) s = some p.2.2) := by decide

theorem witness_InvalidPatternResyncs :
    ([5, 145] : List SeqWord).all fun x => let s := partAt x 0b0111 1300
      decide (s.Measures 1560 ∧ 2 ≤ s.index ∧ s.index ≤ 145 ∧ s.index % 4 = 1 ∧ classOf (s.ts2 - s.ts0) s = some true
        ∧ shl s.acc true ≠ 0b0001 ∧ shl s.acc true ≠ 0b0100 ∧ shl s.acc true ≠ 0b0000) := by decide

/-- Both values of a bit at `x`: the symbol ONE by a short last part, ZERO by a long one. -/
def bothValues (x : SeqWord) (sw : BitVec 2) : Bool :=
  let s : State := { partAt x 0b0010 260 with fSwitch := sw }
  let s' : State := { partAt x 0b0000 1300 with fSwitch := sw }
  decide (s.Measures 520 ∧ classOf (s.ts2 - s.ts0) s = some false ∧ shl s.acc false = (if true then 0b0100 else 0b0001)
    ∧ s'.Measures 1560 ∧ classOf (s'.ts2 - s'.ts0) s' = some true
    ∧ shl s'.acc true = (if false then 0b0100 else 0b0001))

theorem witness_AddressBit :
    bothValues 5 0 = true ∧ bothValues 105 0 = true ∧ (cal 5 0 0 0).index = 5 ∧ (cal 105 0 0 0).index = 105 := by decide

theorem witness_GroupBit : bothValues 109 0 = true ∧ (cal 109 0 0 0).index = 109 := by decide

theorem witness_SwitchTypeBitAndDimMarker :
    bothValues 113 0 = true ∧ (cal 113 0 0 0).index = 113
      ∧ ([5, 113, 145] : List SeqWord).all (fun x => let s := partAt x 0b0000 260
        decide (s.Measures 520 ∧ classOf (s.ts2 - s.ts0) s = some false ∧ 2 ≤ s.index ∧ s.index ≤ 145 ∧ s.index % 4 = 1
          ∧ shl s.acc false = 0b0000)) ∧ (cal 5 0 0 0).index ≠ 113 := by decide

theorem witness_UnitBit :
    bothValues 117 0 = true ∧ bothValues 129 1 = true ∧ bothValues 129 2 = true ∧ (cal 117 0 0 0).index = 117
      ∧ (cal 129 0 0 0).index = 129 := by decide

theorem witness_DimBit :
    bothValues 133 2 = true ∧ bothValues 145 2 = true ∧ (cal 133 0 0 0).index = 133
      ∧ (cal 145 0 0 0).index = 145 := by decide

theorem witness_StopGapOutOfRange :
    ([5199, 20801] : List Timestamp).all fun d => let s := atDuration 147 d
      decide (s.Measures (d + 260) ∧ s.index = 147
        ∧ (s.measured < 20 * s.period.toNat ∨ 80 * s.period.toNat < s.measured)) := by decide

theorem witness_FrameBelowThreshold :
    (let s := frameEnd 0 0x155 false;
      s.FrameEnds 10660 ∧ s.repeats.toNat < 255 ∧ s.countAfter.toNat < s.minRepeats.toNat)
      ∧ (let s := frameEnd 5 0x156 true;
        s.FrameEnds 10660 ∧ s.repeats.toNat < 255 ∧ s.countAfter.toNat < s.minRepeats.toNat) := by decide

theorem witness_FrameDispatched :
    let s := frameEnd 1 0x155 false
    s.FrameEnds 10660 ∧ s.repeats.toNat < 255 ∧ s.minRepeats.toNat ≤ s.countAfter.toNat ∧ s.inCallback = false := by decide

theorem witness_FrameSuppressed :
    let s := frameEnd 1 0x155 true
    s.FrameEnds 10660 ∧ s.repeats.toNat < 255 ∧ s.minRepeats.toNat ≤ s.countAfter.toNat ∧ s.inCallback = true := by decide

theorem witness_ThresholdZeroActsAsOne :
    let s := frameEnd 254 0x155 false
    s.FrameEnds 10660 ∧ s.repeats.toNat < 255 := by decide

theorem witness_FrameWordFields :
    (134217727 : BitVec 32).toNat < 2 ^ 27 ∧ pack 134217727 1 2 1 1 3 = pack 134217727 1 2 1 1 3 := by decide

theorem witness_ResyncWritesStateOnly :
    ∃ t, exec (.edge 1560) (partAt 5 0b0111 1300) = .next t
      ∧ t.trace = (partAt 5 0b0111 1300).trace ++ [.resync .badPattern] ∧ t.acc ≠ (partAt 5 0b0111 1300).acc :=
  ⟨_, rfl, rfl, by decide⟩

/-- An edge that resyncs with the cause from a calibrated state. -/
def Resyncs (s : State) (ts : Timestamp) (c : ResyncCause) : Prop :=
  s.CalibrationSound ∧ ∃ t, exec (.edge ts) s = .next t ∧ t.trace = s.trace ++ [.resync c]

theorem witness_ResyncCauses :
    Resyncs (atDuration 0 781) 1041 .startHiLong ∧ Resyncs (atDuration 1 1819) 2079 .startLoRange
      ∧ Resyncs (atDuration 2 77) 337 .partRange ∧ Resyncs (partAt 5 0b0111 1300) 1560 .badPattern
      ∧ Resyncs (partAt 145 0b0000 260) 520 .dimMisplaced ∧ Resyncs (atDuration 146 781) 1041 .stopHiLong
      ∧ Resyncs (atDuration 147 20801) 21061 .stopLoRange :=
  ⟨⟨by decide, _, rfl, rfl⟩, ⟨by decide, _, rfl, rfl⟩, ⟨by decide, _, rfl, rfl⟩, ⟨by decide, _, rfl, rfl⟩,
    ⟨by decide, _, rfl, rfl⟩, ⟨by decide, _, rfl, rfl⟩, ⟨by decide, _, rfl, rfl⟩⟩

theorem witness_OneEventPerEdge :
    (∃ t, exec (.edge 378) (cal 5 100 200 300) = .next t) ∧ (∀ ts, Instr.cbDone ≠ .edge ts)
      ∧ ∃ t, exec .cbDone (cal 5 100 200 300) = .next t := ⟨⟨_, rfl⟩, nofun, _, rfl⟩

theorem witness_DispatchOnlyAtThreshold :
    (∃ t, step { frameEnd 1 0x155 false with pending := commandsOf .edgeSource [.edge 10660] } = .next t
        ∧ t.dispatches ≠ [])
      ∧ ∃ t, step running = .next t ∧ t.dispatches = running.dispatches := ⟨⟨_, rfl, by decide⟩, _, rfl, rfl⟩

theorem witness_GuardHeldUntilAnswered :
    ∃ s t : State, s.inCallback = true
      ∧ (∀ c ∈ s.pending.take 2, decodeWord c.word ≠ .cbDone ∧ ∀ n, decodeWord c.word ≠ .init n)
      ∧ Sys2Proof.core.run 2 s = .next t := by
  refine ⟨{ frameEnd 1 0x155 true with
    pending := commandsOf .edgeSource [.edge 10660] ++ commandsOf .host [.enable] ++ commandsOf .consumer [.cbDone] },
    _, rfl, ?_, rfl⟩
  intro c hc
  have h : c = ⟨.edgeSource, encode (.edge 10660)⟩ ∨ c = ⟨.host, encode .enable⟩ := by
    simpa [commandsOf] using hc
  obtain rfl | rfl := h <;> exact ⟨by decide, by decide⟩

/-- 95 §3 P2: the glitch of 50 after the edge 14914, the block at `STATE` 4 after the edge 14414. -/
theorem witness_GlitchLeavesNoTrace :
    let s := cal 4 14154 14154 14414
    s.Inv ∧ s.enabled = true ∧ s.skip = false ∧ 0 ≤ s.index ∧ s.min1.toNat ≤ ((14914 : Timestamp) - s.ts2).toNat
      ∧ (∃ s1, exec (.edge 14914) s = .next s1 ∧ 0 ≤ s1.index)
      ∧ ((14964 : Timestamp) - 14914).toNat < s.min1.toNat ∧ s.min1.toNat ≤ ((15974 : Timestamp) - 15714).toNat
      ∧ ((14914 : Timestamp) - s.ts2).toNat + ((14964 : Timestamp) - 14914).toNat
          + ((15714 : Timestamp) - 14964).toNat < 2 ^ 32 :=
  ⟨by decide, rfl, rfl, by decide, by decide, ⟨_, rfl, by decide⟩, by decide, by decide, by decide⟩

theorem witness_ShortIntervalsLockTheBlock :
    let s : State := { cal 1 100 200 300 with
      pending := commandsOf .edgeSource (([377, 400, 477] : List Timestamp).map .edge) ++ commandsOf .host [.enable] }
    s.enabled = true ∧ 0 ≤ s.index ∧ s.index ≤ 147 ∧ closerThan s.min1.toNat s.ts2 [377, 400, 477] = true
      ∧ s.pending = commandsOf .edgeSource (([377, 400, 477] : List Timestamp).map .edge) ++ commandsOf .host [.enable] :=
  ⟨rfl, by decide, by decide, by decide, rfl⟩

theorem witness_StaleDelayLineAfterInit :
    (∀ n : BitVec 8, ∀ a b c : Timestamp, ∃ s : State,
        s.pending = commandsOf .host [.init n] ++ commandsOf .edgeSource [.edge a, .edge b, .edge c])
      ∧ 4800 < (4801 : Timestamp).toNat
      ∧ ((4800 : Timestamp).toNat ≤ 4800 ∧ 4800 < ((9601 : Timestamp) - 4800).toNat)
      ∧ ((4800 : Timestamp).toNat ≤ 4800 ∧ ((9600 : Timestamp) - 4800).toNat ≤ 4800) :=
  ⟨fun n a b c => ⟨{ State.reset with
      pending := commandsOf .host [.init n] ++ commandsOf .edgeSource [.edge a, .edge b, .edge c] }, rfl⟩,
    by decide, by decide, by decide⟩

theorem witness_DispatchOnNthFrame :
    let s := cal 147 0 0 0
    s.repeats = 0 ∧ s.inCallback = false ∧ 1 ≤ s.minRepeats.toNat ∧ 1 < s.minRepeats.toNat ∧ 2 = s.minRepeats.toNat := by
  decide

/-- 95 §3 P5: frames that differ in the switch type only, with `INIT 3`. -/
theorem witness_ChangeResetsCounting :
    let s : State := { cal 147 0 0 0 with minRepeats := 3 }
    (⟨0x2AAAAAA, 1, 0, 0, 1⟩ : Frame) ≠ ⟨0x2AAAAAA, 1, 0, 0, 0⟩ ∧ s.repeats = 0 ∧ 2 ≤ s.minRepeats.toNat := by decide

/-- 95 §3 P4: the Dim frame, `T = 260` at `PERIOD = 260`, from the edge that synchronises. -/
theorem witness_FrameRoundTrip :
    ∃ s : State, s.Inv ∧ s.enabled = true ∧ s.skip = false ∧ s.index = 0 ∧ s.ts0 = s.ts1
      ∧ s.ts2 = s.ts1 + BitVec.ofNat 32 260
      ∧ 7 * s.period.toNat ≤ 1044 * 260 / 100 ∧ 1044 * 260 / 100 ≤ 15 * s.period.toNat ∧ 40 * 260 < 2 ^ 32
      ∧ s.min1.toNat ≤ 150 ∧ 150 < 2 ^ 32
      ∧ s.pending = commandsOf .edgeSource
        ((edgesFrom s.ts2.toNat ((pulsesFrame 260 0x1234567 1 (.dim 9) 3).tail ++ [150])).map edgeAt) ++ [] :=
  ⟨{ cal 0 10660 10660 10920 with
      pending := commandsOf .edgeSource
        ((edgesFrom 10920 ((pulsesFrame 260 0x1234567 1 (.dim 9) 3).tail ++ [150])).map edgeAt) ++ [] },
    by decide, rfl, rfl, by decide, rfl, by decide, by decide, by decide, by decide, by decide, by decide, rfl⟩

end Sys2Proof.Tests
end

/-! SUPPORT. The step rules of the invariant (R21, R28, R30, R33, R36, R41, R143): each shared operation keeps it, hence
every `EDGE`, every command and every step; and under it no command stops (R12, R204). -/

namespace Sys2Proof.Machine

variable {s t : State} {ts : Timestamp}

/-! ### The invariant, split by what `STATE` is -/

/-- What the invariant says of the registers whatever `STATE` holds. -/
structure State.RegistersSound (s : State) : Prop where
  fSwitch : s.fSwitch ≠ 3
  bSwitch : s.bSwitch ≠ 3
  period : s.period.toNat ≤ 107374182
  repeats : s.repeats.toNat ≤ max s.minRepeats.toNat 1
  guard : s.GuardSound

/-- What the invariant adds while the block is decoding. -/
structure State.DecodingSound (s : State) : Prop where
  legal : 0 ≤ s.index ∧ s.index ≤ 147
  dim : 130 ≤ s.index ∧ s.index ≤ 145 → s.fSwitch = 2
  calibrated : s.Calibrated
  count : s.repeats.toNat < max s.minRepeats.toNat 1

theorem State.Inv.registersSound (h : s.Inv) : s.RegistersSound := by
  obtain ⟨_, ⟨hf, hb, _⟩, ⟨hp, _⟩, ⟨hr, _⟩, hg, _⟩ := h
  exact ⟨hf, hb, hp, hr, hg⟩

theorem State.Inv.decodingSound (h : s.Inv) (hx : 0 ≤ s.index) : s.DecodingSound := by
  obtain ⟨⟨_, hx'⟩, ⟨_, _, hd⟩, ⟨_, hp⟩, ⟨_, hr⟩, _, _⟩ := h
  exact ⟨⟨hx, hx'⟩, hd, hp hx, hr hx⟩

/-- A searching block has the invariant when its registers are sound and nothing is to be skipped. -/
theorem State.RegistersSound.inv_of_searching (h : s.RegistersSound) (hx : s.index = -1) (hk : s.skip = false) :
    s.Inv := by
  have hn : ¬ 0 ≤ s.index := by omega
  refine ⟨by omega, ⟨h.fSwitch, h.bSwitch, fun hd => by omega⟩, ⟨h.period, fun h0 => absurd h0 hn⟩,
    ⟨h.repeats, fun h0 => absurd h0 hn⟩, h.guard, fun hs => ?_⟩
  rw [hk] at hs
  cases hs

/-- A decoding block has the invariant when its registers are sound, those of decoding too. -/
theorem State.RegistersSound.inv_of_decoding (h : s.RegistersSound) (hd : s.DecodingSound) : s.Inv := by
  have hx := hd.legal
  exact ⟨by omega, ⟨h.fSwitch, h.bSwitch, hd.dim⟩, ⟨h.period, fun _ => hd.calibrated⟩, ⟨h.repeats, fun _ => hd.count⟩,
    h.guard, fun _ => hx.1⟩

/-! ### What the operations keep

The invariant reads neither the delay line, the trace, `ACC` nor a field but the switch type: the operations that write
these alone keep it as it stands. -/

theorem State.Inv.measuredAt (h : s.Inv) : (s.measuredAt ts).Inv := h
theorem State.Inv.shiftDelay (h : s.Inv) : (s.shiftDelay ts).Inv := h
theorem State.Inv.note (h : s.Inv) (e : EdgeEvent) : (s.note e).Inv := h
theorem State.Inv.shiftAcc (h : s.Inv) (b : Bool) : (s.shiftAcc b).Inv := h
theorem State.Inv.shiftAddr (h : s.Inv) (v : Bool) : (s.shiftAddr v).Inv := h
theorem State.Inv.setGroup (h : s.Inv) (v : Bool) : (s.setGroup v).Inv := h
theorem State.Inv.shiftUnit (h : s.Inv) (v : Bool) : (s.shiftUnit v).Inv := h
theorem State.Inv.shiftDim (h : s.Inv) (v : Bool) : (s.shiftDim v).Inv := h

theorem State.Inv.consumeSkip (h : s.Inv) : s.consumeSkip.Inv := by
  obtain ⟨hx, hs, hp, hr, hg, _⟩ := h
  exact ⟨hx, hs, hp, hr, hg, nofun⟩

theorem State.Inv.rejectNoise (h : s.Inv) (h0 : 0 ≤ s.index) : s.rejectNoise.Inv := by
  obtain ⟨hx, hs, hp, hr, hg, _⟩ := h
  exact ⟨hx, hs, hp, hr, hg, fun _ => h0⟩

theorem State.Inv.dispatchReturn (h : s.Inv) : s.dispatchReturn.Inv := by
  obtain ⟨hx, hs, hp, hr, _, hk⟩ := h
  exact ⟨hx, hs, hp, hr, nofun, hk⟩

theorem State.Inv.raiseResync (h : s.Inv) (hk : s.skip = false) (c : ResyncCause) : (s.raiseResync c).Inv := by
  obtain ⟨hf, hb, hp, hr, hg⟩ := h.registersSound
  have hs : (s.raiseResync c).RegistersSound := ⟨hf, hb, hp, hr, hg⟩
  exact hs.inv_of_searching (State.index_raiseResync c s) hk

/-- A decoding block may take any decoding index, one of the dim parts in a Dim frame only (R143). -/
theorem State.Inv.advanceTo (h : s.Inv) (h0 : 0 ≤ s.index) {x : SeqWord} (hx : 0 ≤ x.toInt ∧ x.toInt ≤ 147)
    (hd : 130 ≤ x.toInt ∧ x.toInt ≤ 145 → s.fSwitch = 2) : (s.advanceTo x).Inv := by
  obtain ⟨hf, hb, hp, hr, hg⟩ := h.registersSound
  obtain ⟨_, _, hc, hn⟩ := h.decodingSound h0
  have hs : (s.advanceTo x).RegistersSound := ⟨hf, hb, hp, hr, hg⟩
  exact hs.inv_of_decoding ⟨hx, hd, hc, hn⟩

/-- The fixed successors, none of them a dim part (R126, R128, R142, R147). -/
theorem State.Inv.advanceTo_fixed (h : s.Inv) (h0 : 0 ≤ s.index) {x : SeqWord} (hx : x ∈ [1, 2, 146, 147]) :
    (s.advanceTo x).Inv := by
  have key : ∀ x ∈ ([1, 2, 146, 147] : List SeqWord),
      (0 ≤ x.toInt ∧ x.toInt ≤ 147) ∧ ¬ (130 ≤ x.toInt ∧ x.toInt ≤ 145) := by decide
  obtain ⟨hl, hd⟩ := key x hx
  exact h.advanceTo h0 hl fun hx' => absurd hx' hd

/-- A part passed: the dim parts are entered from 129 in a Dim frame only (R142, R143). -/
theorem State.Inv.advance (h : s.Inv) (hx : 0 ≤ s.index ∧ s.index < 147) (hd : s.index = 129 → s.fSwitch = 2) :
    s.advance.Inv := by
  have ha : (s.state + 1).toInt = s.index + 1 := State.index_advance (by omega)
  have hdim := (h.decodingSound hx.1).dim
  refine h.advanceTo hx.1 (by omega) fun hr => ?_
  by_cases h129 : s.index = 129
  · exact hd h129
  · exact hdim (by omega)

theorem switchOf_ne_three (sym : Symbol) : switchOf sym ≠ 3 := by cases sym <;> decide

/-- The switch type is written before the dim parts (R141). -/
theorem State.Inv.setSwitch (h : s.Inv) (hx : s.index = 113) (sym : Symbol) : (s.setSwitch sym).Inv := by
  obtain ⟨hl, ⟨_, hb, _⟩, hp, hr, hg, hk⟩ := h
  exact ⟨hl, ⟨switchOf_ne_three sym, hb, fun hd => by rw [State.index_setSwitch] at hd; omega⟩, hp, hr, hg, hk⟩

/-! ### Calibration -/

theorem periodOf_le (d : Timestamp) : periodOf d ≤ 107374182 := by
  have := d.isLt
  rw [periodOf_eq]
  omega

/-- No calibrated register truncates: the period is below 2^27 and its eightfold below 2^32 (R28). -/
theorem State.calibrate_registers (d : Timestamp) (s : State) :
    (s.calibrate d).period.toNat = periodOf d ∧ (s.calibrate d).min1.toNat = min1Of (periodOf d)
      ∧ (s.calibrate d).max1.toNat = max1Of (periodOf d) ∧ (s.calibrate d).min5.toNat = min5Of (periodOf d)
      ∧ (s.calibrate d).max5.toNat = max5Of (periodOf d) := by
  have hp := periodOf_le d
  simp only [State.calibrate_period, State.calibrate_min1, State.calibrate_max1, State.calibrate_min5,
    State.calibrate_max5, BitVec.toNat_ofNat, min1Of_eq, max1Of_eq, min5Of_eq, max5Of_eq]
  omega

/-- A gap above the sync floor gives a period of at least 120 (R115). -/
theorem State.calibrated_calibrate {d : Timestamp} (hd : 4800 < d.toNat) (s : State) : (s.calibrate d).Calibrated := by
  obtain ⟨hp, h1, h2, h3, h4⟩ := s.calibrate_registers d
  have : 120 ≤ periodOf d := by rw [periodOf_eq]; omega
  unfold State.Calibrated
  rw [hp]
  exact ⟨this, h1, h2, h3, h4⟩

theorem State.Inv.calibrate (h : s.Inv) {d : Timestamp} (hd : 4800 < d.toNat) : (s.calibrate d).Inv := by
  obtain ⟨hf, hb, _, _, hg⟩ := h.registersSound
  have hp : (s.calibrate d).period.toNat ≤ 107374182 := (s.calibrate_registers d).1 ▸ periodOf_le d
  have hcount : (s.calibrate d).repeats.toNat < max s.minRepeats.toNat 1 := lt_max_of_lt_right Nat.zero_lt_one
  have hs : (s.calibrate d).RegistersSound := ⟨hf, hb, hp, hcount.le, hg⟩
  exact hs.inv_of_decoding ⟨by simp, by simp, State.calibrated_calibrate hd s, hcount⟩

/-! ### The completed frame -/

/-- Counting one more frame stays within the bound, without wrapping: the count of a decoding block is below it (R36). -/
theorem State.DecodingSound.countFrame_repeats_le (hd : s.DecodingSound) :
    s.compareBaseline.countFrame.repeats.toNat ≤ max s.minRepeats.toNat 1 := by
  have hc := hd.count
  have hm := s.minRepeats.isLt
  rw [State.countFrame_repeats, State.compareBaseline_repeats]
  split
  · rw [BitVec.toNat_add]
    exact (Nat.mod_le _ _).trans hc
  · exact le_max_right _ _

theorem State.Inv.registersSound_countFrame (h : s.Inv) (h0 : 0 ≤ s.index) :
    s.compareBaseline.countFrame.RegistersSound := by
  obtain ⟨hf, hb, hp, hr, hg⟩ := h.registersSound
  have hcount := (h.decodingSound h0).countFrame_repeats_le
  refine ⟨?_, ?_, ?_, ?_, ?_⟩
  · simpa using hf
  · simpa using hf
  · simpa using hp
  · simpa only [State.countFrame_minRepeats, State.compareBaseline_minRepeats] using hcount
  · simpa [State.GuardSound] using hg

theorem State.RegistersSound.suppressDispatch (h : s.RegistersSound) (hk : s.skip = false) :
    s.suppressDispatch.Inv := by
  obtain ⟨hf, hb, hp, hr, hg⟩ := h
  have hs : s.suppressDispatch.RegistersSound := ⟨hf, hb, hp, hr, hg⟩
  exact hs.inv_of_searching (State.index_suppressDispatch s) hk

/-- Dispatch entry emits the very word it puts in `OUT_FRAME` (R41, R210). -/
theorem State.RegistersSound.dispatchEntry (h : s.RegistersSound) (hk : s.skip = false) : s.dispatchEntry.Inv := by
  obtain ⟨hf, hb, hp, hr, _⟩ := h
  have hs : s.dispatchEntry.RegistersSound := ⟨hf, hb, hp, hr, fun _ => by simp⟩
  exact hs.inv_of_searching (State.index_dispatchEntry s) hk

/-- Below the threshold the block decodes on with a count below the bound (R168). -/
theorem State.RegistersSound.awaitRepeat (h : s.RegistersSound) (hc : s.Calibrated) (hr : s.thresholdReached = false) :
    s.awaitRepeat.Inv := by
  obtain ⟨hf, hb, hp, hle, hg⟩ := h
  have hlt : s.repeats.toNat < s.minRepeats.toNat := by
    by_contra hn
    rw [(State.thresholdReached_iff s).2 (by omega)] at hr
    cases hr
  have hs : s.awaitRepeat.RegistersSound := ⟨hf, hb, hp, hle, hg⟩
  exact hs.inv_of_decoding ⟨by simp, by simp, hc, lt_max_of_lt_left hlt⟩

theorem State.Inv.calibrated_countFrame (h : s.Inv) (h0 : 0 ≤ s.index) : s.compareBaseline.countFrame.Calibrated := by
  simpa [State.Calibrated] using (h.decodingSound h0).calibrated

/-! ### A command keeps the invariant -/

/-- A completed bit keeps the invariant: only the last unit bit reaches the dim parts, and in a Dim frame (R142). -/
theorem BitOutcome.inv {sym : Symbol} (h : s.Inv) (hk : s.skip = false) (hx : 2 ≤ s.index ∧ s.index ≤ 145)
    (hb : BitOutcome sym s (.next t)) : t.Inv := by
  have hr : 0 ≤ s.index ∧ s.index < 147 := by omega
  cases hb with
  | misplaced => exact h.raiseResync hk _
  | switch h113 => exact (h.setSwitch h113 sym).advance hr fun (h129 : s.index = 129) => by omega
  | addr v _ hi => exact (h.shiftAddr v).advance hr fun (h129 : s.index = 129) => by omega
  | group v _ hi => exact (h.setGroup v).advance hr fun (h129 : s.index = 129) => by omega
  | unit v _ _ hi => exact (h.shiftUnit v).advance hr fun (h129 : s.index = 129) => by omega
  | lastUnitDim v _ _ h2 => exact (h.shiftUnit v).advance hr fun _ => h2
  | lastUnit v => exact (h.shiftUnit v).advanceTo_fixed hr.1 (by decide)
  | dim v _ hi => exact (h.shiftDim v).advance hr fun (h129 : s.index = 129) => by omega

theorem State.FrameEnds.index_nonneg (hm : s.FrameEnds ts) : 0 ≤ s.index := by
  obtain ⟨_, hx, _⟩ := hm
  omega

theorem State.Measures.skip_eq_false (hm : s.Measures ts) : s.skip = false := hm.2.1

theorem EdgeNext.inv (h : s.Inv) (hn : EdgeNext ts s t) : t.Inv := by
  have hma : (s.measuredAt ts).Inv := h.measuredAt
  cases hn with
  | disabled => exact h.note _
  | skipped => exact h.shiftDelay.consumeSkip
  | noise _ _ hx => exact h.shiftDelay.rejectNoise hx.1
  | ignored => exact hma.note _
  | sync _ _ hd => exact hma.calibrate hd
  | startHiLong hm => exact hma.raiseResync hm.skip_eq_false _
  | startHi hm hx => exact hma.advanceTo_fixed (by simp [hx]) (by decide)
  | startLoRange hm => exact hma.raiseResync hm.skip_eq_false _
  | startLo hm hx => exact hma.advanceTo_fixed (by simp [hx]) (by decide)
  | partRange hm => exact hma.raiseResync hm.skip_eq_false _
  | part b hm hx h4 =>
    have hr : 0 ≤ s.index ∧ s.index < 147 := by omega
    exact (hma.shiftAcc b).advance hr fun (h129 : s.index = 129) => by omega
  | badPattern b hm => exact (hma.shiftAcc b).raiseResync hm.skip_eq_false _
  | bit b sym hm hx _ _ _ _ hu => exact hu.inv (hma.shiftAcc b) hm.skip_eq_false hx
  | stopHiLong hm => exact hma.raiseResync hm.skip_eq_false _
  | stopHi hm hx => exact hma.advanceTo_fixed (by simp [hx]) (by decide)
  | stopLoRange hm => exact hma.raiseResync hm.skip_eq_false _
  | frameRepeat hm hr =>
    have h0 := hm.index_nonneg
    exact (hma.registersSound_countFrame h0).awaitRepeat (hma.calibrated_countFrame h0) hr
  | dispatch hm => exact (hma.registersSound_countFrame hm.index_nonneg).dispatchEntry (by simpa using hm.1.skip_eq_false)
  | suppressed hm => exact (hma.registersSound_countFrame hm.index_nonneg).suppressDispatch (by simpa using hm.1.skip_eq_false)

theorem State.inv_reset : State.reset.Inv := by decide

theorem State.inv_initialised (n : BitVec 8) (s : State) : (s.initialised n).Inv := by
  obtain ⟨hf, hb, hp, _, _⟩ := State.inv_reset.registersSound
  have hs : (s.initialised n).RegistersSound := ⟨hf, hb, hp, Nat.zero_le _, nofun⟩
  exact hs.inv_of_searching (show State.reset.index = -1 by decide) rfl

/-- `ENABLE` (R184). -/
theorem State.Inv.restartSearch (h : s.Inv) : ({ s with enabled := true, state := 0x1FF, skip := false } : State).Inv := by
  obtain ⟨hf, hb, hp, hr, hg⟩ := h.registersSound
  have hs : ({ s with enabled := true, state := 0x1FF, skip := false } : State).RegistersSound := ⟨hf, hb, hp, hr, hg⟩
  exact hs.inv_of_searching (by show BitVec.toInt 0x1FF#9 = -1; rfl) rfl

/-- Every command keeps the invariant; `DISABLE`, `NOP` and the reserved commands write nothing that it reads. -/
theorem exec_inv {i : Instr} (h : s.Inv) (he : exec i s = .next t) : t.Inv := by
  cases i with
  | edge ts => exact (execEdge_next he).inv h
  | init n => cases he; exact State.inv_initialised n s
  | enable => cases he; exact h.restartSearch
  | cbDone => cases he; exact h.dispatchReturn
  | _ => cases he; exact h

/-! ### Under the invariant no command stops -/

/-- The fault of a unit bit needs `F_SWITCH = 3`. -/
theorem BitOutcome.progress {sym : Symbol} {o : Host.Outcome State Fault Refusal} (h3 : s.fSwitch ≠ 3)
    (hb : BitOutcome sym s o) : ∃ t, o = .next t := by
  cases hb with
  | lastUnitIllegal _ h => exact absurd h h3
  | _ => exact ⟨_, rfl⟩

theorem PartOutcome.progress {d : Timestamp} {o : Host.Outcome State Fault Refusal} (h3 : s.fSwitch ≠ 3)
    (hp : PartOutcome d s o) : ∃ t, o = .next t := by
  cases hp with
  | bit b sym => exact (completeBit_cases sym (s.shiftAcc b)).progress (s := s.shiftAcc b) h3
  | _ => exact ⟨_, rfl⟩

theorem stopLo_progress (d : Timestamp) (h3 : s.fSwitch ≠ 3) : ∃ t, stopLo d s = .next t := by
  rcases stopLo_cases d s with ⟨_, h, _⟩ | ⟨_, _, he⟩ | ⟨_, he⟩
  · exact absurd h h3
  · exact ⟨_, he⟩
  · exact ⟨_, he⟩

theorem runArm_progress (a : Arm) (d : Timestamp) (h3 : s.fSwitch ≠ 3) : ∃ t, runArm a d s = .next t := by
  cases a with
  | part => exact (part_cases d s).progress h3
  | stopLo => exact stopLo_progress d h3
  | _ => exact ⟨_, rfl⟩

/-- An `EDGE` meets neither value that no rule writes (U12): a `STATE` without an arm or `F_SWITCH = 3`. -/
theorem execEdge_progress (ts : Timestamp) (hl : s.SequencerLegal) (h3 : s.fSwitch ≠ 3) :
    ∃ t, execEdge ts s = .next t := by
  have hc := execEdge_cases ts s
  generalize execEdge ts s = o at hc ⊢
  cases hc with
  | illegal _ _ ha => obtain ⟨_, _⟩ := hl; omega
  | measured a => exact runArm_progress a _ h3
  | _ => exact ⟨_, rfl⟩

/-- Only an `EDGE` can stop, and the invariant excludes the two values it stops on. -/
theorem exec_progress (i : Instr) (h : s.Inv) : ∃ t, exec i s = .next t := by
  obtain ⟨hl, ⟨h3, _⟩, _⟩ := h
  cases i with
  | edge ts => exact execEdge_progress ts hl h3
  | _ => exact ⟨_, rfl⟩

/-! ### Steps and runs -/

/-- A step from a state with the invariant goes on and keeps it, the block waiting included (log entry 2). -/
theorem step_progress_inv (h : s.Inv) : ∃ t, step s = .next t ∧ t.Inv := by
  rcases step_cases s with ⟨_, hw⟩ | ⟨c, rest, _, he⟩
  · exact ⟨s, hw, h⟩
  · have hr : ({ s with pending := rest } : State).Inv := h
    obtain ⟨t, ht⟩ := exec_progress (decodeWord c.word) hr
    exact ⟨t, he.trans ht, exec_inv hr ht⟩

/-- A run of one step more starts with that step. -/
theorem run_succ_of_step {M : Host.Core} {s t : M.State} (h : M.step s = .next t) (k : Nat) :
    M.run (k + 1) s = M.run k t := by
  rw [Host.Core.run, h]

/-- The induction over runs: what every step goes on from and keeps, every run does. -/
theorem run_progress {P : State → Prop} (hstep : ∀ s, P s → ∃ t, step s = .next t ∧ P t) (k : Nat) (s : State) (hs : P s) :
    ∃ t : State, Sys2Proof.core.run k s = .next t ∧ P t := by
  induction k generalizing s with
  | zero => exact ⟨s, rfl, hs⟩
  | succ k ih =>
    obtain ⟨u, hu, hPu⟩ := hstep s hs
    obtain ⟨t, ht, hPt⟩ := ih u hPu
    exact ⟨t, (run_succ_of_step hu k).trans ht, hPt⟩

/-- Settles O11: the invariant is kept by every step and excludes both faults, so the induction over runs applies. -/
theorem runNeverStops : Obligations.RunNeverStops := run_progress fun _ h => step_progress_inv h

/-- Settles O6, by the two cases of a step: nothing pending, or a next command. -/
theorem stepExecutesNextCommand : Obligations.StepExecutesNextCommand := by
  intro s
  rcases step_cases s with ⟨hp, hw⟩ | ⟨c, rest, hp, he⟩
  · exact ⟨fun c rest hc => absurd (hp.symm.trans hc) (List.cons_ne_nil c rest).symm, fun _ => hw⟩
  · refine ⟨fun c' rest' hc => ?_, fun hn => absurd (hp.symm.trans hn) (List.cons_ne_nil c rest)⟩
    obtain ⟨rfl, rfl⟩ := List.cons.inj (hp.symm.trans hc)
    exact he

end Sys2Proof.Machine

/-! SUPPORT. What one command leaves unchanged and where it moves `STATE` (10_state.md R20, R23): the frame of a
completed bit, the frame of `EDGE` one group of registers at a time, the successors of `STATE`, and the completed frame at a
threshold of at most 1 (R37). -/

namespace Sys2Proof.Machine

variable {s t : State} {ts : Timestamp}

/-- Settles O10: a step answers one state only, and under the invariant that state has it. -/
theorem stepKeepsInv : Obligations.StepKeepsInv := by
  intro s t h hs
  obtain ⟨u, hu, hi⟩ := step_progress_inv h
  cases hs.symm.trans hu
  exact hi

/-! ### The frame of a completed bit -/

/-- A completed bit writes `STATE`, the trace and the scratch frame, and nothing else. -/
theorem BitOutcome.frame {sym : Symbol} (hb : BitOutcome sym s (.next t)) :
    t = { s with
      state := t.state, trace := t.trace
      fAddr := t.fAddr, fGroup := t.fGroup, fSwitch := t.fSwitch, fUnit := t.fUnit, fDim := t.fDim } := by
  cases hb <;> rfl

/-- Each field is written by the bits of its own range of `STATE` only (R138). -/
theorem BitOutcome.scratch_eq {sym : Symbol} (hb : BitOutcome sym s (.next t)) :
    (105 < s.index → t.fAddr = s.fAddr)
      ∧ (s.index ≠ 109 → t.fGroup = s.fGroup)
      ∧ (s.index ≠ 113 → t.fSwitch = s.fSwitch)
      ∧ (¬ (105 < s.index ∧ s.index ≠ 109 ∧ s.index ≠ 113 ∧ s.index ≤ 129) → t.fUnit = s.fUnit)
      ∧ (s.index ≤ 129 → t.fDim = s.fDim) := by
  cases hb with
  | misplaced => simp
  | switch h => simp [h]
  | addr v _ h => simp [h]
  | group v _ h => simp [h]
  | unit v _ h h' =>
    obtain ⟨h1, h2, h3⟩ := h
    exact ⟨fun _ => rfl, fun _ => rfl, fun _ => rfl, fun hn => absurd ⟨h1, h2, h3, h'.le⟩ hn, fun _ => rfl⟩
  | lastUnitDim v _ h => simp [h]
  | lastUnit v _ h => simp [h]
  | dim v _ h => simp [h]

/-! ### The frame of `EDGE` -/

theorem State.FrameEnds.measures (hf : s.FrameEnds ts) : s.Measures ts := hf.1

theorem State.FrameEnds.index_eq (hf : s.FrameEnds ts) : s.index = 147 := hf.2.1

/-- No `EDGE` writes the waiting commands, `ENABLED` or `MIN_REPEATS`. -/
theorem EdgeNext.control_eq (hn : EdgeNext ts s t) :
    t.pending = s.pending ∧ t.enabled = s.enabled ∧ t.minRepeats = s.minRepeats := by
  cases hn with
  | bit _ _ _ _ _ _ _ _ hu => rw [hu.frame]; exact ⟨rfl, rfl, rfl⟩
  | frameRepeat | dispatch | suppressed => simp
  | _ => exact ⟨rfl, rfl, rfl⟩

/-- Only the searching arm writes the calibration (R113). -/
theorem EdgeNext.calibration_eq (hn : EdgeNext ts s t) (hx : s.index ≠ -1) :
    t.period = s.period ∧ t.min1 = s.min1 ∧ t.max1 = s.max1 ∧ t.min5 = s.min5 ∧ t.max5 = s.max5 := by
  cases hn with
  | sync _ h => exact absurd h hx
  | bit _ _ _ _ _ _ _ _ hu => rw [hu.frame]; exact ⟨rfl, rfl, rfl, rfl, rfl⟩
  | frameRepeat | dispatch | suppressed => simp
  | _ => exact ⟨rfl, rfl, rfl, rfl, rfl⟩

/-- Only a completed frame writes the baseline, the guard, `OUT_FRAME` and the events. -/
theorem EdgeNext.output_eq (hn : EdgeNext ts s t) (hx : s.index ≠ 147) :
    t.bAddr = s.bAddr ∧ t.bGroup = s.bGroup ∧ t.bSwitch = s.bSwitch ∧ t.bUnit = s.bUnit
      ∧ t.bDim = s.bDim ∧ t.inCallback = s.inCallback ∧ t.outFrame = s.outFrame ∧ t.dispatches = s.dispatches := by
  cases hn with
  | bit _ _ _ _ _ _ _ _ hu => rw [hu.frame]; exact ⟨rfl, rfl, rfl, rfl, rfl, rfl, rfl, rfl⟩
  | frameRepeat hm | dispatch hm | suppressed hm => exact absurd hm.index_eq hx
  | _ => exact ⟨rfl, rfl, rfl, rfl, rfl, rfl, rfl, rfl⟩

/-- `REPEATS` is cleared by the searching arm and counted by a completed frame. -/
theorem EdgeNext.repeats_eq (hn : EdgeNext ts s t) (hx : s.index ≠ -1) (hx' : s.index ≠ 147) :
    t.repeats = s.repeats := by
  cases hn with
  | sync _ h => exact absurd h hx
  | bit _ _ _ _ _ _ _ _ hu => rw [hu.frame]; rfl
  | frameRepeat hm | dispatch hm | suppressed hm => exact absurd hm.index_eq hx'
  | _ => rfl

/-- Only a part is shifted into `ACC` (R132). -/
theorem EdgeNext.acc_eq (hn : EdgeNext ts s t) (hx : ¬ (2 ≤ s.index ∧ s.index ≤ 145)) : t.acc = s.acc := by
  cases hn with
  | part _ _ h | badPattern _ _ h | bit _ _ _ h => exact absurd h hx
  | frameRepeat | dispatch | suppressed => simp
  | _ => rfl

/-- The scratch frame is written by the fourth part of a bit of the field, and three fields of it are cleared by the
searching arm (R113, R138). -/
theorem EdgeNext.scratch_eq (hn : EdgeNext ts s t) :
    (s.index ≠ -1 → ¬ (5 ≤ s.index ∧ s.index ≤ 105 ∧ s.index % 4 = 1) → t.fAddr = s.fAddr)
      ∧ (s.index ≠ 109 → t.fGroup = s.fGroup)
      ∧ (s.index ≠ 113 → t.fSwitch = s.fSwitch)
      ∧ (s.index ≠ -1 → ¬ (117 ≤ s.index ∧ s.index ≤ 129 ∧ s.index % 4 = 1) → t.fUnit = s.fUnit)
      ∧ (s.index ≠ -1 → ¬ (133 ≤ s.index ∧ s.index ≤ 145 ∧ s.index % 4 = 1) → t.fDim = s.fDim) := by
  cases hn with
  | sync _ h => simp [h]
  | bit b _ _ hx h4 _ _ _ hu =>
    have hi : ((s.measuredAt ts).shiftAcc b).index = s.index := rfl
    obtain ⟨ha, hg, hs, hun, hd⟩ := hu.scratch_eq
    rw [hi] at ha hg hs hun hd
    exact ⟨fun _ h => ha (by omega), hg, hs, fun _ h => hun (by omega), fun _ h => hd (by omega)⟩
  | frameRepeat | dispatch | suppressed => simp
  | _ => exact ⟨fun _ _ => rfl, fun _ => rfl, fun _ => rfl, fun _ _ => rfl, fun _ _ => rfl⟩

/-- Settles O26: the frame of every next state of `EDGE`, one group of registers at a time. -/
theorem edgeFrame : Obligations.EdgeFrame := by
  intro ts s t h
  have hn : EdgeNext ts s t := execEdge_next h
  exact ⟨hn.control_eq, hn.calibration_eq, hn.output_eq, hn.repeats_eq, hn.acc_eq, hn.scratch_eq⟩

/-! ### Where a command moves `STATE` -/

/-- A completed bit resyncs, or advances `STATE` by one, or skips the dim parts of a frame that is not Dim (R142,
R144). -/
theorem BitOutcome.index_cases {sym : Symbol} (hx : -1 ≤ s.index ∧ s.index ≤ 147) (hb : BitOutcome sym s (.next t)) :
    t.index = -1
      ∨ ((s.index = 129 → s.fSwitch = 2) ∧ t.index = s.index + 1)
      ∨ (s.index = 129 ∧ s.fSwitch ≠ 2 ∧ t.index = 146) := by
  cases hb with
  | misplaced => exact .inl (State.index_raiseResync _ s)
  | switch h => exact .inr (.inl ⟨fun h129 => by omega, State.index_advance (s := s.setSwitch sym) hx⟩)
  | addr v _ h => exact .inr (.inl ⟨fun h129 => by omega, State.index_advance (s := s.shiftAddr v) hx⟩)
  | group v _ h => exact .inr (.inl ⟨fun h129 => by omega, State.index_advance (s := s.setGroup v) hx⟩)
  | unit v _ _ h => exact .inr (.inl ⟨fun h129 => by omega, State.index_advance (s := s.shiftUnit v) hx⟩)
  | lastUnitDim v _ _ h2 => exact .inr (.inl ⟨fun _ => h2, State.index_advance (s := s.shiftUnit v) hx⟩)
  | lastUnit v _ h h2 => exact .inr (.inr ⟨h, h2.1, rfl⟩)
  | dim v _ h => exact .inr (.inl ⟨fun h129 => by omega, State.index_advance (s := s.shiftDim v) hx⟩)

/-- An edge that the gate, the skip flag or the filter turns away leaves `STATE` (R23). -/
theorem EdgeNext.state_eq_of_not_measures (hn : EdgeNext ts s t) (h : ¬ s.Measures ts) : t.state = s.state := by
  cases hn with
  | disabled | skipped | noise => rfl
  | part _ hm | badPattern _ hm | bit _ _ hm => exact absurd hm h
  | frameRepeat hm | dispatch hm | suppressed hm => exact absurd hm.measures h
  | _ hm => exact absurd hm h

/-- An edge that measures moves `STATE` as R23 lists. -/
theorem EdgeNext.index_cases (hn : EdgeNext ts s t) (hm : s.Measures ts) :
    t.index = -1
      ∨ (s.index ≠ 147 ∧ (s.index = 129 → s.fSwitch = 2) ∧ t.index = s.index + 1)
      ∨ (s.index = 129 ∧ s.fSwitch ≠ 2 ∧ t.index = 146)
      ∨ (s.index = 147 ∧ t.index = 0) := by
  obtain ⟨hen, hsk, hmin⟩ := hm
  cases hn with
  | disabled he => simp [he] at hen
  | skipped _ hk => simp [hk] at hsk
  | noise _ _ hx hlt => exact absurd (hmin hx.1) (by omega)
  | ignored _ hx => exact .inl hx
  | startHiLong | startLoRange | partRange | badPattern | stopHiLong | stopLoRange =>
    exact .inl (State.index_raiseResync _ _)
  | sync _ hx => exact .inr (.inl ⟨by omega, fun h129 => by omega, by simp [hx]⟩)
  | startHi _ hx | startLo _ hx | stopHi _ hx => exact .inr (.inl ⟨by omega, fun h129 => by omega, by simp [hx]⟩)
  | part b _ hx h4 =>
    have hr : -1 ≤ s.index ∧ s.index ≤ 147 := by omega
    exact .inr (.inl ⟨by omega, fun h129 => by omega, State.index_advance (s := (s.measuredAt ts).shiftAcc b) hr⟩)
  | bit b _ _ hx _ _ _ _ hu =>
    have hi : ((s.measuredAt ts).shiftAcc b).index = s.index := rfl
    have hc := hu.index_cases (by omega)
    rw [hi] at hc
    rcases hc with h | ⟨h2, h⟩ | h
    · exact .inl h
    · exact .inr (.inl ⟨by omega, h2, h⟩)
    · exact .inr (.inr (.inl h))
  | frameRepeat hf => exact .inr (.inr (.inr ⟨hf.index_eq, State.index_awaitRepeat _⟩))
  | dispatch => exact .inl (State.index_dispatchEntry _)
  | suppressed => exact .inl (State.index_suppressDispatch _)

/-- Settles O27: the successors of `STATE` for an `EDGE`, and the writes of the other commands one by one. -/
theorem sequencerAdvance : Obligations.SequencerAdvance := by
  intro i s t _ h
  cases i with
  | edge ts =>
    have hn : EdgeNext ts s t := execEdge_next h
    refine ⟨?_, ?_, by simp, fun he => absurd rfl (he ts)⟩
    · rintro _ ⟨⟩ hm
      exact hn.state_eq_of_not_measures hm
    · rintro _ ⟨⟩ hm
      exact hn.index_cases hm
  | init n =>
    cases h
    exact ⟨nofun, nofun, fun _ => show State.reset.index = -1 by decide, fun _ hi => absurd rfl (hi n)⟩
  | enable =>
    cases h
    exact ⟨nofun, nofun, fun _ => show BitVec.toInt 0x1FF#9 = -1 by decide, fun _ _ he => absurd rfl he⟩
  | _ =>
    cases h
    exact ⟨nofun, nofun, by simp, fun _ _ _ => rfl⟩

/-! ### The completed frame, and a threshold of at most 1 -/

/-- An edge that completes a frame runs the aggregator (R160 to R162). -/
theorem execEdge_frameEnds (hf : s.FrameEnds ts) : execEdge ts s = .next (aggregateFrame (s.measuredAt ts)) := by
  obtain ⟨hm, hx, hlo, hhi, h3⟩ := hf
  rw [execEdge_measured hm ((armOf_stopLo_iff _).2 hx)]
  rcases stopLo_cases (s.ts2 - s.ts0) (s.measuredAt ts) with ⟨_, h, _⟩ | ⟨_, _, he⟩ | ⟨hd, _⟩
  · exact absurd h h3
  · exact he
  · exact absurd hd (not_or.2 ⟨hlo.not_gt, hhi.not_gt⟩)

theorem State.index_deliver (s : State) : (deliver s).index = -1 := by
  unfold deliver
  split
  · exact s.index_suppressDispatch
  · exact s.index_dispatchEntry

/-- The count of a completed frame is at least 1, so a threshold of at most 1 is always reached (R37, R165). -/
theorem aggregateFrame_of_minRepeats_le_one (hm : s.minRepeats.toNat ≤ 1) (hr : s.repeats.toNat < 255) :
    aggregateFrame s = deliver s.compareBaseline.countFrame := by
  have hc : 1 ≤ s.compareBaseline.countFrame.repeats.toNat := by
    rw [State.countFrame_repeats, State.compareBaseline_repeats]
    split
    · rw [BitVec.toNat_add_of_lt (show s.repeats.toNat + 1 < 2 ^ 8 by omega)]
      exact Nat.le_add_left 1 _
    · decide
  have hm' : s.compareBaseline.countFrame.minRepeats.toNat ≤ 1 := by simpa using hm
  have ht := (State.thresholdReached_iff _).2 (hm'.trans hc)
  unfold aggregateFrame settleFrame
  rw [if_pos ht]

/-- The state with another repeat threshold. -/
def State.withThreshold (n : BitVec 8) (s : State) : State := { s with minRepeats := n }

theorem State.compareBaseline_withThreshold (n : BitVec 8) (s : State) :
    (s.withThreshold n).compareBaseline = s.compareBaseline.withThreshold n := by
  have hb : (s.withThreshold n).sameAsBaseline = s.sameAsBaseline := rfl
  unfold State.compareBaseline
  rw [hb]
  split <;> rfl

theorem deliver_withThreshold (n : BitVec 8) (s : State) : deliver (s.withThreshold n) = (deliver s).withThreshold n := by
  have hc : (s.withThreshold n).inCallback = s.inCallback := rfl
  unfold deliver
  rw [hc]
  split <;> rfl

/-- On a completed frame every threshold of at most 1 delivers, and nothing else of the edge reads the threshold. -/
theorem execEdge_withThreshold_of_le_one {n : BitVec 8} (hn : n.toNat ≤ 1) (hf : s.FrameEnds ts)
    (hr : s.repeats.toNat < 255) :
    execEdge ts (s.withThreshold n) = .next ((deliver (s.measuredAt ts).compareBaseline.countFrame).withThreshold n) := by
  have hf' : (s.withThreshold n).FrameEnds ts := hf
  have hd : aggregateFrame ((s.measuredAt ts).withThreshold n) = _ := aggregateFrame_of_minRepeats_le_one hn hr
  rw [State.compareBaseline_withThreshold] at hd
  rw [← deliver_withThreshold]
  exact (execEdge_frameEnds hf').trans (congrArg _ hd)

/-- Settles O47: the first count reaches both thresholds. -/
theorem thresholdZeroActsAsOne : Obligations.ThresholdZeroActsAsOne := by
  intro ts s hf hr
  exact ⟨_, execEdge_withThreshold_of_le_one (n := 0) (by decide) hf hr, State.index_deliver _,
    execEdge_withThreshold_of_le_one (n := 1) (by decide) hf hr⟩

end Sys2Proof.Machine

/-! SUPPORT. The frame word (R52): what each range of its bits holds, and that it determines the frame; and the one step
that emits it (R166, R210). -/

namespace Sys2Proof.Machine

variable {s t : State} {ts : Timestamp}

/-! ### The fields of the frame word -/

section
variable (p : BitVec 32) (a : BitVec 26) (u : BitVec 4) (g : BitVec 1) (sw : BitVec 2) (d : BitVec 4)

@[simp] theorem extractLsb'_pack_addr : (pack p a u g sw d).extractLsb' 0 26 = a :=
  BitVec.extractLsb'_append_eq_right

/-- Above the address the frame word holds the five other fields. -/
theorem extractLsb'_pack_of_le {i n : Nat} (h : 26 ≤ i) :
    (pack p a u g sw d).extractLsb' i n = (p.extractLsb' 0 27 ++ d ++ sw ++ g ++ u).extractLsb' (i - 26) n :=
  BitVec.extractLsb'_append_eq_of_le h

@[simp] theorem extractLsb'_pack_unit : (pack p a u g sw d).extractLsb' 26 4 = u :=
  (extractLsb'_pack_of_le p a u g sw d le_rfl).trans BitVec.extractLsb'_append_eq_right

/-- Above the unit the frame word holds the four fields that follow. -/
theorem extractLsb'_pack_of_unit_le {i n : Nat} (h : 30 ≤ i) :
    (pack p a u g sw d).extractLsb' i n = (p.extractLsb' 0 27 ++ d ++ sw ++ g).extractLsb' (i - 26 - 4) n :=
  (extractLsb'_pack_of_le p a u g sw d (by omega)).trans (BitVec.extractLsb'_append_eq_of_le (by omega))

@[simp] theorem extractLsb'_pack_group : (pack p a u g sw d).extractLsb' 30 1 = g :=
  (extractLsb'_pack_of_unit_le p a u g sw d le_rfl).trans BitVec.extractLsb'_append_eq_right

/-- Above the group bit the frame word holds the switch type, the dim level and the period. -/
theorem extractLsb'_pack_of_group_le {i n : Nat} (h : 31 ≤ i) :
    (pack p a u g sw d).extractLsb' i n = (p.extractLsb' 0 27 ++ d ++ sw).extractLsb' (i - 26 - 4 - 1) n :=
  (extractLsb'_pack_of_unit_le p a u g sw d (by omega)).trans (BitVec.extractLsb'_append_eq_of_le (by omega))

@[simp] theorem extractLsb'_pack_switch : (pack p a u g sw d).extractLsb' 31 2 = sw :=
  (extractLsb'_pack_of_group_le p a u g sw d le_rfl).trans BitVec.extractLsb'_append_eq_right

/-- Above the switch type the frame word holds the dim level and the period. -/
theorem extractLsb'_pack_of_switch_le {i n : Nat} (h : 33 ≤ i) :
    (pack p a u g sw d).extractLsb' i n = (p.extractLsb' 0 27 ++ d).extractLsb' (i - 26 - 4 - 1 - 2) n :=
  (extractLsb'_pack_of_group_le p a u g sw d (by omega)).trans (BitVec.extractLsb'_append_eq_of_le (by omega))

@[simp] theorem extractLsb'_pack_dim : (pack p a u g sw d).extractLsb' 33 4 = d :=
  (extractLsb'_pack_of_switch_le p a u g sw d le_rfl).trans BitVec.extractLsb'_append_eq_right

@[simp] theorem extractLsb'_pack_period : (pack p a u g sw d).extractLsb' 37 27 = p.extractLsb' 0 27 :=
  (extractLsb'_pack_of_switch_le p a u g sw d (by decide)).trans BitVec.extractLsb'_append_eq_left

end

/-- Two periods below 2^27 with the same low 27 bits are the same (R28). -/
theorem eq_of_extractLsb'_eq_of_lt {p p' : BitVec 32} (hp : p.toNat < 2 ^ 27) (hp' : p'.toNat < 2 ^ 27)
    (h : p.extractLsb' 0 27 = p'.extractLsb' 0 27) : p = p' := by
  have hn := congrArg BitVec.toNat h
  rw [BitVec.extractLsb'_toNat, BitVec.extractLsb'_toNat, Nat.shiftRight_zero, Nat.shiftRight_zero,
    Nat.mod_eq_of_lt hp, Nat.mod_eq_of_lt hp'] at hn
  exact BitVec.eq_of_toNat_eq hn

/-- Settles O48: each field by its own lemma; equal words have equal fields, and a period below 2^27 is all in the
word. -/
theorem frameWordFields : Obligations.FrameWordFields := by
  refine ⟨fun p a u g sw d => by simp, fun p p' a a' u u' g g' sw sw' d d' hp hp' h => ?_⟩
  have hper : p.extractLsb' 0 27 = p'.extractLsb' 0 27 := by simpa using congrArg (BitVec.extractLsb' 37 27) h
  exact ⟨eq_of_extractLsb'_eq_of_lt hp hp' hper,
    by simpa using congrArg (BitVec.extractLsb' 0 26) h,
    by simpa using congrArg (BitVec.extractLsb' 26 4) h,
    by simpa using congrArg (BitVec.extractLsb' 30 1) h,
    by simpa using congrArg (BitVec.extractLsb' 31 2) h,
    by simpa using congrArg (BitVec.extractLsb' 33 4) h⟩

/-! ### The step that emits an event -/

/-- `EDGE ts` takes `s` to `t` by dispatch entry: it completes a frame, the count reaches the threshold and the guard is
clear (R166). -/
structure DispatchStep (ts : Timestamp) (s t : State) : Prop where
  frameEnds : s.FrameEnds ts
  guardClear : s.inCallback = false
  threshold : (s.measuredAt ts).compareBaseline.countFrame.thresholdReached = true
  next_eq : t = (s.measuredAt ts).compareBaseline.countFrame.dispatchEntry

/-- An `EDGE` emits an event by dispatch entry only (R62). -/
theorem EdgeNext.dispatches_eq_or_dispatchStep (hn : EdgeNext ts s t) :
    t.dispatches = s.dispatches ∨ DispatchStep ts s t := by
  cases hn with
  | dispatch hm hr hc => exact .inr ⟨hm, hc, hr, rfl⟩
  | bit _ _ _ _ _ _ _ _ hu => rw [hu.frame]; exact .inl rfl
  | frameRepeat | suppressed => exact .inl (by simp)
  | _ => exact .inl rfl

/-- No command but `EDGE` emits an event. -/
theorem exec_dispatches_eq_or_dispatchStep {i : Instr} (h : exec i s = .next t) :
    t.dispatches = s.dispatches ∨ ∃ ts, i = .edge ts ∧ DispatchStep ts s t := by
  cases i with
  | edge ts => exact (execEdge_next h).dispatches_eq_or_dispatchStep.imp_right fun hd => ⟨ts, rfl, hd⟩
  | _ => cases h; exact .inl rfl

/-- The comparison with the baseline and the count do not write the scratch frame (R163, R164). -/
@[simp] theorem State.frameWord_countFrame_compareBaseline (s : State) :
    s.compareBaseline.countFrame.frameWord = s.frameWord := by
  simp [State.frameWord]

/-- Settles O52: a step that emits executes an `EDGE` in the case of dispatch entry, whose writes are those of R210. -/
theorem dispatchOnlyAtThreshold : Obligations.DispatchOnlyAtThreshold := by
  intro s t h
  rcases step_cases s with ⟨_, hw⟩ | ⟨c, rest, hp, he⟩
  · cases hw.symm.trans h
    exact .inl rfl
  · rcases exec_dispatches_eq_or_dispatchStep (he.symm.trans h) with hd | ⟨ts, hi, ⟨hf, hc, hr, rfl⟩⟩
    · exact .inl hd
    · have hen : s.enabled = true := hf.measures.1
      have hthr := (State.thresholdReached_iff _).1 hr
      refine .inr ⟨by simp, ?_, hen, hc, rfl, hf.index_eq, State.index_dispatchEntry _, hthr,
        c, rest, ts, hp, hi, by simp⟩
      exact State.frameWord_countFrame_compareBaseline _

end Sys2Proof.Machine

/-! SUPPORT. The command word (R65 to R72): its two fields, the encoder as their pair, what the decoder keeps of each of
them, and with these the round trip of R69 and the rows of the opcode table. -/

namespace Sys2Proof

/-! ### The two fields of a word -/

/-- A word is the pair of its fields (R65). -/
theorem opField_append_dataField (w : CmdWord) : opField w ++ dataField w = w :=
  BitVec.extractLsb'_append_extractLsb' (w := 4) (len := 32) (x := w)

@[simp] theorem opField_encode (i : Instr) : opField (encode i) = i.opcode := BitVec.extractLsb'_append_eq_left

@[simp] theorem dataField_encode (i : Instr) : dataField (encode i) = i.data := BitVec.extractLsb'_append_eq_right

/-- The operand of `INIT` is the low byte of the word (R68). -/
theorem thresholdOperand_eq (w : CmdWord) : thresholdOperand w = w.extractLsb' 0 8 :=
  BitVec.extractLsb'_extractLsb'_of_le (by decide)

/-- `DATA` is the pair of what `INIT` ignores and what it reads (R68, R69). -/
theorem unused_append_thresholdOperand (w : CmdWord) : w.extractLsb' 8 24 ++ thresholdOperand w = dataField w := by
  rw [thresholdOperand_eq]
  exact BitVec.extractLsb'_append_extractLsb'_eq_extractLsb' (start₁ := 0) (len₁ := 8) (len₂ := 24) rfl

/-- An encoded threshold is written under 24 zeros (R69). -/
theorem zeroExtend_threshold (n : BitVec 8) : n.zeroExtend 32 = (0 : BitVec 24) ++ n :=
  BitVec.setWidth_eq_append (by decide)

theorem thresholdOperand_encode_init (n : BitVec 8) : thresholdOperand (encode (.init n)) = n := by
  have hd : dataField (encode (.init n)) = (0 : BitVec 24) ++ n := (dataField_encode _).trans (zeroExtend_threshold n)
  rw [thresholdOperand, hd]
  exact BitVec.extractLsb'_append_eq_right

/-- `INIT` reads all of `DATA` where bits 31..8 are 0 (R69). -/
theorem zeroExtend_thresholdOperand_eq_iff (w : CmdWord) :
    (thresholdOperand w).zeroExtend 32 = dataField w ↔ w.extractLsb' 8 24 = 0 := by
  rw [zeroExtend_threshold, ← unused_append_thresholdOperand, eq_comm]
  exact BitVec.append_left_inj _

/-! ### The decoder -/

/-- The decoded command carries the word's opcode. -/
@[simp] theorem opcode_decodeWord (w : CmdWord) : (decodeWord w).opcode = opField w := by
  unfold decodeWord
  split
  case h_17 h _ => exact absurd h (by omega)
  all_goals exact (BitVec.toFin_inj.1 ‹_›).symm

/-- What the decoded command keeps of `DATA`: all of it for `EDGE`, the low byte for `INIT`, nothing for another
command (R67 to R69). -/
theorem data_decodeWord (w : CmdWord) : (decodeWord w).data =
    if opField w = 0x1 then dataField w else if opField w = 0x2 then (thresholdOperand w).zeroExtend 32 else 0 := by
  unfold decodeWord
  split
  case h_17 h _ => exact absurd h (by omega)
  all_goals (rename_i h; rw [show opField w = _ from BitVec.toFin_inj.1 h]; rfl)

/-- Settles O2: the decoder looks at the opcode only, and each of its values has a case (R70, R72). -/
theorem opcodeSelectsCommand : Obligations.OpcodeSelectsCommand := by
  intro w
  have key : ∀ op, w.extractLsb' 32 4 = op → (opField w).toFin = op.toFin := fun _ h => congrArg BitVec.toFin h
  rw [← thresholdOperand_eq]
  refine ⟨?_, ?_, ?_, ?_, ?_, ?_, ?_, ?_, ?_, ?_, ?_, ?_, ?_, ?_, ?_, ?_⟩ <;>
    (intro h; rw [decodeWord, key _ h]; rfl)

/-! ### The round trip -/

/-- The decoder undoes the encoder: it reads the opcode back and with it the operand. -/
@[simp] theorem decodeWord_encode (i : Instr) : decodeWord (encode i) = i := by
  unfold decodeWord
  rw [opField_encode]
  cases i with
  | edge ts => exact congrArg Instr.edge (dataField_encode (.edge ts))
  | init n => exact congrArg Instr.init (thresholdOperand_encode_init n)
  | _ => rfl

/-- Commands with the same encoding are the same. -/
theorem encode_injective : Function.Injective encode := Function.LeftInverse.injective decodeWord_encode

/-- Encoding a decoded word keeps the opcode and what the command reads of `DATA`. -/
theorem encode_decodeWord (w : CmdWord) : encode (decodeWord w) = opField w ++ (decodeWord w).data := by
  rw [encode, opcode_decodeWord]

/-- So it gives the word back exactly where the command reads all of `DATA`. -/
theorem encode_decodeWord_eq_iff (w : CmdWord) : encode (decodeWord w) = w ↔ (decodeWord w).data = dataField w := by
  rw [encode_decodeWord]
  exact (iff_of_eq (congrArg (_ = ·) (opField_append_dataField w).symm)).trans (BitVec.append_right_inj _)

/-- Settles O3: both directions of the round trip; a word comes back where the bits its command ignores are 0. -/
theorem decodeEncodeAgree : Obligations.DecodeEncodeAgree := by
  refine ⟨decodeWord_encode, fun w => ?_⟩
  show _ ↔ opField w = 0x1 ∨ (opField w = 0x2 ∧ w.extractLsb' 8 24 = 0)
    ∨ (opField w ≠ 0x1 ∧ opField w ≠ 0x2 ∧ dataField w = 0)
  rw [encode_decodeWord_eq_iff, data_decodeWord]
  by_cases h1 : opField w = 0x1
  · simp [h1]
  · by_cases h2 : opField w = 0x2
    · simp [h2, zeroExtend_thresholdOperand_eq_iff]
    · simp only [h1, h2, if_false, false_and, false_or, ne_eq, not_false_eq_true, true_and]
      exact eq_comm

/-- Settles O4: two words decode alike when their commands encode alike, and the encoder writes 0 where nothing is
read. -/
theorem unusedBitsIgnored : Obligations.UnusedBitsIgnored := by
  refine ⟨fun w w' (ho : opField w = opField w') (h1 : opField w ≠ 0x1) h2 => encode_injective ?_, fun n => ?_,
    fun i he hi => ?_⟩
  · have hn : opField w = 0x2 → thresholdOperand w = thresholdOperand w' := fun h => by
      simpa only [thresholdOperand_eq] using h2 h
    rw [encode_decodeWord, encode_decodeWord, data_decodeWord, data_decodeWord, ← ho, if_neg h1, if_neg h1]
    split
    · rw [hn ‹_›]
    · rfl
  · exact (zeroExtend_thresholdOperand_eq_iff _).1 (by
      rw [thresholdOperand_encode_init, dataField_encode]; rfl)
  · show dataField (encode i) = 0
    rw [dataField_encode]
    cases i with
    | edge ts => exact absurd rfl (he ts)
    | init n => exact absurd rfl (hi n)
    | _ => rfl

/-! ### Fixed words and the opcode table -/

/-- Settles O1: the words of 95_test_vectors.md §2.1, evaluated. -/
theorem specWordsDecode : Obligations.SpecWordsDecode := by
  unfold Obligations.SpecWordsDecode
  decide

/-- The mask of the opcode table keeps the opcode (R71). -/
theorem and_opcodeMask (w : CmdWord) : w &&& 0xF00000000 = opField w ++ (0 : BitVec 32) := by
  have h : ∀ x : BitVec 4, x &&& 0xF = x := by decide
  rw [Laws.opcodeMask_eq]
  conv_lhs => rw [← opField_append_dataField w]
  rw [BitVec.and_append, h]
  exact congrArg (opField w ++ ·) BitVec.and_zero

theorem opcodeTable_mask : ∀ r ∈ opcodeTable, r.mask = 0xF00000000 := by decide

/-- A word matches a row when the row's bits are its opcode. -/
theorem and_mask_eq_bits_iff (w : CmdWord) {r : OpcodeRow} (hr : r ∈ opcodeTable) :
    w &&& r.mask = r.bits ↔ opField w ++ (0 : BitVec 32) = r.bits := by
  rw [opcodeTable_mask r hr, and_opcodeMask]

/-- Every command has the mnemonic of its opcode's row. -/
theorem mnemonicsAt_opcode (i : Instr) : Laws.mnemonicsAt i.opcode = [i.mnemonic] := by
  cases i with
  | edge ts => exact show Laws.mnemonicsAt 0x1 = ["EDGE"] by decide
  | init n => exact show Laws.mnemonicsAt 0x2 = ["INIT"] by decide
  | _ => decide

/-- The row with an opcode is the one with its mnemonic. -/
theorem row_bits_eq_iff : ∀ op : BitVec 4, ∀ r ∈ opcodeTable,
    op ++ (0 : BitVec 32) = r.bits ↔ Laws.mnemonicsAt op = [r.mnemonic] := by decide

theorem exists_row_of_opcode : ∀ op : BitVec 4, ∃ r ∈ opcodeTable, op ++ (0 : BitVec 32) = r.bits := by decide

/-- Settles O5: a row and a command go together by the opcode alone, which the mask keeps and the decoder reads. -/
theorem opcodeTablePartition : Obligations.OpcodeTablePartition := by
  refine ⟨fun w r hr => ?_, fun w => ?_⟩
  · calc w &&& r.mask = r.bits
      _ ↔ opField w ++ (0 : BitVec 32) = r.bits := and_mask_eq_bits_iff w hr
      _ ↔ Laws.mnemonicsAt (opField w) = [r.mnemonic] := row_bits_eq_iff _ r hr
      _ ↔ (decodeWord w).mnemonic = r.mnemonic := by
        rw [← opcode_decodeWord, mnemonicsAt_opcode, List.singleton_inj]
  · obtain ⟨r, hr, hb⟩ := exists_row_of_opcode (opField w)
    exact ⟨r, hr, (and_mask_eq_bits_iff w hr).2 hb⟩

end Sys2Proof

/-! SUPPORT. The pulses of the ideal transmitter (R75, R76): how many there are, how long they last, and each of them one
of four durations. -/

namespace Sys2Proof.Machine

/-! ### Bits and their symbols -/

/-- The symbol of a bit's value (R134). -/
def bitSymbol (b : Bool) : Symbol := if b then .one else .zero

/-- The symbol of the switch-type bit (R141). -/
def switchSymbol : FrameSwitch → Symbol
  | .off => .zero
  | .on => .one
  | .dim _ => .dimMark

@[simp] theorem switchOf_switchSymbol (sw : FrameSwitch) : switchOf (switchSymbol sw) = switchCode sw := by
  cases sw <;> rfl

theorem switchCode_ne_three (sw : FrameSwitch) : switchCode sw ≠ 3 := by
  rw [← switchOf_switchSymbol]
  exact switchOf_ne_three _

/-- The classes of the four parts of a symbol, first part first: `true` for a long one (R76). -/
def symbolParts : Symbol → List Bool
  | .zero => [false, false, false, true]
  | .one => [false, true, false, false]
  | .dimMark => [false, false, false, false]

/-- The pulse of a part: one unit for a short part, five for a long one (R76). -/
def partPulse (t : Nat) (b : Bool) : Nat := if b then 5 * t else t

theorem pulsesBit_eq (t : Nat) (b : Bool) : pulsesBit t b = (symbolParts (bitSymbol b)).map (partPulse t) := by
  cases b <;> rfl

theorem pulsesSwitch_eq (t : Nat) (sw : FrameSwitch) :
    pulsesSwitch t sw = (symbolParts (switchSymbol sw)).map (partPulse t) := by
  cases sw <;> rfl

@[simp] theorem length_symbolParts (sym : Symbol) : (symbolParts sym).length = 4 := by cases sym <;> rfl

/-! ### Length and duration -/

@[simp] theorem length_pulsesBits (t v n : Nat) : (pulsesBits t v n).length = 4 * n := by
  induction n with
  | zero => rfl
  | succ n ih => simp [pulsesBits, pulsesBit_eq, ih]; omega

@[simp] theorem length_pulsesSwitch (t : Nat) (sw : FrameSwitch) : (pulsesSwitch t sw).length = 4 := by
  simp [pulsesSwitch_eq]

/-- A bit of either value lasts 8 units. -/
@[simp] theorem sum_pulsesBit (t : Nat) (b : Bool) : (pulsesBit t b).sum = 8 * t := by
  cases b <;> simp [pulsesBit, pulsesBit0, pulsesBit1] <;> omega

@[simp] theorem sum_pulsesBits (t v n : Nat) : (pulsesBits t v n).sum = 8 * t * n := by
  induction n with
  | zero => rfl
  | succ n ih => simp [pulsesBits, ih, Nat.mul_succ, Nat.add_comm]

section
variable (t : Nat) (a : BitVec 26) (g : BitVec 1) (sw : FrameSwitch) (u : BitVec 4)

theorem length_pulsesFrame : (pulsesFrame t a g sw u).length = 132 + (pulsesDim t sw).length := by
  simp only [pulsesFrame, pulsesStart, pulsesStop, List.length_append, List.length_cons, List.length_nil,
    length_pulsesBits, length_pulsesSwitch]
  omega

/-- 31 of the bits are value bits in every frame; with the start and stop bits they last 290 units and the start low. -/
theorem sum_pulsesFrame : (pulsesFrame t a g sw u).sum
    = 290 * t + 1044 * t / 100 + (pulsesSwitch t sw).sum + (pulsesDim t sw).sum := by
  simp only [pulsesFrame, pulsesStart, pulsesStop, List.sum_append, List.sum_cons, List.sum_nil, sum_pulsesBits]
  omega

end

/-- Settles O59: only the switch type and the dim level of a Dim frame change a frame's length or duration, the first by
its dim marker, the second by four more bits. -/
theorem frameLayout : Obligations.FrameLayout := by
  intro a g u level T
  simp [length_pulsesFrame, sum_pulsesFrame, pulsesDim, pulsesSwitch, pulsesBitD]

/-! ### The durations of the pulses -/

theorem mem_map_partPulse {t d : Nat} {bs : List Bool} (h : d ∈ bs.map (partPulse t)) : d = t ∨ d = 5 * t := by
  obtain ⟨b, _, rfl⟩ := List.mem_map.1 h
  cases b
  · exact .inl rfl
  · exact .inr rfl

theorem mem_pulsesBits {t d v n : Nat} (h : d ∈ pulsesBits t v n) : d = t ∨ d = 5 * t := by
  induction n with
  | zero => cases h
  | succ n ih =>
    rcases List.mem_append.1 h with hb | hr
    · rw [pulsesBit_eq] at hb
      exact mem_map_partPulse hb
    · exact ih hr

theorem mem_pulsesDim {t d : Nat} {sw : FrameSwitch} (h : d ∈ pulsesDim t sw) : d = t ∨ d = 5 * t := by
  cases sw with
  | dim level => exact mem_pulsesBits h
  | _ => cases h

/-- Every pulse of a frame has one of four durations. -/
theorem mem_pulsesFrame {t d : Nat} {a : BitVec 26} {g : BitVec 1} {sw : FrameSwitch} {u : BitVec 4}
    (h : d ∈ pulsesFrame t a g sw u) : (d = t ∨ d = 5 * t) ∨ d = 1044 * t / 100 ∨ d = 40 * t := by
  simp only [pulsesFrame, List.mem_append, pulsesSwitch_eq] at h
  rcases h with (((((hstart | ha) | hg) | hsw) | hu) | hd) | hstop
  · rcases List.mem_pair.1 hstart with rfl | h
    · exact .inl (.inl rfl)
    · exact .inr (.inl h)
  · exact .inl (mem_pulsesBits ha)
  · exact .inl (mem_pulsesBits hg)
  · exact .inl (mem_map_partPulse hsw)
  · exact .inl (mem_pulsesBits hu)
  · exact .inl (mem_pulsesDim hd)
  · rcases List.mem_pair.1 hstop with rfl | h
    · exact .inl (.inl rfl)
    · exact .inr (.inr h)

end Sys2Proof.Machine

/-! SUPPORT. The block receives an ideal frame (R74 to R76, R126 to R147): what holds between two of its edges, what one
edge does to it, and so what each part of the frame does. A part of the frame is stated as a triple `Decodes P ps Q`: from
a state with `P` the edges of the pulses `ps` lead to one with `Q`. -/

namespace Sys2Proof.Machine

/-! ### Runs -/

/-- The run of `k` steps from `s` ends in a state with `P`. -/
def RunsTo (k : Nat) (s : State) (P : State → Prop) : Prop := ∃ t : State, Sys2Proof.core.run k s = .next t ∧ P t

theorem RunsTo.of_step {s t : State} {P : State → Prop} (h : step s = .next t) (ht : P t) : RunsTo 1 s P :=
  ⟨t, run_succ_of_step (M := Sys2Proof.core) h 0, ht⟩

/-- A run of one step more that goes on went on at its first step. -/
theorem exists_step_of_run_succ {k : Nat} {s t : State} (h : Sys2Proof.core.run (k + 1) s = .next t) :
    ∃ u : State, step s = .next u ∧ Sys2Proof.core.run k u = .next t := by
  cases hs : Sys2Proof.core.step s with
  | next u => exact ⟨u, hs, (run_succ_of_step hs k).symm.trans h⟩
  | fault r => simp [Host.Core.run, hs] at h
  | refused r => simp [Host.Core.run, hs] at h

theorem RunsTo.trans {j k : Nat} {s : State} {P Q : State → Prop} (h : RunsTo k s P)
    (hPQ : ∀ t, P t → RunsTo j t Q) : RunsTo (k + j) s Q := by
  obtain ⟨t, ht, hP⟩ := h
  induction k generalizing s with
  | zero =>
    obtain rfl : s = t := by cases ht; rfl
    rw [Nat.zero_add]
    exact hPQ s hP
  | succ k ih =>
    obtain ⟨u, hu, ht'⟩ := exists_step_of_run_succ ht
    obtain ⟨v, hv, hQ⟩ := ih ht'
    rw [Nat.add_right_comm]
    exact ⟨v, (run_succ_of_step (M := Sys2Proof.core) hu _).trans hv, hQ⟩

/-! ### The edges on the port -/

/-- The commands of the edges that end the pulses `ds`, the first of which starts at `l` (R79). -/
def edgeCommands (l : Timestamp) (ds : List Nat) : List Command :=
  commandsOf .edgeSource ((edgesFrom l.toNat ds).map edgeAt)

theorem edgeCommands_cons (l : Timestamp) (d : Nat) (ds : List Nat) :
    edgeCommands l (d :: ds)
      = ⟨.edgeSource, encode (.edge (l + BitVec.ofNat 32 d))⟩ :: edgeCommands (l + BitVec.ofNat 32 d) ds := by
  have hl : BitVec.ofNat 32 ((l.toNat + d) % 2 ^ 32) = l + BitVec.ofNat 32 d := BitVec.eq_of_toNat_eq (by simp)
  rw [← hl]
  simp [edgeCommands, edgesFrom, commandsOf, edgeAt]

/-- A step on an encoded `EDGE` executes it. -/
theorem step_eq_execEdge {s : State} {a : Agent} {ts : Timestamp} {more : List Command}
    (h : s.pending = ⟨a, encode (.edge ts)⟩ :: more) : step s = execEdge ts { s with pending := more } := by
  rw [stepExecutesNextCommand s |>.1 _ _ h, decodeWord_encode]
  rfl

/-! ### Between two edges of a frame -/

/-- The scratch frame as one value (R31 to R33). -/
def State.scratch (s : State) : Frame := ⟨s.fAddr, s.fUnit, s.fDim, s.fGroup, s.fSwitch⟩

/-- The registers that no edge of a frame writes before the frame is complete: the state with all others set to zero. -/
def State.kept (s : State) : State :=
  { s with
    state := 0, ts0 := 0, ts1 := 0, ts2 := 0, acc := 0, pending := [], trace := []
    fAddr := 0, fGroup := 0, fSwitch := 0, fUnit := 0, fDim := 0 }

/-- The block `base` is receiving, at `STATE = x` with the scratch frame `f`: of the pulses `ds` the first lies between
`TS[0]` and `TS[2]`, and the edges that end the others are next on the port, before `rest`. No interval is noise. -/
structure Receiving (base : State) (rest : List Command) (x : Int) (f : Frame) (ds : List Nat) (s : State) : Prop where
  index_eq : s.index = x
  scratch_eq : s.scratch = f
  kept_eq : s.kept = base.kept
  leading : s.ts1 = s.ts0
  inFlight : s.ts2 = s.ts0 + BitVec.ofNat 32 (ds.headD 0)
  waiting : s.pending = edgeCommands s.ts2 ds.tail ++ rest
  passes : ∀ d ∈ ds, base.min1.toNat ≤ d ∧ d < 2 ^ 32

/-- The block is calibrated, enabled and not skipping, and the time unit `T` is near enough to its period that every pulse
of a frame falls in its range. -/
structure InTune (base : State) (T : Nat) : Prop where
  enabled : base.enabled = true
  notSkipping : base.skip = false
  calibrated : base.Calibrated
  startLow : 7 * base.period.toNat ≤ 1044 * T / 100 ∧ 1044 * T / 100 ≤ 15 * base.period.toNat
  noWrap : 40 * T < 2 ^ 32

section
variable {base : State} {rest : List Command} {T : Nat} {x : Int} {f : Frame} {ds : List Nat} {d d' : Nat} {s : State}

/-- The ranges a frame's pulses fall in, all from the one of the start bit's low (R112, R126, R131, R161). -/
theorem InTune.ranges (ht : InTune base T) :
    base.min1.toNat ≤ T ∧ T ≤ base.max1.toNat ∧ base.max1.toNat < 5 * T ∧ base.min5.toNat ≤ 5 * T
      ∧ 5 * T ≤ base.max5.toNat ∧ 20 * base.period.toNat ≤ 40 * T ∧ 40 * T ≤ 80 * base.period.toNat := by
  obtain ⟨hp, h1, h2, h3, h4⟩ := ht.calibrated
  obtain ⟨hlo, hhi⟩ := ht.startLow
  have := (min1_le_iff base.period.toNat T).2
  rw [h1, h2, h3, h4]
  omega

/-- No pulse of the frame is too long for a timestamp. -/
theorem InTune.toNat_ofNat (ht : InTune base T) (hd : d ≤ 40 * T) : (BitVec.ofNat 32 d).toNat = d :=
  Nat.mod_eq_of_lt (hd.trans_lt ht.noWrap)

theorem InTune.classOf_partPulse (ht : InTune base T) (b : Bool) :
    classOf (BitVec.ofNat 32 (partPulse T b)) base = some b := by
  obtain ⟨h1, h2, h3, h4, h5, _⟩ := ht.ranges
  cases b with
  | false =>
    have hT : (BitVec.ofNat 32 (partPulse T false)).toNat = T := ht.toNat_ofNat (d := T) (by omega)
    exact classOf_eq_short_iff.2 ⟨h1.trans_eq hT.symm, hT.trans_le h2⟩
  | true =>
    have h5T : (BitVec.ofNat 32 (partPulse T true)).toNat = 5 * T := ht.toNat_ofNat (d := 5 * T) (by omega)
    rw [classOf_eq_long_iff, h5T]
    exact ⟨fun h => by omega, h4, h5⟩

theorem InTune.exceedsShortMax_eq_false (ht : InTune base T) : exceedsShortMax (BitVec.ofNat 32 T) base = false := by
  obtain ⟨_, hmax, _⟩ := ht.ranges
  have hT := ht.toNat_ofNat (d := T) (by omega)
  rw [Bool.eq_false_iff, ne_eq, exceedsShortMax_iff]
  omega

theorem InTune.startLowInRange_eq_true (ht : InTune base T) :
    startLowInRange (BitVec.ofNat 32 (1044 * T / 100)) base = true := by
  rw [startLowInRange_iff, ht.toNat_ofNat (by omega)]
  exact ht.startLow

theorem InTune.stopLowInRange_eq_true (ht : InTune base T) :
    stopLowInRange (BitVec.ofNat 32 (40 * T)) base = true := by
  obtain ⟨_, _, _, _, _, hstop⟩ := ht.ranges
  rw [stopLowInRange_iff, ht.toNat_ofNat le_rfl]
  exact hstop

/-- No interval of the frame is noise (R94). -/
theorem InTune.min1_le_of_mem_pulsesFrame {a : BitVec 26} {g : BitVec 1} {sw : FrameSwitch} {u : BitVec 4}
    (ht : InTune base T) (hd : d ∈ pulsesFrame T a g sw u) : base.min1.toNat ≤ d ∧ d < 2 ^ 32 := by
  obtain ⟨hmin, _⟩ := ht.ranges
  have hw := ht.noWrap
  rcases mem_pulsesFrame hd with (rfl | rfl) | rfl | rfl <;> omega

/-! ### One edge -/

/-- What reads kept registers only reads the same while the block receives. -/
theorem Receiving.agree {α : Type} (h : Receiving base rest x f ds s) (g : State → α) (hg : ∀ s, g s.kept = g s) :
    g s = g base := by
  rw [← hg s, h.kept_eq, hg]

/-- An edge of the frame measures the pulse before it: its arm runs where the block receives from the next pulse on. -/
theorem Receiving.step_eq {a : Arm} (ht : InTune base T) (h : Receiving base rest x f (d :: d' :: ds) s)
    (ha : armOf x = some a) :
    ∃ u, Receiving base rest x f (d' :: ds) u ∧ u.acc = s.acc ∧ step s = runArm a (BitVec.ofNat 32 d) u := by
  obtain ⟨hmin, hlt⟩ := h.passes d' (by simp)
  have hpend : s.pending = _ :: (edgeCommands (s.ts2 + BitVec.ofNat 32 d') ds ++ rest) :=
    h.waiting.trans (congrArg (· ++ rest) (edgeCommands_cons s.ts2 d' ds))
  rw [step_eq_execEdge hpend]
  have hint : ((s.ts2 + BitVec.ofNat 32 d') - s.ts2).toNat = d' := by simpa using hlt
  have hdur : s.ts2 - s.ts0 = BitVec.ofNat 32 d := by simp [h.inFlight]
  have hmeas : s.Measures (s.ts2 + BitVec.ofNat 32 d') := by
    refine ⟨(h.agree State.enabled fun _ => rfl).trans ht.enabled,
      (h.agree State.skip fun _ => rfl).trans ht.notSkipping, fun _ => ?_⟩
    rw [State.newInterval, hint, h.agree State.min1 fun _ => rfl]
    exact hmin
  refine ⟨State.measuredAt { s with pending := edgeCommands (s.ts2 + BitVec.ofNat 32 d') ds ++ rest } _,
    ⟨h.index_eq, h.scratch_eq, h.kept_eq, rfl, rfl, rfl, fun e he => h.passes e (List.mem_cons_of_mem _ he)⟩,
    rfl, ?_⟩
  rw [← hdur]
  exact execEdge_measured (s := { s with pending := _ }) hmeas ((congrArg armOf h.index_eq).trans ha)

end

/-! ### Parts of a frame -/

/-- From a state with `P` the edges that end the pulses `ps` lead to one with `Q`, another pulse being in flight. -/
def Decodes (P : List Nat → State → Prop) (ps : List Nat) (Q : List Nat → State → Prop) : Prop :=
  ∀ ds s, ds ≠ [] → P (ps ++ ds) s → RunsTo ps.length s (Q ds)

theorem Decodes.nil {P : List Nat → State → Prop} : Decodes P [] P := fun _ s _ h => ⟨s, rfl, h⟩

theorem Decodes.append {P Q R : List Nat → State → Prop} {ps qs : List Nat} (h : Decodes P ps Q)
    (h' : Decodes Q qs R) : Decodes P (ps ++ qs) R := by
  intro ds s hds hP
  rw [List.append_assoc] at hP
  rw [List.length_append]
  exact (h _ s (List.append_ne_nil_of_right_ne_nil _ hds) hP).trans fun t ht => h' ds t hds ht

/-- The block receives with `c` in the accumulator. -/
def ReceivingPart (base : State) (rest : List Command) (x : Int) (f : Frame) (c : BitVec 4) (ds : List Nat) (s : State) :
    Prop := Receiving base rest x f ds s ∧ s.acc = c

section
variable {base : State} {rest : List Command} {T : Nat} {x x' : Int} {f f' : Frame} {ds : List Nat} {d : Nat} {s : State}
  {c : BitVec 4} {b : Bool} {sym : Symbol}

theorem decodes_of_part {ps : List Nat} {Q : List Nat → State → Prop}
    (h : ∀ c, Decodes (ReceivingPart base rest x f c) ps Q) : Decodes (Receiving base rest x f) ps Q :=
  fun ds s hds hs => h s.acc ds s hds ⟨hs, rfl⟩

/-- One pulse does what the arm of `STATE` does on its duration. -/
theorem decodes_pulse {a : Arm} {Q : List Nat → State → Prop} (ht : InTune base T) (ha : armOf x = some a)
    (harm : ∀ ds u, ReceivingPart base rest x f c ds u → ∃ t, runArm a (BitVec.ofNat 32 d) u = .next t ∧ Q ds t) :
    Decodes (ReceivingPart base rest x f c) [d] Q := by
  rintro (_ | ⟨d', ds⟩) s hds ⟨h, hc⟩
  · exact absurd rfl hds
  · obtain ⟨u, hu, hacc, he⟩ := h.step_eq ht ha
    obtain ⟨t, hr, hQ⟩ := harm _ u ⟨hu, hacc.trans hc⟩
    exact .of_step (he.trans hr) hQ

/-! ### The sequencer -/

theorem Receiving.advanceTo (h : Receiving base rest x f ds s) (y : SeqWord) :
    Receiving base rest y.toInt f ds (s.advanceTo y) := { h with index_eq := rfl }

theorem Receiving.advance (h : Receiving base rest x f ds s) (hx : 2 ≤ x ∧ x ≤ 145) :
    Receiving base rest (x + 1) f ds s.advance :=
  { h with index_eq := by rw [State.index_advance (by rw [h.index_eq]; omega), h.index_eq] }

theorem Receiving.shiftAcc (h : Receiving base rest x f ds s) (b : Bool) : Receiving base rest x f ds (s.shiftAcc b) :=
  { h with }

/-- The start bit leads to the first address bit (R126, R128). -/
theorem decodes_start (ht : InTune base T) :
    Decodes (Receiving base rest 0 f) (pulsesStart T) (Receiving base rest 2 f) := by
  have hhi : Decodes (Receiving base rest 0 f) [T] (Receiving base rest 1 f) :=
    decodes_of_part fun _ => decodes_pulse ht (a := .startHi) rfl fun ds u ⟨h, _⟩ => by
      have hu := (h.agree (exceedsShortMax _) fun _ => rfl).trans ht.exceedsShortMax_eq_false
      exact ⟨_, by rw [runArm, startHi, hu]; rfl, h.advanceTo 1⟩
  have hlo : Decodes (Receiving base rest 1 f) [1044 * T / 100] (Receiving base rest 2 f) :=
    decodes_of_part fun _ => decodes_pulse ht (a := .startLo) rfl fun ds u ⟨h, _⟩ => by
      have hu := (h.agree (startLowInRange _) fun _ => rfl).trans ht.startLowInRange_eq_true
      exact ⟨_, by rw [runArm, startLo, hu]; rfl, h.advanceTo 2⟩
  exact hhi.append hlo

/-- The high of the stop bit leads to its low (R147). -/
theorem decodes_stopHigh (ht : InTune base T) :
    Decodes (Receiving base rest 146 f) [T] (Receiving base rest 147 f) :=
  decodes_of_part fun _ => decodes_pulse ht (a := .stopHi) rfl fun ds u ⟨h, _⟩ => by
    have hu := (h.agree (exceedsShortMax _) fun _ => rfl).trans ht.exceedsShortMax_eq_false
    exact ⟨_, by rw [runArm, stopHi, hu]; rfl, h.advanceTo 147⟩

/-! ### Symbols -/

/-- A part is classified as it was sent (R131). -/
theorem Receiving.part_eq (ht : InTune base T) (h : Receiving base rest x f ds s) (b : Bool) :
    part (BitVec.ofNat 32 (partPulse T b)) s = afterShift (s.shiftAcc b) := by
  rw [part, h.agree (classOf _) fun _ => rfl, ht.classOf_partPulse]

/-- A part that is not the fourth is shifted in (R132, R137). -/
theorem decodes_part (ht : InTune base T) (hx : 2 ≤ x ∧ x ≤ 145) (h4 : x % 4 ≠ 1) :
    Decodes (ReceivingPart base rest x f c) [partPulse T b] (ReceivingPart base rest (x + 1) f (shl c b)) := by
  refine decodes_pulse ht ((armOf_part_iff x).2 hx) fun ds u ⟨h, hc⟩ => ?_
  have hnot : ¬ isFourthPart (u.shiftAcc b).index = true := by
    rwa [isFourthPart_iff, State.index_shiftAcc, h.index_eq]
  refine ⟨(u.shiftAcc b).advance, ?_, (h.shiftAcc b).advance hx, congrArg (shl · b) hc⟩
  rw [runArm, h.part_eq ht, afterShift, if_neg hnot]

/-- With the fourth part the symbol is complete (R133, R134). -/
theorem decodes_fourthPart (ht : InTune base T) (hx : 2 ≤ x ∧ x ≤ 145) (h4 : x % 4 = 1)
    (hsym : symbolOf (shl c b) = some sym)
    (hbit : ∀ ds u, Receiving base rest x f ds u →
      ∃ t, completeBit sym u = .next t ∧ Receiving base rest x' f' ds t) :
    Decodes (ReceivingPart base rest x f c) [partPulse T b] (Receiving base rest x' f') := by
  refine decodes_pulse ht ((armOf_part_iff x).2 hx) fun ds u ⟨h, hc⟩ => ?_
  have hfourth : isFourthPart (u.shiftAcc b).index = true := by
    rwa [isFourthPart_iff, State.index_shiftAcc, h.index_eq]
  obtain ⟨t, ht', hr⟩ := hbit ds _ (h.shiftAcc b)
  refine ⟨t, ?_, hr⟩
  rw [runArm, h.part_eq ht, afterShift, if_pos hfourth, State.shiftAcc_acc, hc, hsym]
  exact ht'

/-- The four parts of a symbol overwrite the accumulator, whatever it held. -/
theorem symbolParts_eq (sym : Symbol) : ∃ b1 b2 b3 b4, symbolParts sym = [b1, b2, b3, b4]
    ∧ ∀ c, symbolOf (shl (shl (shl (shl c b1) b2) b3) b4) = some sym := by
  cases sym <;> exact ⟨_, _, _, _, rfl, by decide⟩

/-- A bit does what its symbol does at its fourth part (R130, R134). -/
theorem decodes_symbol (ht : InTune base T) (hx : 2 ≤ x ∧ x ≤ 142) (h4 : x % 4 = 2)
    (hbit : ∀ ds u, Receiving base rest (x + 3) f ds u →
      ∃ t, completeBit sym u = .next t ∧ Receiving base rest x' f' ds t) :
    Decodes (Receiving base rest x f) ((symbolParts sym).map (partPulse T)) (Receiving base rest x' f') := by
  obtain ⟨b1, b2, b3, b4, hp, hsym⟩ := symbolParts_eq sym
  rw [hp]
  refine decodes_of_part fun c => ?_
  have hfourth : Decodes (ReceivingPart base rest (x + 1 + 1 + 1) f (shl (shl (shl c b1) b2) b3)) [partPulse T b4] _ :=
    decodes_fourthPart ht (by omega) (by omega) (hsym c) (by rwa [show x + 1 + 1 + 1 = x + 3 by omega])
  exact (decodes_part ht (by omega) (by omega)).append ((decodes_part ht (by omega) (by omega)).append
    ((decodes_part ht (by omega) (by omega)).append hfourth))

end

end Sys2Proof.Machine

/-! SUPPORT. The fields of an ideal frame (R139 to R143): a field of `n` bits takes the `n` bits sent, most significant
first, and the block goes on to the next field. -/

namespace Sys2Proof.Machine

/-! ### Shifting bits in -/

/-- The bits `n - 1` down to 0 of `v`, shifted in one after another (R16). -/
def shlBits {w : Nat} (v : Nat) : Nat → BitVec w → BitVec w
  | 0, c => c
  | n + 1, c => shlBits v n (shl c (v.testBit n))

theorem shl_ofNat {w : Nat} (m : Nat) (b : Bool) : shl (BitVec.ofNat w m) b = BitVec.ofNat w (m * 2 + b.toNat) := by
  apply BitVec.eq_of_toNat_eq
  simp only [shl, BitVec.toNat_ofNat]
  exact ((Nat.mod_modEq m (2 ^ w)).mul_right 2).add_right b.toNat

theorem shlBits_ofNat {w : Nat} (v n m : Nat) :
    shlBits v n (BitVec.ofNat w m) = BitVec.ofNat w (m * 2 ^ n + v % 2 ^ n) := by
  induction n generalizing m with
  | zero => simp [shlBits, Nat.mod_one]
  | succ n ih =>
    rw [shlBits, shl_ofNat, ih, Nat.mod_pow_succ, Nat.toNat_testBit]
    congr 1
    ring

/-- As many bits as the register is wide leave nothing of what it held. -/
theorem shlBits_toNat {w : Nat} (v c : BitVec w) : shlBits v.toNat w c = v := by
  obtain ⟨m, rfl⟩ : ∃ m, c = BitVec.ofNat w m := ⟨c.toNat, by simp⟩
  apply BitVec.eq_of_toNat_eq
  rw [shlBits_ofNat, BitVec.toNat_ofNat, Nat.mul_add_mod', Nat.mod_mod, Nat.mod_eq_of_lt v.isLt]

/-- A bit written to a register one bit wide is a bit shifted into it (R140). -/
theorem ofBool_eq_shl : ∀ (b : Bool) (c : BitVec 1), BitVec.ofBool b = shl c b := by decide

/-- The frame with one field changed by `g`. -/
def Frame.mapField (g : {w : Nat} → BitVec w → BitVec w) : Field → Frame → Frame
  | .addr, f => { f with addr := g f.addr }
  | .group, f => { f with group := g f.group }
  | .switch, f => { f with switch := g f.switch }
  | .unit, f => { f with unit := g f.unit }
  | .dim, f => { f with dim := g f.dim }

theorem Frame.mapField_switch (g : {w : Nat} → BitVec w → BitVec w) {fld : Field} (f : Frame) (h : fld ≠ .switch) :
    (f.mapField g fld).switch = f.switch := by
  cases fld with
  | switch => exact absurd rfl h
  | _ => rfl

/-- One bit more, the first one sent. -/
theorem Frame.mapField_shlBits_succ (v n : Nat) (fld : Field) (f : Frame) :
    f.mapField (shlBits v (n + 1)) fld = (f.mapField (shl · (v.testBit n)) fld).mapField (shlBits v n) fld := by
  cases fld <;> rfl

/-- The number of bits of a field (R75). -/
def Field.width : Field → Nat
  | .addr => 26
  | .group => 1
  | .switch => 1
  | .unit => 4
  | .dim => 4

/-- `STATE` where `n` bits of a field are still to come, in a frame of switch type `sw`: after the last unit bit the dim
level follows in a Dim frame only (R22, R142). -/
def indexBefore (sw : BitVec 2) : Field → Nat → Int
  | .addr, n => 106 - 4 * n
  | .group, n => 110 - 4 * n
  | .switch, n => 114 - 4 * n
  | .unit, 0 => if sw = 2 then 130 else 146
  | .unit, n + 1 => 126 - 4 * n
  | .dim, n => 146 - 4 * n

/-- Where a bit of a field begins, inside the range of the parts. -/
theorem indexBefore_range (sw : BitVec 2) {fld : Field} {n : Nat} (hn : n < fld.width) :
    (2 ≤ indexBefore sw fld (n + 1) ∧ indexBefore sw fld (n + 1) ≤ 142) ∧ indexBefore sw fld (n + 1) % 4 = 2 := by
  cases fld <;> simp only [indexBefore, Field.width] at * <;> omega

/-- Its fourth part is a part of the field (R130, R138). -/
theorem fieldAt_indexBefore (sw : BitVec 2) {fld : Field} {n : Nat} (hn : n < fld.width) :
    fieldAt (indexBefore sw fld (n + 1) + 3) = fld := by
  cases fld <;> simp only [indexBefore, Field.width] at *
  · rw [fieldAt_addr_iff]; omega
  · rw [fieldAt_group_iff]; omega
  · rw [fieldAt_switch_iff]; omega
  · rw [fieldAt_unit_iff]; omega
  · rw [fieldAt_dim_iff]; omega

/-- A bit is four parts long; only the last unit bit may be followed by a jump (R142, R144). -/
theorem indexBefore_succ (sw : BitVec 2) {fld : Field} {n : Nat} (h : fld ≠ .unit ∨ n ≠ 0) :
    indexBefore sw fld (n + 1) + 3 + 1 = indexBefore sw fld n := by
  cases fld with
  | unit =>
    cases n with
    | zero => simp at h
    | succ n => simp only [indexBefore]; omega
  | _ => simp only [indexBefore]; omega

section
variable {base : State} {rest : List Command} {T : Nat} {x : Int} {f : Frame} {ds : List Nat} {d : Nat} {s : State}

/-! ### One bit of a field -/

/-- Outside the switch type a bit is its value (R136). -/
theorem completeBit_bitSymbol (h : fieldAt s.index ≠ .switch) (v : Bool) :
    completeBit (bitSymbol v) s = valueBit v s := by
  unfold completeBit
  cases hf : fieldAt s.index with
  | switch => exact absurd hf h
  | _ => cases v <;> rfl

theorem Receiving.shiftAddr (h : Receiving base rest x f ds s) (v : Bool) :
    Receiving base rest x (f.mapField (shl · v) .addr) ds (s.shiftAddr v) :=
  { h with scratch_eq := congrArg (Frame.mapField (shl · v) .addr) h.scratch_eq }

theorem Receiving.setGroup (h : Receiving base rest x f ds s) (v : Bool) :
    Receiving base rest x (f.mapField (shl · v) .group) ds (s.setGroup v) :=
  have hg : (s.setGroup v).scratch = s.scratch.mapField (shl · v) .group :=
    congrArg (fun g => { s.scratch with group := g }) (ofBool_eq_shl v s.fGroup)
  { h with scratch_eq := hg.trans (congrArg (Frame.mapField (shl · v) .group) h.scratch_eq) }

theorem Receiving.setSwitch (h : Receiving base rest x f ds s) (sym : Symbol) :
    Receiving base rest x { f with switch := switchOf sym } ds (s.setSwitch sym) :=
  { h with scratch_eq := congrArg (fun f : Frame => { f with switch := switchOf sym }) h.scratch_eq }

theorem Receiving.shiftUnit (h : Receiving base rest x f ds s) (v : Bool) :
    Receiving base rest x (f.mapField (shl · v) .unit) ds (s.shiftUnit v) :=
  { h with scratch_eq := congrArg (Frame.mapField (shl · v) .unit) h.scratch_eq }

theorem Receiving.shiftDim (h : Receiving base rest x f ds s) (v : Bool) :
    Receiving base rest x (f.mapField (shl · v) .dim) ds (s.shiftDim v) :=
  { h with scratch_eq := congrArg (Frame.mapField (shl · v) .dim) h.scratch_eq }

theorem Receiving.fSwitch_eq (h : Receiving base rest x f ds s) : s.fSwitch = f.switch :=
  congrArg Frame.switch h.scratch_eq

/-- A bit that no jump follows leads to the next one (R144). -/
theorem Receiving.advance_bit {fld : Field} {n : Nat} {sw : BitVec 2} (hn : n < fld.width)
    (hne : fld ≠ .unit ∨ n ≠ 0) (h : Receiving base rest (indexBefore sw fld (n + 1) + 3) f ds s) :
    Receiving base rest (indexBefore sw fld n) f ds s.advance := by
  have hr := indexBefore_range sw hn
  rw [← indexBefore_succ sw hne]
  exact h.advance (by omega)

/-- The last unit bit leads to the dim level in a Dim frame and to the stop bit in another (R142). -/
theorem Receiving.exists_afterUnitBit {n : Nat} (hn : n < Field.unit.width) (h3 : f.switch ≠ 3)
    (h : Receiving base rest (indexBefore f.switch .unit (n + 1) + 3) f ds s) :
    ∃ t, afterUnitBit s = .next t ∧ Receiving base rest (indexBefore f.switch .unit n) f ds t := by
  have hx := h.index_eq
  unfold afterUnitBit
  simp only [State.switchIllegal_iff, State.isDimFrame_iff, h.fSwitch_eq, if_neg h3]
  cases n with
  | zero =>
    rw [if_pos (show s.index = 129 from hx), indexBefore]
    split
    · exact ⟨_, rfl, h.advance (show 2 ≤ (129 : Int) ∧ (129 : Int) ≤ 145 by decide)⟩
    · exact ⟨_, rfl, h.advanceTo 146⟩
  | succ n =>
    have hne : s.index ≠ 129 := by rw [hx, indexBefore]; omega
    rw [if_neg hne]
    exact ⟨_, rfl, h.advance_bit hn (.inr n.succ_ne_zero)⟩

/-- The fourth part of a value bit shifts the value into its field (R139, R140, R142, R143). -/
theorem Receiving.exists_completeBit {fld : Field} {n : Nat} (hn : n < fld.width) (hfld : fld ≠ .switch)
    (h3 : f.switch ≠ 3) (h : Receiving base rest (indexBefore f.switch fld (n + 1) + 3) f ds s) (v : Bool) :
    ∃ t, completeBit (bitSymbol v) s = .next t
      ∧ Receiving base rest (indexBefore f.switch fld n) (f.mapField (shl · v) fld) ds t := by
  have hf : fieldAt s.index = fld := h.index_eq ▸ fieldAt_indexBefore f.switch hn
  rw [completeBit_bitSymbol (hf ▸ hfld), valueBit, hf]
  cases fld with
  | addr => exact ⟨_, rfl, (h.shiftAddr v).advance_bit hn (.inl nofun)⟩
  | group => exact ⟨_, rfl, (h.setGroup v).advance_bit hn (.inl nofun)⟩
  | switch => exact absurd rfl hfld
  | unit => exact Receiving.exists_afterUnitBit (f := f.mapField (shl · v) .unit) hn h3 (h.shiftUnit v)
  | dim => exact ⟨_, rfl, (h.shiftDim v).advance_bit hn (.inl nofun)⟩

/-! ### Whole fields -/

/-- The bits of a field are shifted into it one after another. -/
theorem decodes_pulsesBits (ht : InTune base T) {fld : Field} (hfld : fld ≠ .switch) (v : Nat) {n : Nat}
    (hn : n ≤ fld.width) (h3 : f.switch ≠ 3) :
    Decodes (Receiving base rest (indexBefore f.switch fld n) f) (pulsesBits T v n)
      (Receiving base rest (indexBefore f.switch fld 0) (f.mapField (shlBits v n) fld)) := by
  induction n generalizing f with
  | zero => cases fld <;> exact Decodes.nil
  | succ n ih =>
    obtain ⟨hr, h4⟩ := indexBefore_range f.switch hn
    have hbit := decodes_symbol (rest := rest) ht hr h4 fun ds u hu => hu.exists_completeBit hn hfld h3 (v.testBit n)
    have hsw : (f.mapField (shl · (v.testBit n)) fld).switch = f.switch := f.mapField_switch _ hfld
    have hrest := ih (f := f.mapField (shl · (v.testBit n)) fld) (by omega) (hsw ▸ h3)
    rw [hsw, ← Frame.mapField_shlBits_succ] at hrest
    rw [pulsesBits, pulsesBit_eq]
    exact hbit.append hrest

/-! A field of as many bits as its register is wide takes the value sent. -/

theorem decodes_addr (ht : InTune base T) (h3 : f.switch ≠ 3) (a : BitVec 26) :
    Decodes (Receiving base rest 2 f) (pulsesBits T a.toNat 26) (Receiving base rest 106 { f with addr := a }) := by
  have h := decodes_pulsesBits (rest := rest) ht (fld := .addr) nofun a.toNat (n := 26) le_rfl h3
  rwa [Frame.mapField, shlBits_toNat] at h

theorem decodes_group (ht : InTune base T) (h3 : f.switch ≠ 3) (g : BitVec 1) :
    Decodes (Receiving base rest 106 f) (pulsesBits T g.toNat 1) (Receiving base rest 110 { f with group := g }) := by
  have h := decodes_pulsesBits (rest := rest) ht (fld := .group) nofun g.toNat (n := 1) le_rfl h3
  rwa [Frame.mapField, shlBits_toNat] at h

theorem decodes_unit (ht : InTune base T) (h3 : f.switch ≠ 3) (u : BitVec 4) :
    Decodes (Receiving base rest 114 f) (pulsesBits T u.toNat 4)
      (Receiving base rest (if f.switch = 2 then 130 else 146) { f with unit := u }) := by
  have h := decodes_pulsesBits (rest := rest) ht (fld := .unit) nofun u.toNat (n := 4) le_rfl h3
  rwa [Frame.mapField, shlBits_toNat] at h

theorem decodes_dim (ht : InTune base T) (h3 : f.switch ≠ 3) (level : BitVec 4) :
    Decodes (Receiving base rest 130 f) (pulsesBits T level.toNat 4)
      (Receiving base rest 146 { f with dim := level }) := by
  have h := decodes_pulsesBits (rest := rest) ht (fld := .dim) nofun level.toNat (n := 4) le_rfl h3
  rwa [Frame.mapField, shlBits_toNat] at h

/-- The switch type takes the symbol sent, the dim marker included (R141). -/
theorem decodes_switch (ht : InTune base T) (sw : FrameSwitch) :
    Decodes (Receiving base rest 110 f) (pulsesSwitch T sw)
      (Receiving base rest 114 { f with switch := switchCode sw }) := by
  rw [pulsesSwitch_eq, ← switchOf_switchSymbol]
  refine decodes_symbol ht (by decide) (by decide) fun ds u hu => ?_
  have hf : fieldAt u.index = .switch := hu.index_eq ▸ rfl
  refine ⟨_, ?_, (hu.setSwitch _).advance (by decide)⟩
  unfold completeBit
  rw [hf]

/-- Between the unit and the stop bit a Dim frame has a dim level and another frame has nothing (R75, R142, R143). -/
theorem decodes_optionalDim (ht : InTune base T) (sw : FrameSwitch) (hsw : f.switch = switchCode sw) :
    Decodes (Receiving base rest (if f.switch = 2 then 130 else 146) f) (pulsesDim T sw)
      (Receiving base rest 146 { f with dim := (dimCode sw).getD f.dim }) := by
  have h3 : f.switch ≠ 3 := hsw ▸ switchCode_ne_three sw
  cases sw with
  | dim level =>
    rw [if_pos (show f.switch = 2 from hsw)]
    exact decodes_dim ht h3 level
  | off | on =>
    rw [if_neg (by rw [hsw]; decide)]
    exact Decodes.nil

/-- The frame sent, with the dim level `dim` where none is sent. -/
def sentFrame (a : BitVec 26) (g : BitVec 1) (sw : FrameSwitch) (u dim : BitVec 4) : Frame :=
  ⟨a, u, (dimCode sw).getD dim, g, switchCode sw⟩

/-- A frame but for its last pulse, the low of the stop bit. -/
def pulsesToStop (t : Nat) (a : BitVec 26) (g : BitVec 1) (sw : FrameSwitch) (u : BitVec 4) : List Nat :=
  pulsesStart t ++ pulsesBits t a.toNat 26 ++ pulsesBits t g.toNat 1 ++ pulsesSwitch t sw ++ pulsesBits t u.toNat 4
    ++ pulsesDim t sw ++ [t]

theorem pulsesFrame_eq (t : Nat) (a : BitVec 26) (g : BitVec 1) (sw : FrameSwitch) (u : BitVec 4) :
    pulsesFrame t a g sw u = pulsesToStop t a g sw u ++ [40 * t] := by
  simp [pulsesFrame, pulsesToStop, pulsesStop]

/-- All of the frame up to its stop gap: every field takes the value sent. -/
theorem decodes_pulsesToStop (ht : InTune base T) (h3 : f.switch ≠ 3) (a : BitVec 26) (g : BitVec 1) (sw : FrameSwitch)
    (u : BitVec 4) :
    Decodes (Receiving base rest 0 f) (pulsesToStop T a g sw u) (Receiving base rest 147 (sentFrame a g sw u f.dim)) := by
  have hsw := switchCode_ne_three sw
  have hhead : Decodes (Receiving base rest 0 f) _ (Receiving base rest 106 { f with addr := a }) :=
    (decodes_start ht).append (decodes_addr ht h3 a)
  have hgroup := hhead.append (decodes_group (f := { f with addr := a }) ht h3 g)
  have hswitch := hgroup.append (decodes_switch (f := { f with addr := a, group := g }) ht sw)
  have hunit := hswitch.append (decodes_unit (f := { f with addr := a, group := g, switch := switchCode sw }) ht hsw u)
  have hdim := hunit.append
    (decodes_optionalDim (f := { f with addr := a, group := g, switch := switchCode sw, unit := u }) ht sw rfl)
  exact hdim.append (decodes_stopHigh ht)

/-- The edge that ends the stop gap completes the frame (R160, R161). -/
theorem Receiving.step_stopLow (ht : InTune base T) (h3 : f.switch ≠ 3)
    (h : Receiving base rest 147 f [40 * T, d] s) :
    ∃ u, Receiving base rest 147 f [d] u ∧ step s = .next (aggregateFrame u) := by
  obtain ⟨u, hu, _, he⟩ := h.step_eq ht (a := .stopLo) rfl
  have hlow := (hu.agree (stopLowInRange _) fun _ => rfl).trans ht.stopLowInRange_eq_true
  have hlegal : ¬ u.switchIllegal = true := by
    rwa [State.switchIllegal_iff, hu.fSwitch_eq]
  refine ⟨u, hu, ?_⟩
  rw [he, runArm, stopLo, if_pos hlow, if_neg hlegal]

end

/-! ### The completed frame -/

/-- The baseline frame as one value (R35). -/
def State.baseline (s : State) : Frame := ⟨s.bAddr, s.bUnit, s.bDim, s.bGroup, s.bSwitch⟩

theorem State.countAfter_eq (s : State) : s.countAfter = if s.scratch = s.baseline then s.repeats + 1 else 1 := by
  simp only [State.scratch, State.baseline, Frame.mk.injEq]

theorem State.repeats_countFrame_compareBaseline (s : State) :
    s.compareBaseline.countFrame.repeats = s.countAfter := by
  have hb : s.sameAsBaseline = true ↔ s.SameFrame := s.sameAsBaseline_iff
  rw [State.countFrame_repeats, State.compareBaseline_repeats, State.countAfter]
  by_cases h : s.SameFrame
  · rw [if_pos (hb.2 h), if_pos h]
  · rw [if_neg fun h' => h (hb.1 h'), if_neg h]
    rfl

theorem State.thresholdReached_countFrame_iff (s : State) :
    s.compareBaseline.countFrame.thresholdReached = true ↔ s.minRepeats.toNat ≤ s.countAfter.toNat := by
  rw [State.thresholdReached_iff, State.repeats_countFrame_compareBaseline]
  simp

/-- What the aggregator leaves, whatever becomes of the frame: it is the baseline, and it is counted (R162 to R164). -/
theorem aggregateFrame_registers (s : State) :
    (aggregateFrame s).pending = s.pending ∧ (aggregateFrame s).scratch = s.scratch
      ∧ (aggregateFrame s).baseline = s.scratch ∧ (aggregateFrame s).period = s.period
      ∧ (aggregateFrame s).repeats = s.countAfter := by
  rw [← State.repeats_countFrame_compareBaseline]
  rcases aggregateFrame_cases s with ⟨_, _, h⟩ | ⟨_, _, h⟩ | ⟨_, h⟩ <;>
    simp [h, State.scratch, State.baseline]

/-- The frame word packs the scratch frame with the period (R52). -/
theorem State.frameWord_eq_pack_scratch (s : State) : s.frameWord =
    pack s.period s.scratch.addr s.scratch.unit s.scratch.group s.scratch.switch s.scratch.dim := rfl

/-- At the threshold a frame is dispatched where no dispatch is in progress (R165, R166, R210). -/
theorem aggregateFrame_eq_dispatchEntry {s : State} (hr : s.minRepeats.toNat ≤ s.countAfter.toNat)
    (hc : s.inCallback = false) : aggregateFrame s = s.compareBaseline.countFrame.dispatchEntry := by
  rcases aggregateFrame_cases s with ⟨_, _, h⟩ | ⟨_, hn, _⟩ | ⟨hn, _⟩
  · exact h
  · cases hc.symm.trans hn
  · cases (s.thresholdReached_countFrame_iff.2 hr).symm.trans hn

/-- Below the threshold the block waits for the next repeat (R168). -/
theorem aggregateFrame_eq_awaitRepeat {s : State} (hr : s.countAfter.toNat < s.minRepeats.toNat) :
    aggregateFrame s = s.compareBaseline.countFrame.awaitRepeat := by
  rcases aggregateFrame_cases s with ⟨hn, _⟩ | ⟨hn, _⟩ | ⟨_, h⟩
  · exact absurd (s.thresholdReached_countFrame_iff.1 hn) (by omega)
  · exact absurd (s.thresholdReached_countFrame_iff.1 hn) (by omega)
  · exact h

/-- With a dispatch in progress nothing is emitted (R167). -/
theorem aggregateFrame_dispatches_of_inCallback {s : State} (hc : s.inCallback = true) :
    (aggregateFrame s).dispatches = s.dispatches := by
  rcases aggregateFrame_cases s with ⟨_, hn, _⟩ | ⟨_, _, h⟩ | ⟨_, h⟩
  · cases hc.symm.trans hn
  · simp [h]
  · simp [h]

/-! ### The whole frame -/

/-- A frame from the high of its start bit to the edge after its stop gap: every field takes the value sent, and the
aggregator runs on the frame. -/
theorem runsTo_pulsesFrame {base s : State} {rest : List Command} {T r : Nat} {f : Frame} (ht : InTune base T)
    (h3 : f.switch ≠ 3) (a : BitVec 26) (g : BitVec 1) (sw : FrameSwitch) (u : BitVec 4)
    (h : Receiving base rest 0 f (pulsesFrame T a g sw u ++ [r]) s) :
    RunsTo (pulsesFrame T a g sw u).length s fun t =>
      ∃ v, Receiving base rest 147 (sentFrame a g sw u f.dim) [r] v ∧ t = aggregateFrame v := by
  rw [pulsesFrame_eq, List.append_assoc] at h
  rw [pulsesFrame_eq, List.length_append]
  refine (decodes_pulsesToStop ht h3 a g sw u _ s (List.cons_ne_nil _ _) h).trans fun t hstop => ?_
  obtain ⟨v, hv, he⟩ := hstop.step_stopLow ht (switchCode_ne_three sw)
  exact .of_step he ⟨v, hv, rfl⟩

/-- Settles O60: the block receives the whole frame, and what the aggregator then does depends on the count and the
guard. -/
theorem frameRoundTrip : Obligations.FrameRoundTrip := by
  intro s T r a g sw u rest hinv hen hsk hx hlead hflight hlo hhi hwrap hmin hr hpend
  have ht : InTune s T := ⟨hen, hsk, (hinv.decodingSound hx.ge).calibrated, ⟨hlo, hhi⟩, hwrap⟩
  have hstart : Receiving s rest 0 s.scratch (pulsesFrame T a g sw u ++ [r]) s := by
    refine ⟨hx, rfl, rfl, hlead.symm, hlead ▸ hflight, hpend, fun d hd => ?_⟩
    rcases List.mem_append.1 hd with hd | hd
    · exact ht.min1_le_of_mem_pulsesFrame hd
    · exact List.mem_singleton.1 hd ▸ ⟨hmin, hr⟩
  obtain ⟨t, hrun, v, hv, rfl⟩ := runsTo_pulsesFrame ht hinv.registersSound.fSwitch a g sw u hstart
  obtain ⟨hport, hscratch, hbase, hper, hrep⟩ := aggregateFrame_registers v
  rw [hv.scratch_eq] at hscratch hbase
  have hvper := hv.agree State.period fun _ => rfl
  have hvmin := hv.agree State.minRepeats fun _ => rfl
  have hvcall := hv.agree State.inCallback fun _ => rfl
  have hvdis := hv.agree State.dispatches fun _ => rfl
  refine ⟨_, hrun, hport.trans hv.waiting, congrArg Frame.addr hscratch, congrArg Frame.group hscratch,
    congrArg Frame.switch hscratch, congrArg Frame.unit hscratch, congrArg Frame.dim hscratch,
    congrArg Frame.addr hbase, congrArg Frame.group hbase, congrArg Frame.switch hbase, congrArg Frame.unit hbase,
    congrArg Frame.dim hbase, hper.trans hvper, ?_, ?_, ?_, ?_⟩
  · rw [hrep, State.countAfter_eq, hv.scratch_eq, hv.agree State.baseline fun _ => rfl,
      hv.agree State.repeats fun _ => rfl]
    simp only [sentFrame, State.baseline, State.scratch, Frame.mk.injEq]
  · rintro ⟨hthr, hc⟩
    rw [hrep, ← hvmin] at hthr
    rw [aggregateFrame_eq_dispatchEntry hthr (hvcall.trans hc)]
    have hword : v.frameWord = pack s.period a u g (switchCode sw) ((dimCode sw).getD s.fDim) := by
      rw [State.frameWord_eq_pack_scratch, hv.scratch_eq, hvper]
      rfl
    refine ⟨State.index_dispatchEntry _, rfl, ?_⟩
    simp [hword, hvdis]
  · intro hlt
    rw [hrep, ← hvmin] at hlt
    rw [aggregateFrame_eq_awaitRepeat hlt]
    exact ⟨State.index_awaitRepeat _, by simp [hvdis]⟩
  · intro hc
    rw [aggregateFrame_dispatches_of_inCallback (hvcall.trans hc), hvdis]

end Sys2Proof.Machine

/-! SUPPORT. The front end of `EDGE` (R91 to R97): what each of its branches answers, what an enabled edge does to the
delay line, and that no arm reads its newer entries, so that a rejected glitch leaves every register as it is. -/

namespace Sys2Proof.Machine

open Host (Outcome)

variable {s t : State} {ts : Timestamp}

/-! ### The branches of the front end -/

theorem execEdge_of_disabled (he : s.enabled = false) : execEdge ts s = .next (s.note .disabled) := by
  simp [execEdge, he]

theorem execEdge_of_skip (he : s.enabled = true) (hk : s.skip = true) :
    execEdge ts s = .next (s.shiftDelay ts).consumeSkip := by
  simp [execEdge, acceptEdge, he, hk]

/-- While decoding, an interval below `MIN1` is rejected before the arm is run (R94). -/
theorem execEdge_of_noise (he : s.enabled = true) (hk : s.skip = false) (hx : 0 ≤ s.index ∧ s.index ≤ 147)
    (hn : s.newInterval ts < s.min1.toNat) : execEdge ts s = .next (s.shiftDelay ts).rejectNoise := by
  have hc := execEdge_cases ts s
  generalize execEdge ts s = o at hc ⊢
  cases hc with
  | disabled h => simp [he] at h
  | skipped _ h => simp [hk] at h
  | illegal _ _ ha => omega
  | noise => rfl
  | measured a hm =>
    obtain ⟨_, _, hmin⟩ := hm
    exact absurd (hmin hx.1) (by omega)

/-- Settles O20: the enable gate (R91). -/
theorem disabledEdgeHasNoEffect : Obligations.DisabledEdgeHasNoEffect := fun _ _ he => execEdge_of_disabled he

/-- Settles O21: the skip flag (R93). -/
theorem skippedEdgeOnlyClearsSkip : Obligations.SkippedEdgeOnlyClearsSkip := fun _ _ he hk => execEdge_of_skip he hk

/-- Settles O24: the inversion of `EDGE` through its gates, and the values of `STATE` that each arm is for. -/
theorem measuredEdgeRunsItsArm : Obligations.MeasuredEdgeRunsItsArm :=
  ⟨fun _ _ _ hm ha => execEdge_measured hm ha, fun x => ⟨armOf_search_iff x, armOf_startHi_iff x, armOf_startLo_iff x,
    armOf_part_iff x, armOf_stopHi_iff x, armOf_stopLo_iff x, armOf_eq_none_iff x⟩⟩

/-! ### The delay line -/

/-- What an edge that measures writes in the front end: the delay line with its leading edge, and not `SKIP`. -/
theorem EdgeNext.front_of_measures (hn : EdgeNext ts s t) (hm : s.Measures ts) :
    t.ts0 = s.ts2 ∧ t.ts1 = s.ts2 ∧ t.ts2 = ts ∧ t.skip = s.skip := by
  obtain ⟨he, hk, hmin⟩ := hm
  cases hn with
  | disabled h => simp [he] at h
  | skipped _ h => simp [hk] at h
  | noise _ _ hx hlt => exact absurd (hmin hx.1) (by omega)
  | bit _ _ _ _ _ _ _ _ hu => rw [hu.frame]; exact ⟨rfl, rfl, rfl, rfl⟩
  | frameRepeat | dispatch | suppressed => simp
  | _ => exact ⟨rfl, rfl, rfl, rfl⟩

/-- An enabled edge that does not measure is skipped or is noise: the leading edge stays. -/
theorem EdgeNext.delayLine_of_not_measures (hn : EdgeNext ts s t) (he : s.enabled = true) (hm : ¬ s.Measures ts) :
    t.ts0 = s.ts0 ∧ t.ts1 = s.ts2 ∧ t.ts2 = ts := by
  cases hn with
  | disabled h => simp [he] at h
  | skipped | noise => exact ⟨rfl, rfl, rfl⟩
  | part _ h | badPattern _ h | bit _ _ h => exact absurd h hm
  | frameRepeat h | dispatch h | suppressed h => exact absurd h.measures hm
  | _ h => exact absurd h hm

/-- Settles O23: under the invariant no edge stops, and whether it measures decides what happens to `TS[0]`. -/
theorem enabledEdgeShiftsDelayLine : Obligations.EnabledEdgeShiftsDelayLine := by
  intro ts s h he
  obtain ⟨t, ht⟩ := exec_progress (.edge ts) h
  have hn : EdgeNext ts s t := execEdge_next ht
  by_cases hm : s.Measures ts
  · obtain ⟨h0, h1, h2, _⟩ := hn.front_of_measures hm
    exact ⟨t, ht, h1, h2, fun _ => h0, fun hc => absurd hm hc⟩
  · obtain ⟨h0, h1, h2⟩ := hn.delayLine_of_not_measures he hm
    exact ⟨t, ht, h1, h2, fun hc => absurd hc hm, fun _ => h0⟩

/-- Settles O22: below `MIN1` the filter answers, `MIN1` is 0.3 P rounded up, and a searching block measures every edge. -/
theorem noiseFilterRejects : Obligations.NoiseFilterRejects := by
  intro ts s he hk
  refine ⟨fun h0 hx hn => execEdge_of_noise he hk ⟨h0, hx⟩ hn, fun hc => ?_, fun hx t ht => ?_⟩
  · obtain ⟨_, hmin, _⟩ := hc
    have hle := min1_le_iff s.period.toNat (ts - s.ts2).toNat
    rw [← hmin] at hle
    omega
  · have hm : s.Measures ts := ⟨he, hk, fun h0 => by omega⟩
    obtain ⟨_, _, _, hskip⟩ := (execEdge_next ht).front_of_measures hm
    exact hskip.trans hk

/-- The difference of two clock readings is the true difference of the times, if that is less than 2^32 (R99). -/
theorem toNat_ofNat_sub_ofNat {t t' : Nat} (hle : t ≤ t') (hlt : t' - t < 2 ^ 32) :
    (BitVec.ofNat 32 t' - BitVec.ofNat 32 t).toNat = t' - t := by
  simp only [BitVec.toNat_sub, BitVec.toNat_ofNat]
  omega

/-- Settles O25: both the duration and the interval are differences of two successive readings. -/
theorem wrappedClockMeasuresTrueTime : Obligations.WrappedClockMeasuresTrueTime := by
  intro t0 t1 t2 s hkept h0 h2
  simp only [timesKept, Bool.and_true, Bool.and_eq_true, decide_eq_true_eq] at hkept
  obtain ⟨⟨hle, hlt⟩, hle', hlt'⟩ := hkept
  refine ⟨?_, ?_⟩
  · show (s.ts2 - s.ts0).toNat = t1 - t0
    rw [h0, h2, toNat_ofNat_sub_ofNat hle hlt]
  · show (BitVec.ofNat 32 t2 - s.ts2).toNat = t2 - t1
    rw [h2, toNat_ofNat_sub_ofNat hle' hlt']

/-! ### A disabled block -/

/-- A run of one step more of the block starts with that step. -/
theorem core_run_succ_of_step (h : step s = .next t) (k : Nat) :
    Sys2Proof.core.run (k + 1) s = Sys2Proof.core.run k t := run_succ_of_step (M := Sys2Proof.core) h k

/-- Settles O16, by induction on the edges: each is taken from the port and noted, and leaves the block disabled. -/
theorem disabledBlockIgnoresEdges : Obligations.DisabledBlockIgnoresEdges := by
  intro tss a s rest he hp
  induction tss generalizing s with
  | nil =>
    obtain rfl : s.pending = rest := hp
    simp [Host.Core.run]
  | cons ts tss ih =>
    have hstep : step s = .next (({ s with pending := commandsOf a (tss.map .edge) ++ rest } : State).note .disabled) :=
      (step_eq_execEdge hp).trans (execEdge_of_disabled he)
    have hrun := ih (({ s with pending := commandsOf a (tss.map .edge) ++ rest } : State).note .disabled) he rfl
    refine (core_run_succ_of_step hstep tss.length).trans (hrun.trans ?_)
    simp [State.note, List.replicate_succ]

/-! ### What no arm reads -/

/-- The newer delay-line entries, the port and the trace: what no arm of `EDGE` reads once the edge has measured. -/
structure Front where
  ts1 : Timestamp
  ts2 : Timestamp
  pending : List Command
  trace : List EdgeEvent

/-- What noting an event (R17) does to the front. -/
def Front.note (e : EdgeEvent) (f : Front) : Front := { f with trace := f.trace ++ [e] }

/-- The front of a state. -/
def State.front (s : State) : Front := ⟨s.ts1, s.ts2, s.pending, s.trace⟩

/-- The state with another front: every register but `TS[1]` and `TS[2]` and every event as they are. -/
def State.withFront (f : Front) (s : State) : State :=
  { s with ts1 := f.ts1, ts2 := f.ts2, pending := f.pending, trace := f.trace }

@[simp] theorem State.index_withFront (f : Front) (s : State) : (s.withFront f).index = s.index := rfl

@[simp] theorem State.acc_withFront (f : Front) (s : State) : (s.withFront f).acc = s.acc := rfl

@[simp] theorem classOf_withFront (d : Timestamp) (f : Front) (s : State) : classOf d (s.withFront f) = classOf d s := rfl

theorem State.compareBaseline_withFront (f : Front) (s : State) :
    (s.withFront f).compareBaseline = s.compareBaseline.withFront f := by
  unfold State.compareBaseline
  rw [apply_ite (State.withFront f)]
  rfl

/-- The outcome is the same whatever the front: the same fault, or the same registers and one note, always the same. -/
inductive FrontFree (o : Front → Outcome State Fault Refusal) : Prop where
  | next (e : EdgeEvent) (t : State) (h : ∀ f, o f = .next (t.withFront (f.note e)))
  | fault (r : Fault) (h : ∀ f, o f = .fault r)

/-- A test that reads no front, between two outcomes that are the same whatever the front. -/
theorem FrontFree.next_ite (p : Prop) [Decidable p] {g : Front → State} {e e' : EdgeEvent} (t t' : State)
    (h : ∀ f, g f = if p then t.withFront (f.note e) else t'.withFront (f.note e')) : FrontFree fun f => .next (g f) := by
  by_cases hp : p
  · exact .next e t fun f => congrArg _ ((h f).trans (if_pos hp))
  · exact .next e' t' fun f => congrArg _ ((h f).trans (if_neg hp))

theorem search_frontFree (d : Timestamp) (s : State) : FrontFree fun f => .next (search d (s.withFront f)) :=
  .next_ite (Config.syncFloorUs < d.toNat) (s.calibrate d) (s.note .ignored) fun _ => rfl

theorem startHi_frontFree (d : Timestamp) (s : State) : FrontFree fun f => .next (startHi d (s.withFront f)) :=
  .next_ite (exceedsShortMax d s = true) (s.raiseResync .startHiLong) (s.advanceTo 1) fun _ => rfl

theorem startLo_frontFree (d : Timestamp) (s : State) : FrontFree fun f => .next (startLo d (s.withFront f)) :=
  .next_ite (startLowInRange d s = true) (s.advanceTo 2) (s.raiseResync .startLoRange) fun _ => rfl

theorem stopHi_frontFree (d : Timestamp) (s : State) : FrontFree fun f => .next (stopHi d (s.withFront f)) :=
  .next_ite (exceedsShortMax d s = true) (s.raiseResync .stopHiLong) (s.advanceTo 147) fun _ => rfl

theorem afterUnitBit_frontFree (s : State) : FrontFree fun f => afterUnitBit (s.withFront f) := by
  by_cases hx : s.index = 129
  · by_cases h3 : s.switchIllegal = true
    · exact .fault _ fun _ => (if_pos hx).trans (if_pos h3)
    · by_cases h2 : s.isDimFrame = true
      · exact .next _ s.advance fun _ => (if_pos hx).trans ((if_neg h3).trans (if_pos h2))
      · exact .next _ (s.advanceTo 146) fun _ => (if_pos hx).trans ((if_neg h3).trans (if_neg h2))
  · exact .next _ s.advance fun _ => if_neg hx

theorem valueBit_frontFree (v : Bool) (s : State) : FrontFree fun f => valueBit v (s.withFront f) := by
  simp only [valueBit, State.index_withFront]
  cases fieldAt s.index with
  | addr => exact .next _ (s.shiftAddr v).advance fun _ => rfl
  | group => exact .next _ (s.setGroup v).advance fun _ => rfl
  | unit => exact afterUnitBit_frontFree (s.shiftUnit v)
  | dim => exact .next _ (s.shiftDim v).advance fun _ => rfl
  | switch => exact .next _ s.advance fun _ => rfl

theorem completeBit_frontFree (sym : Symbol) (s : State) : FrontFree fun f => completeBit sym (s.withFront f) := by
  simp only [completeBit, State.index_withFront]
  split
  · exact .next _ (s.setSwitch _).advance fun _ => rfl
  · exact .next _ (s.raiseResync .dimMisplaced) fun _ => rfl
  · exact valueBit_frontFree true s
  · exact valueBit_frontFree false s

theorem afterShift_frontFree (s : State) : FrontFree fun f => afterShift (s.withFront f) := by
  simp only [afterShift, State.index_withFront, State.acc_withFront]
  by_cases h4 : isFourthPart s.index = true
  · simp only [h4, if_true]
    cases symbolOf s.acc with
    | none => exact .next _ (s.raiseResync .badPattern) fun _ => rfl
    | some sym => exact completeBit_frontFree sym s
  · exact .next _ s.advance fun _ => if_neg h4

theorem part_frontFree (d : Timestamp) (s : State) : FrontFree fun f => part d (s.withFront f) := by
  simp only [part, classOf_withFront]
  cases classOf d s with
  | none => exact .next _ (s.raiseResync .partRange) fun _ => rfl
  | some b => exact afterShift_frontFree (s.shiftAcc b)

theorem settleFrame_frontFree (s : State) : FrontFree fun f => .next (settleFrame (s.withFront f)) := by
  by_cases hr : s.thresholdReached = true
  · by_cases hc : s.inCallback = true
    · exact .next _ s.suppressDispatch fun _ => congrArg _ ((if_pos hr).trans (if_pos hc))
    · exact .next _ s.dispatchEntry fun _ => congrArg _ ((if_pos hr).trans (if_neg hc))
  · exact .next _ s.awaitRepeat fun _ => congrArg _ (if_neg hr)

theorem aggregateFrame_frontFree (s : State) : FrontFree fun f => .next (aggregateFrame (s.withFront f)) := by
  simp only [aggregateFrame, State.compareBaseline_withFront]
  exact settleFrame_frontFree s.compareBaseline.countFrame

theorem stopLo_frontFree (d : Timestamp) (s : State) : FrontFree fun f => stopLo d (s.withFront f) := by
  by_cases hd : stopLowInRange d s = true
  · by_cases h3 : s.switchIllegal = true
    · exact .fault _ fun _ => (if_pos hd).trans (if_pos h3)
    · have heq : ∀ f, stopLo d (s.withFront f) = .next (aggregateFrame (s.withFront f)) :=
        fun _ => (if_pos hd).trans (if_neg h3)
      simpa only [heq] using aggregateFrame_frontFree s
  · exact .next _ (s.raiseResync .stopLoRange) fun _ => if_neg hd

theorem runArm_frontFree (a : Arm) (d : Timestamp) (s : State) : FrontFree fun f => runArm a d (s.withFront f) := by
  cases a with
  | search => exact search_frontFree d s
  | startHi => exact startHi_frontFree d s
  | startLo => exact startLo_frontFree d s
  | part => exact part_frontFree d s
  | stopHi => exact stopHi_frontFree d s
  | stopLo => exact stopLo_frontFree d s

/-- An arm that goes on from one front goes on from every front, to the same registers and with the same note. -/
theorem runArm_withFront {a : Arm} {d : Timestamp} (h : runArm a d s = .next t) :
    ∃ e, ∀ f, runArm a d (s.withFront f) = .next (t.withFront (f.note e)) := by
  cases runArm_frontFree a d s with
  | next e u hu =>
    cases (hu s.front).symm.trans h
    exact ⟨e, hu⟩
  | fault r hr => cases (hr s.front).symm.trans h

/-! ### A glitch -/

/-- An edge that measures has the same registers and the same note whatever its own time and the edges before it: what it
measures lies between `TS[0]` and `TS[2]` (R95). -/
theorem step_measures_withFront (hl : s.SequencerLegal) (hm : s.Measures ts) (h : execEdge ts s = .next t) :
    ∃ e, ∀ ts1 ts' i rest trace, s.Measures ts' →
      step (s.withFront ⟨ts1, s.ts2, ⟨i, encode (.edge ts')⟩ :: rest, trace⟩)
        = .next (t.withFront ⟨s.ts2, ts', rest, trace ++ [e]⟩) := by
  have harm : armOf s.index ≠ none := fun hc => by
    have := (armOf_eq_none_iff _).1 hc
    omega
  obtain ⟨a, ha⟩ := Option.ne_none_iff_exists'.1 harm
  obtain ⟨e, he⟩ := runArm_withFront ((execEdge_measured hm ha).symm.trans h)
  refine ⟨e, fun ts1 ts' i rest trace hm' => (step_eq_execEdge rfl).trans ?_⟩
  exact (execEdge_measured (s := s.withFront ⟨ts1, s.ts2, rest, trace⟩) hm' ha).trans (he ⟨s.ts2, ts', rest, trace⟩)

/-- A glitch and the edge after it, from a decoding block: the first is noise, the second is skipped, and only the front
has changed (R93, R94). -/
theorem run_glitch {c d : Timestamp} {i j : Agent} {rest : List Command} (he : s.enabled = true) (hk : s.skip = false)
    (hx : 0 ≤ s.index ∧ s.index ≤ 147) (hn : s.newInterval c < s.min1.toNat)
    (hp : s.pending = ⟨i, encode (.edge c)⟩ :: ⟨j, encode (.edge d)⟩ :: rest) (k : Nat) :
    Sys2Proof.core.run (k + 2) s
      = Sys2Proof.core.run k (s.withFront ⟨c, d, rest, s.trace ++ [EdgeEvent.noise] ++ [EdgeEvent.skipped]⟩) := by
  have hC : step s = .next
      { s.withFront ⟨s.ts2, c, ⟨j, encode (.edge d)⟩ :: rest, s.trace ++ [EdgeEvent.noise]⟩ with skip := true } :=
    (step_eq_execEdge hp).trans (execEdge_of_noise he hk hx hn)
  have hD : step { s.withFront ⟨s.ts2, c, ⟨j, encode (.edge d)⟩ :: rest, s.trace ++ [EdgeEvent.noise]⟩ with skip := true }
      = .next { s.withFront ⟨c, d, rest, s.trace ++ [EdgeEvent.noise] ++ [EdgeEvent.skipped]⟩ with skip := false } :=
    (step_eq_execEdge rfl).trans (execEdge_of_skip he rfl)
  rw [← hk] at hD
  exact (core_run_succ_of_step hC (k + 1)).trans (core_run_succ_of_step hD k)

/-- Three successive intervals that together are less than 2^32 are together at least the first. -/
theorem toNat_sub_le_of_no_wrap {a b c d : Timestamp} (h : (b - a).toNat + (c - b).toNat + (d - c).toNat < 2 ^ 32) :
    (b - a).toNat ≤ (d - a).toNat := by
  bv_omega

/-- Settles O54: B and D measure the same pulse, C and D leave no register changed, and E measures from the same `TS[0]`
and `TS[2]` in both runs. -/
theorem glitchLeavesNoTrace : Obligations.GlitchLeavesNoTrace := by
  intro s s1 b c d e hinv he hk hx hb hB hx1 hc hE hsum
  have hmB : s.Measures b := ⟨he, hk, fun _ => hb⟩
  have hmD : s.Measures d := ⟨he, hk, fun _ => hb.trans (toNat_sub_le_of_no_wrap hsum)⟩
  have hn : EdgeNext b s s1 := execEdge_next hB
  have hinv1 : s1.Inv := hn.inv hinv
  obtain ⟨_, _, _, hk1⟩ := hn.front_of_measures hmB
  obtain ⟨_, he1, _⟩ := hn.control_eq
  obtain ⟨_, hmin, _⟩ := hn.calibration_eq (by omega)
  rw [← hmin] at hc hE
  -- E meets the registers of `s1` in both runs, with D as the most recent edge
  have hmE : (s1.withFront ⟨c, d, [], []⟩).Measures e := ⟨he1.trans he, hk1.trans hk, fun _ => hE⟩
  have hinv2 : (s1.withFront ⟨c, d, [], []⟩).Inv := hinv1
  obtain ⟨t, ht⟩ := exec_progress (.edge e) hinv2
  obtain ⟨x, hX⟩ := step_measures_withFront hinv.1 hmB hB
  obtain ⟨y, hY⟩ := step_measures_withFront hinv2.1 hmE ht
  have hstepB := hX s.ts1 b .edgeSource (commandsOf .edgeSource [.edge c, .edge d, .edge e]) s.trace hmB
  have hstepD := hX s.ts1 d .edgeSource (commandsOf .edgeSource [.edge e]) s.trace hmD
  have hCD := run_glitch
    (s := s1.withFront ⟨s.ts2, b, commandsOf .edgeSource [.edge c, .edge d, .edge e], s.trace ++ [x]⟩)
    (he1.trans he) (hk1.trans hk) (hinv1.decodingSound hx1).legal hc rfl 1
  have hwith := (core_run_succ_of_step hstepB 3).trans (hCD.trans (core_run_succ_of_step (hY c e .edgeSource [] _ hmE) 0))
  have hwithout := (core_run_succ_of_step hstepD 1).trans (core_run_succ_of_step (hY s.ts2 e .edgeSource [] _ hmE) 0)
  exact ⟨_, _, x, y, hwith, hwithout, rfl, List.append_assoc .., by simp [State.withFront]⟩

end Sys2Proof.Machine

/-! PROOFS of the sync statements (spec/41_sync.md, R110 to R116): an `EDGE` to a searching block runs the searching arm on
the gap it measures, and a gap above the floor leaves the block calibrated from that gap alone. -/

namespace Sys2Proof.Machine

variable {s : State} {ts : Timestamp}

/-! ### An `EDGE` while searching -/

/-- A searching block filters nothing, so every edge that is not skipped reaches the searching arm (R94, R96). -/
theorem execEdge_searching (he : s.enabled = true) (hk : s.skip = false) (hx : s.index = -1) :
    execEdge ts s = .next (search (s.ts2 - s.ts0) (s.measuredAt ts)) := by
  have hm : s.Measures ts := ⟨he, hk, fun h0 => by omega⟩
  exact execEdge_measured hm ((armOf_search_iff _).2 hx)

theorem searchAbove_of_lt {floor : Nat} {d : Timestamp} (h : floor < d.toNat) (s : State) :
    searchAbove floor d s = s.calibrate d := if_pos h

theorem searchAbove_of_le {floor : Nat} {d : Timestamp} (h : d.toNat ≤ floor) (s : State) :
    searchAbove floor d s = s.note .ignored := if_neg (Nat.not_lt.2 h)

/-- A gap above the floor calibrates the block (R110). -/
theorem execEdge_syncGap (he : s.enabled = true) (hk : s.skip = false) (hx : s.index = -1) (hd : 4800 < s.measured) :
    execEdge ts s = .next ((s.measuredAt ts).calibrate (s.ts2 - s.ts0)) := by
  rw [execEdge_searching he hk hx, search, searchAbove_of_lt hd]

/-- Settles O28: the two answers of the searching arm, each written out register by register. -/
theorem searchArm : Obligations.SearchArm := by
  intro ts s he hk hx
  refine ⟨fun hd => execEdge_syncGap he hk hx hd, fun hd => (execEdge_searching he hk hx).trans ?_⟩
  rw [search, searchAbove_of_le hd]
  rfl

/-! ### What a calibration gives -/

/-- Settles O29: the block is calibrated, with a period of at least 120, and the period of any gap is below 2^27. -/
theorem calibrationIsExact : Obligations.CalibrationIsExact := by
  intro ts s he hk hx hd
  refine ⟨_, execEdge_syncGap he hk hx hd, ?_⟩
  obtain ⟨hperiod, _⟩ := (s.measuredAt ts).calibrate_registers (s.ts2 - s.ts0)
  obtain ⟨hlow, hmin1, hmax1, hmin5, hmax5⟩ := State.calibrated_calibrate hd (s.measuredAt ts)
  have hhigh := periodOf_le (s.ts2 - s.ts0)
  rw [← hperiod] at hhigh
  have hmin := min1_le_iff ((s.measuredAt ts).calibrate (s.ts2 - s.ts0)).period.toNat
  rw [← hmin1] at hmin
  have h36 := hmin 35
  exact ⟨hperiod, hmin, hmax1, hmin5, hmax5, hlow, by omega, by omega⟩

/-- Settles O30: what a calibration writes is a function of the gap, and both blocks measure the same one. -/
theorem calibrationForgetsThePast : Obligations.CalibrationForgetsThePast := by
  intro ts ts' s s' he hk hx he' hk' hx' hgap hd
  have hsame : s.ts2 - s.ts0 = s'.ts2 - s'.ts0 := BitVec.eq_of_toNat_eq hgap
  have hs' := execEdge_syncGap (ts := ts') he' hk' hx' (hgap ▸ hd)
  rw [← hsame] at hs'
  exact ⟨_, _, execEdge_syncGap he hk hx hd, hs', rfl, rfl, rfl, rfl, rfl, rfl, rfl, rfl, rfl, rfl⟩

/-! ### A floor below 40 -/

/-- A gap below 40 calibrates the period and every threshold to 0 (R115). -/
theorem State.calibrate_registers_of_lt {d : Timestamp} (hd : d.toNat < 40) (s : State) :
    (s.calibrate d).period = 0 ∧ (s.calibrate d).min1 = 0 ∧ (s.calibrate d).max1 = 0 ∧ (s.calibrate d).min5 = 0
      ∧ (s.calibrate d).max5 = 0 := by
  have hp : periodOf d = 0 := Nat.div_eq_of_lt hd
  simp only [State.calibrate_period, State.calibrate_min1, State.calibrate_max1, State.calibrate_min5,
    State.calibrate_max5, hp]
  decide

/-- With `MIN1` at 0 no interval is noise (R94). -/
theorem State.isNoise_eq_false_of_min1_zero (h : s.min1 = 0) : s.isNoise = false := by
  rw [Bool.eq_false_iff, ne_eq, State.isNoise_iff, h]
  exact fun hn => Nat.not_lt_zero _ hn.2

theorem startHi_of_max1_zero (h : s.max1 = 0) (d : Timestamp) :
    startHi d s = if d = 0 then s.advanceTo 1 else s.raiseResync .startHiLong := by
  rcases startHi_cases d s with ⟨hd, hs⟩ | ⟨hd, hs⟩
  · rw [hs, if_neg fun h0 => ?_]
    simp [h, h0] at hd
  · rw [hs, if_pos (BitVec.eq_of_toNat_eq (by simpa [h] using hd))]

theorem startLo_of_period_zero (h : s.period = 0) (d : Timestamp) :
    startLo d s = if d = 0 then s.advanceTo 2 else s.raiseResync .startLoRange := by
  rcases startLo_cases d s with ⟨⟨_, hd⟩, hs⟩ | ⟨hd, hs⟩
  · rw [hs, if_pos (BitVec.eq_of_toNat_eq (by simpa [h] using hd))]
  · rw [hs, if_neg fun h0 => ?_]
    simp [h, h0] at hd

/-- Settles O31: the period and the thresholds are 0, so the noise test never holds and the start bit passes only with
durations of 0. -/
theorem floorBelowFortyGivesPeriodZero : Obligations.FloorBelowFortyGivesPeriodZero := by
  intro floor d d' ts s hfloor hd
  rw [searchAbove_of_lt hfloor]
  obtain ⟨hperiod, hmin1, hmax1, hmin5, hmax5⟩ := s.calibrate_registers_of_lt hd
  have hnoise : ((s.calibrate d).shiftDelay ts).isNoise = false := State.isNoise_eq_false_of_min1_zero hmin1
  refine ⟨hperiod, hmin1, hmax1, hmin5, hmax5, hnoise, fun h0 => ?_, fun h0 => ?_⟩
  · rw [startHi_of_max1_zero hmax1, startLo_of_period_zero hperiod, if_neg h0, if_neg h0]
    exact ⟨rfl, rfl⟩
  · rw [startHi_of_max1_zero hmax1, startLo_of_period_zero hperiod, if_pos h0, if_pos h0]
    exact ⟨rfl, rfl⟩

end Sys2Proof.Machine

/-! PROOFS of the decoder statements (spec/42_field_decoder.md, R126 to R147): an `EDGE` that measures a pulse of a frame
answers what the arm of `STATE` does on it, and a part goes through its class, the accumulator, the symbol and the field. -/

namespace Sys2Proof.Machine

variable {s : State} {d ts : Timestamp} {b v : Bool} {sym : Symbol}

/-! ### The start bit and the high of the stop bit -/

theorem startHi_of_le (h : d.toNat ≤ s.max1.toNat) : startHi d s = s.advanceTo 1 :=
  if_neg fun hc => Nat.not_lt.2 h ((exceedsShortMax_iff d s).1 hc)

theorem startHi_of_lt (h : s.max1.toNat < d.toNat) : startHi d s = s.raiseResync .startHiLong :=
  if_pos ((exceedsShortMax_iff d s).2 h)

theorem startLo_of_mem (h : 7 * s.period.toNat ≤ d.toNat ∧ d.toNat ≤ 15 * s.period.toNat) : startLo d s = s.advanceTo 2 :=
  if_pos ((startLowInRange_iff d s).2 h)

theorem startLo_of_not_mem (h : d.toNat < 7 * s.period.toNat ∨ 15 * s.period.toNat < d.toNat) :
    startLo d s = s.raiseResync .startLoRange :=
  if_neg fun hc => by
    have := (startLowInRange_iff d s).1 hc
    omega

theorem stopHi_of_le (h : d.toNat ≤ s.max1.toNat) : stopHi d s = s.advanceTo 147 :=
  if_neg fun hc => Nat.not_lt.2 h ((exceedsShortMax_iff d s).1 hc)

theorem stopHi_of_lt (h : s.max1.toNat < d.toNat) : stopHi d s = s.raiseResync .stopHiLong :=
  if_pos ((exceedsShortMax_iff d s).2 h)

/-- While decoding, `MAX1` is three periods (R30, R112). -/
theorem State.CalibrationSound.max1_eq (hc : s.CalibrationSound) (hx : 0 ≤ s.index) : s.max1.toNat = 3 * s.period.toNat := by
  obtain ⟨_, hcal⟩ := hc
  obtain ⟨_, _, hmax, _⟩ := hcal hx
  exact hmax

/-- Settles O32: the arm of state 0 on each side of its bound. -/
theorem startHighArm : Obligations.StartHighArm := by
  intro ts s hm hx
  have harm := execEdge_measured hm ((armOf_startHi_iff _).2 hx)
  refine ⟨fun hd => harm.trans (congrArg _ (startHi_of_le (s := s.measuredAt ts) hd)),
    fun hd => harm.trans (congrArg _ (startHi_of_lt (s := s.measuredAt ts) hd)), fun hc => ?_⟩
  rw [hc.max1_eq (by omega)]

/-- Settles O33: the arm of state 1 inside and outside its range. -/
theorem startLowArm : Obligations.StartLowArm := by
  intro ts s hm hx
  have harm := execEdge_measured hm ((armOf_startLo_iff _).2 hx)
  exact ⟨fun hd => harm.trans (congrArg _ (startLo_of_mem (s := s.measuredAt ts) hd)),
    fun hd => harm.trans (congrArg _ (startLo_of_not_mem (s := s.measuredAt ts) hd))⟩

/-- Settles O34: the arm of state 146 on each side of its bound. -/
theorem stopHighArm : Obligations.StopHighArm := by
  intro ts s hm hx
  have harm := execEdge_measured hm ((armOf_stopHi_iff _).2 hx)
  refine ⟨fun hd => harm.trans (congrArg _ (stopHi_of_le (s := s.measuredAt ts) hd)),
    fun hd => harm.trans (congrArg _ (stopHi_of_lt (s := s.measuredAt ts) hd)), fun hc => ?_⟩
  rw [hc.max1_eq (by omega)]

/-! ### The class of a part -/

/-- The classes of a calibrated block, in periods: the long range begins where the short one ends (R112, R131). -/
theorem State.Calibrated.classOf_iff (hc : s.Calibrated) (d : Timestamp) :
    (classOf d s = some false ↔ 3 * s.period.toNat ≤ 10 * d.toNat ∧ d.toNat ≤ 3 * s.period.toNat)
      ∧ (classOf d s = some true ↔ 3 * s.period.toNat < d.toNat ∧ d.toNat ≤ 8 * s.period.toNat)
      ∧ (classOf d s = none ↔ 10 * d.toNat < 3 * s.period.toNat ∨ 8 * s.period.toNat < d.toNat) := by
  obtain ⟨_, hmin1, hmax1, hmin5, hmax5⟩ := hc
  rw [classOf_eq_short_iff, classOf_eq_long_iff, classOf_eq_none_iff, hmin1, hmax1, hmin5, hmax5, min1_le_iff]
  refine ⟨Iff.rfl, ?_, ?_⟩ <;> omega

theorem part_of_classOf_none (hc : classOf d s = none) : part d s = .next (s.raiseResync .partRange) := by
  rw [part, hc]

theorem part_of_classOf_some (hc : classOf d s = some b) : part d s = afterShift (s.shiftAcc b) := by
  rw [part, hc]

/-- Settles O35: the classes in periods, and the arm of a part without a class. -/
theorem pulseClassifier : Obligations.PulseClassifier := by
  refine ⟨fun d s hc => hc.classOf_iff d, fun ts s hm h2 h145 hshort hlong => ?_⟩
  have harm := execEdge_measured hm ((armOf_part_iff _).2 ⟨h2, h145⟩)
  exact harm.trans (part_of_classOf_none (classOf_eq_none_iff.2 ⟨hshort, hlong⟩))

/-! ### The accumulator -/

theorem afterShift_of_not_fourth (h4 : s.index % 4 ≠ 1) : afterShift s = .next s.advance :=
  if_neg fun hc => h4 ((isFourthPart_iff _).1 hc)

theorem afterShift_of_fourth (h4 : s.index % 4 = 1) (hs : symbolOf s.acc = some sym) : afterShift s = completeBit sym s := by
  rw [afterShift, if_pos ((isFourthPart_iff _).2 h4), hs]

theorem afterShift_of_badPattern (h4 : s.index % 4 = 1) (hs : symbolOf s.acc = none) :
    afterShift s = .next (s.raiseResync .badPattern) := by
  rw [afterShift, if_pos ((isFourthPart_iff _).2 h4), hs]

/-- The three valid patterns are all there are (R134, R135). -/
theorem symbolOf_eq_none_of_ne : ∀ c : BitVec 4, c ≠ 0b0001 → c ≠ 0b0100 → c ≠ 0b0000 → symbolOf c = none := by decide

theorem symbolOf_bitPattern (v : Bool) : symbolOf (if v then 0b0100 else 0b0001) = some (bitSymbol v) := by
  cases v <;> rfl

/-- `STATE + 1` in the register is the index plus one in the register. -/
theorem State.ofInt_index_add_one (s : State) : BitVec.ofInt 9 (s.index + 1) = s.state + 1 := by
  rw [BitVec.ofInt_add, State.index, BitVec.ofInt_toInt]
  rfl

theorem State.ofInt_add_one_of_index {x : Int} (h : s.index = x) : BitVec.ofInt 9 (x + 1) = s.state + 1 :=
  h ▸ s.ofInt_index_add_one

section
variable (hm : s.Measures ts) (hx : 2 ≤ s.index ∧ s.index ≤ 145) (hc : classOf (s.ts2 - s.ts0) s = some b)
include hm hx hc

/-- A part with a class goes on with it in the accumulator (R130, R132). -/
theorem execEdge_part : execEdge ts s = afterShift ((s.measuredAt ts).shiftAcc b) :=
  (execEdge_measured hm ((armOf_part_iff _).2 hx)).trans (part_of_classOf_some hc)

/-- A fourth part that completes a valid symbol completes a bit (R134). -/
theorem execEdge_completeBit (h4 : s.index % 4 = 1) (hs : symbolOf (shl s.acc b) = some sym) :
    execEdge ts s = completeBit sym ((s.measuredAt ts).shiftAcc b) :=
  (execEdge_part hm hx hc).trans (afterShift_of_fourth h4 hs)

/-- A fourth part that completes ONE or ZERO outside the switch type gives its field the bit (R138). -/
theorem execEdge_valueBit (h4 : s.index % 4 = 1) (h113 : s.index ≠ 113)
    (hacc : shl s.acc b = if v then 0b0100 else 0b0001) :
    execEdge ts s = valueBit v ((s.measuredAt ts).shiftAcc b) :=
  (execEdge_completeBit hm hx hc h4 (hacc ▸ symbolOf_bitPattern v)).trans
    (completeBit_bitSymbol (s := (s.measuredAt ts).shiftAcc b) (fun hf => h113 ((fieldAt_switch_iff _).1 hf)) v)

end

/-- Settles O36: the class is shifted in and `STATE` advances. -/
theorem partBeforeTheFourth : Obligations.PartBeforeTheFourth := by
  intro ts s b hm h2 h145 h4 hc
  rw [State.ofInt_index_add_one]
  exact (execEdge_part hm ⟨h2, h145⟩ hc).trans (afterShift_of_not_fourth h4)

/-- Settles O37: no symbol has the pattern, so the fourth part resyncs with the accumulator shifted. -/
theorem invalidPatternResyncs : Obligations.InvalidPatternResyncs := by
  intro ts s b hm h2 h145 h4 hc hzero hone hdim
  exact (execEdge_part hm ⟨h2, h145⟩ hc).trans (afterShift_of_badPattern h4 (symbolOf_eq_none_of_ne _ hzero hone hdim))

/-! ### The fields -/

theorem valueBit_addr (h : s.index ≤ 105) : valueBit v s = .next (s.shiftAddr v).advance := by
  rw [valueBit, (fieldAt_addr_iff _).2 h]

theorem valueBit_group (h : s.index = 109) : valueBit v s = .next (s.setGroup v).advance := by
  rw [valueBit, (fieldAt_group_iff _).2 h]

theorem valueBit_unit (h : 105 < s.index ∧ s.index ≠ 109 ∧ s.index ≠ 113 ∧ s.index ≤ 129) :
    valueBit v s = afterUnitBit (s.shiftUnit v) := by
  rw [valueBit, (fieldAt_unit_iff _).2 h]

theorem valueBit_dim (h : 129 < s.index) : valueBit v s = .next (s.shiftDim v).advance := by
  rw [valueBit, (fieldAt_dim_iff _).2 h]

/-- Where the unit bit ends with a legal switch type, only the successor depends on it (R142). -/
theorem afterUnitBit_eq (h3 : s.index = 129 → s.fSwitch ≠ 3) :
    afterUnitBit s = .next (s.advanceTo (if s.index = 129 ∧ s.fSwitch ≠ 2 then 146 else s.state + 1)) := by
  simp only [afterUnitBit, State.switchIllegal_iff, State.isDimFrame_iff]
  by_cases hx : s.index = 129
  · rw [if_pos hx, if_neg (h3 hx)]
    by_cases h2 : s.fSwitch = 2
    · rw [if_pos h2, if_neg fun hc => hc.2 h2]
      rfl
    · rw [if_neg h2, if_pos ⟨hx, h2⟩]
  · rw [if_neg hx, if_neg fun hc => hx hc.1]
    rfl

theorem completeBit_switch (h : s.index = 113) (sym : Symbol) : completeBit sym s = .next (s.setSwitch sym).advance := by
  unfold completeBit
  rw [(fieldAt_switch_iff _).2 h]

theorem completeBit_dimMark (h : s.index ≠ 113) : completeBit .dimMark s = .next (s.raiseResync .dimMisplaced) := by
  unfold completeBit
  cases hf : fieldAt s.index with
  | switch => exact absurd ((fieldAt_switch_iff _).1 hf) h
  | _ => rfl

/-- Settles O38: up to state 105 the bit is the address's. -/
theorem addressBit : Obligations.AddressBit := by
  intro ts s b v hm h2 h105 h4 hc hacc
  rw [State.ofInt_index_add_one]
  exact (execEdge_valueBit hm ⟨h2, by omega⟩ hc h4 (by omega) hacc).trans (valueBit_addr h105)

/-- Settles O39: at state 109 the bit is the group. -/
theorem groupBit : Obligations.GroupBit := by
  intro ts s b v hm hx hc hacc
  have hstate : (110 : SeqWord) = s.state + 1 := State.ofInt_add_one_of_index hx
  have hbit : (if v then 1 else 0) = BitVec.ofBool v := by cases v <;> rfl
  rw [hstate, hbit]
  exact (execEdge_valueBit hm (by omega) hc (by omega) (by omega) hacc).trans (valueBit_group hx)

/-- Settles O40: at state 113 each symbol gives its switch type; elsewhere the dim marker is misplaced. -/
theorem switchTypeBitAndDimMarker : Obligations.SwitchTypeBitAndDimMarker := by
  intro ts s b hm hc
  refine ⟨fun hx k hk => ?_, fun h2 h145 h4 h113 hacc => ?_⟩
  · have hstate : (114 : SeqWord) = s.state + 1 := State.ofInt_add_one_of_index hx
    obtain ⟨sym, hsym, rfl⟩ : ∃ sym, symbolOf (shl s.acc b) = some sym ∧ k = switchOf sym := by
      rcases hk with ⟨hacc, rfl⟩ | ⟨hacc, rfl⟩ | ⟨hacc, rfl⟩
      · exact ⟨.zero, hacc ▸ rfl, rfl⟩
      · exact ⟨.one, hacc ▸ rfl, rfl⟩
      · exact ⟨.dimMark, hacc ▸ rfl, rfl⟩
    rw [hstate]
    exact (execEdge_completeBit hm (by omega) hc (by omega) hsym).trans 
      (completeBit_switch (s := (s.measuredAt ts).shiftAcc b) hx sym)
  · have hzero : (0 : BitVec 4) = shl s.acc b := hacc.symm
    rw [hzero]
    exact (execEdge_completeBit hm ⟨h2, h145⟩ hc h4 (hacc ▸ rfl)).trans (completeBit_dimMark h113)

/-- Settles O41: the bit is the unit's, and at state 129 the switch type selects the successor. -/
theorem unitBit : Obligations.UnitBit := by
  intro ts s b v hm hx h3 hc hacc
  have hfield : 105 < s.index ∧ s.index ≠ 109 ∧ s.index ≠ 113 ∧ s.index ≤ 129 := by omega
  rw [State.ofInt_index_add_one]
  calc execEdge ts s
      = valueBit v ((s.measuredAt ts).shiftAcc b) :=
        execEdge_valueBit hm (by omega) hc (by omega) (by omega) hacc
    _ = afterUnitBit (((s.measuredAt ts).shiftAcc b).shiftUnit v) :=
        valueBit_unit (s := (s.measuredAt ts).shiftAcc b) hfield
    _ = _ := afterUnitBit_eq h3

/-- Settles O42: above state 129 the bit is the dim level's. -/
theorem dimBit : Obligations.DimBit := by
  intro ts s b v hm hx hc hacc
  rw [State.ofInt_index_add_one]
  exact (execEdge_valueBit hm (by omega) hc (by omega) (by omega) hacc).trans
    (valueBit_dim (show 129 < s.index by omega))

end Sys2Proof.Machine

/-! PROOFS of the repeat and dispatch statements (spec/43_repeat_dispatch.md, R160 to R176): a completed frame runs the
aggregator, whose three answers are written out register by register; frames below the threshold are counted; and no
command but `CB_DONE` or `INIT` ends a dispatch in progress. -/

namespace Sys2Proof.Machine

variable {s t : State} {ts : Timestamp}

/-! ### Between a dispatch and its answer -/

/-- While a dispatch is in progress no `EDGE` emits an event or ends it (R167). -/
theorem EdgeNext.guard_eq (hn : EdgeNext ts s t) (hc : s.inCallback = true) :
    t.inCallback = true ∧ t.dispatches = s.dispatches ∧ t.outFrame = s.outFrame := by
  cases hn with
  | dispatch _ _ hclear => cases hc.symm.trans hclear
  | bit _ _ _ _ _ _ _ _ hu => rw [hu.frame]; exact ⟨hc, rfl, rfl⟩
  | frameRepeat | suppressed => simp [hc]
  | _ => exact ⟨hc, rfl, rfl⟩

/-- Of the other commands only `CB_DONE` and `INIT` write the guard (R40). -/
theorem exec_guard_eq {i : Instr} (hc : s.inCallback = true) (hdone : i ≠ .cbDone) (hinit : ∀ n, i ≠ .init n)
    (h : exec i s = .next t) : t.inCallback = true ∧ t.dispatches = s.dispatches ∧ t.outFrame = s.outFrame := by
  cases i with
  | edge ts => exact (execEdge_next h).guard_eq hc
  | init n => exact absurd rfl (hinit n)
  | cbDone => exact absurd rfl hdone
  | _ => cases h; exact ⟨hc, rfl, rfl⟩

/-- No command writes the port. -/
theorem exec_pending_eq {i : Instr} (h : exec i s = .next t) : t.pending = s.pending := by
  cases i with
  | edge ts =>
    obtain ⟨hpending, _⟩ := (execEdge_next h).control_eq
    exact hpending
  | _ => cases h; rfl

/-- Neither `CB_DONE` nor `INIT` is among the next `k` commands. -/
def State.GuardKeptFor (k : Nat) (s : State) : Prop :=
  ∀ c ∈ s.pending.take k, decodeWord c.word ≠ .cbDone ∧ ∀ n, decodeWord c.word ≠ .init n

/-- A step on another command keeps the dispatch in progress, and takes one command from the port. -/
theorem step_guard_eq {k : Nat} (hc : s.inCallback = true) (hk : s.GuardKeptFor (k + 1)) (h : step s = .next t) :
    t.GuardKeptFor k ∧ t.inCallback = true ∧ t.dispatches = s.dispatches ∧ t.outFrame = s.outFrame := by
  rcases step_cases s with ⟨hp, hw⟩ | ⟨c, rest, hp, he⟩
  · cases hw.symm.trans h
    exact ⟨by simp [State.GuardKeptFor, hp], hc, rfl, rfl⟩
  · have hx : exec (decodeWord c.word) { s with pending := rest } = .next t := he.symm.trans h
    have hrest : t.pending = rest := exec_pending_eq hx
    rw [State.GuardKeptFor, hp, List.take_succ_cons, List.forall_mem_cons] at hk
    obtain ⟨⟨hdone, hinit⟩, hmore⟩ := hk
    exact ⟨fun c' hc' => hmore c' (hrest ▸ hc'), exec_guard_eq (s := { s with pending := rest }) hc hdone hinit hx⟩

/-- Settles O53, by induction on the steps. -/
theorem guardHeldUntilAnswered : Obligations.GuardHeldUntilAnswered := by
  intro k s t hc (hk : s.GuardKeptFor k) hr
  induction k generalizing s with
  | zero => cases hr; exact ⟨hc, rfl, rfl⟩
  | succ k ih =>
    obtain ⟨u, hu, hr'⟩ := exists_step_of_run_succ hr
    obtain ⟨huk, huc, hud, huo⟩ := step_guard_eq hc hk hu
    obtain ⟨htc, htd, hto⟩ := ih u huc huk hr'
    exact ⟨htc, htd.trans hud, hto.trans huo⟩

/-- Settles O17: opcode 5 selects `CB_DONE` (R71), which writes the guard alone. -/
theorem cbDoneClearsGuard : Obligations.CbDoneClearsGuard := by
  refine ⟨fun w hw => ?_, fun s => ⟨rfl, fun hclear => ?_⟩⟩
  · obtain ⟨_, _, _, _, _, hfive, _⟩ := opcodeSelectsCommand w
    exact hfive hw
  · show Host.Outcome.next { s with inCallback := false } = .next s
    rw [← hclear]

/-! ### The stop gap and the answers of the aggregator -/

theorem stopLo_of_not_mem {d : Timestamp} (h : d.toNat < 20 * s.period.toNat ∨ 80 * s.period.toNat < d.toNat) :
    stopLo d s = .next (s.raiseResync .stopLoRange) :=
  if_neg fun hc => by
    have := (stopLowInRange_iff d s).1 hc
    omega

/-- Settles O43: the arm of state 147 outside its range. -/
theorem stopGapOutOfRange : Obligations.StopGapOutOfRange := fun ts s hm hx hd =>
  (execEdge_measured hm ((armOf_stopLo_iff _).2 hx)).trans (stopLo_of_not_mem (s := s.measuredAt ts) hd)

/-- The comparison and the count leave the frame in the baseline and its count in `REPEATS`, whether it is the baseline
frame or another (R162 to R164). -/
theorem State.countFrame_compareBaseline_eq (s : State) : s.compareBaseline.countFrame = { s with
    repeats := s.countAfter
    bAddr := s.fAddr, bGroup := s.fGroup, bSwitch := s.fSwitch, bUnit := s.fUnit, bDim := s.fDim } := by
  by_cases h : s.SameFrame
  · have hsame : s.compareBaseline = s := if_pos (s.sameAsBaseline_iff.2 h)
    rw [hsame, State.countFrame, State.countAfter, if_pos h]
    obtain ⟨haddr, hunit, hdim, hgroup, hswitch⟩ := h
    rw [← haddr, ← hunit, ← hdim, ← hgroup, ← hswitch]
  · have hother : s.compareBaseline = _ := if_neg fun hc => h (s.sameAsBaseline_iff.1 hc)
    rw [hother, State.countAfter, if_neg h]
    rfl

/-- At the threshold a frame is lost while a dispatch is in progress (R165, R167). -/
theorem aggregateFrame_eq_suppressDispatch (hr : s.minRepeats.toNat ≤ s.countAfter.toNat) (hc : s.inCallback = true) :
    aggregateFrame s = s.compareBaseline.countFrame.suppressDispatch := by
  rcases aggregateFrame_cases s with ⟨_, hn, _⟩ | ⟨_, _, h⟩ | ⟨hn, _⟩
  · cases hc.symm.trans hn
  · exact h
  · cases (s.thresholdReached_countFrame_iff.2 hr).symm.trans hn

/-- Settles O44: below the threshold the aggregator waits for the next repeat. -/
theorem frameBelowThreshold : Obligations.FrameBelowThreshold := by
  intro ts s hf _ hr
  have hagg := aggregateFrame_eq_awaitRepeat (s := s.measuredAt ts) hr
  rw [State.countFrame_compareBaseline_eq] at hagg
  exact (execEdge_frameEnds hf).trans (congrArg _ hagg)

/-- Settles O45: at the threshold, with the guard clear, the aggregator enters a dispatch. -/
theorem frameDispatched : Obligations.FrameDispatched := by
  intro ts s hf _ hr hc
  have hagg := aggregateFrame_eq_dispatchEntry (s := s.measuredAt ts) hr hc
  rw [State.countFrame_compareBaseline_eq] at hagg
  exact (execEdge_frameEnds hf).trans (congrArg _ hagg)

/-- Settles O46: at the threshold, with the guard set, the aggregator only leaves state 147. -/
theorem frameSuppressed : Obligations.FrameSuppressed := by
  intro ts s hf _ hr hc
  have hagg := aggregateFrame_eq_suppressDispatch (s := s.measuredAt ts) hr hc
  rw [State.countFrame_compareBaseline_eq] at hagg
  exact (execEdge_frameEnds hf).trans (congrArg _ hagg)

/-! ### Counting frames -/

theorem completeFrames_append (fs gs : List Frame) (s : State) :
    completeFrames (fs ++ gs) s = completeFrames gs (completeFrames fs s) := by
  induction fs generalizing s with
  | nil => rfl
  | cons f fs ih => exact ih _

/-- From `base` on every completed frame stayed below the threshold, and the aggregator now counts `n` frames `f`: nothing
has been emitted, and the threshold, the guard and the period are those of `base`. -/
structure Counted (base : State) (f : Frame) (n : Nat) (s : State) : Prop where
  repeats_eq : s.repeats.toNat = n
  baseline_eq : n ≠ 0 → s.baseline = f
  minRepeats_eq : s.minRepeats = base.minRepeats
  dispatches_eq : s.dispatches = base.dispatches
  inCallback_eq : s.inCallback = base.inCallback
  period_eq : s.period = base.period

section
variable {base : State} {f g : Frame} {n k : Nat}

theorem Counted.refl (h : base.repeats = 0) : Counted base f 0 base :=
  ⟨congrArg BitVec.toNat h, fun h0 => absurd rfl h0, rfl, rfl, rfl, rfl⟩

/-- One more repeat counts one more: a threshold is at most 255, so a count up to it does not wrap (R36, R164). -/
theorem Counted.countAfter_same (h : Counted base f n s) (hn : n + 1 ≤ base.minRepeats.toNat) :
    (s.withScratch f).countAfter.toNat = n + 1 := by
  have hlt := base.minRepeats.isLt
  have hr : s.repeats.toNat = n := h.repeats_eq
  rw [State.countAfter_eq]
  split
  · have hsum : s.repeats.toNat + (1 : BitVec 8).toNat < 2 ^ 8 := by rw [hr]; exact hn.trans_lt hlt
    exact (BitVec.toNat_add_of_lt hsum).trans (congrArg (· + 1) hr)
  · have h0 : n = 0 := by_contra fun h0 => ‹¬ _› (h.baseline_eq h0).symm
    rw [h0]
    rfl

/-- A frame other than the one counted so far starts the count again (R163, R171). -/
theorem Counted.countAfter_other (h : Counted base f n s) (hn : n ≠ 0) (hg : f ≠ g) :
    (s.withScratch g).countAfter = 1 := by
  rw [State.countAfter_eq, if_neg]
  exact fun hs : g = s.baseline => hg (hs.trans (h.baseline_eq hn)).symm

/-- A frame whose count is below the threshold is the one counted from now on, and nothing is emitted (R168). -/
theorem Counted.frame (h : Counted base f n s) (hk : (s.withScratch g).countAfter.toNat = k)
    (hlt : k < base.minRepeats.toNat) : Counted base g k (aggregateFrame (s.withScratch g)) := by
  have hr : (s.withScratch g).countAfter.toNat < (s.withScratch g).minRepeats.toNat := by
    rw [hk]
    exact h.minRepeats_eq ▸ hlt
  rw [aggregateFrame_eq_awaitRepeat hr, State.countFrame_compareBaseline_eq]
  exact ⟨hk, fun _ => rfl, h.minRepeats_eq, h.dispatches_eq, h.inCallback_eq, h.period_eq⟩

theorem Counted.same (h : Counted base f n s) (hlt : n + 1 < base.minRepeats.toNat) :
    Counted base f (n + 1) (aggregateFrame (s.withScratch f)) :=
  h.frame (h.countAfter_same hlt.le) hlt

theorem Counted.other (h : Counted base f n s) (hn : n ≠ 0) (hg : f ≠ g) (hlt : 1 < base.minRepeats.toNat) :
    Counted base g 1 (aggregateFrame (s.withScratch g)) :=
  h.frame (congrArg BitVec.toNat (h.countAfter_other hn hg)) hlt

/-- Repeats of the frame are counted one by one below the threshold (R169, R170). -/
theorem Counted.replicate (h : Counted base f n s) (hlt : n + k < base.minRepeats.toNat) :
    Counted base f (n + k) (completeFrames (List.replicate k f) s) := by
  induction k generalizing n s with
  | zero => exact h
  | succ k ih =>
    rw [← Nat.succ_add_eq_add_succ] at hlt ⊢
    exact ih (h.same (by omega)) hlt

/-- The repeat that reaches the threshold is dispatched (R166). -/
theorem Counted.dispatch (h : Counted base f n s) (hn : n + 1 = base.minRepeats.toNat) (hc : base.inCallback = false) :
    (aggregateFrame (s.withScratch f)).dispatches
        = base.dispatches ++ [pack base.period f.addr f.unit f.group f.switch f.dim]
      ∧ (aggregateFrame (s.withScratch f)).index = -1 := by
  have hr : (s.withScratch f).minRepeats.toNat ≤ (s.withScratch f).countAfter.toNat := by
    rw [h.countAfter_same hn.le, hn]
    exact (congrArg BitVec.toNat h.minRepeats_eq).le
  rw [aggregateFrame_eq_dispatchEntry hr (h.inCallback_eq.trans hc)]
  refine ⟨?_, State.index_dispatchEntry _⟩
  rw [← h.dispatches_eq, ← h.period_eq]
  simp [State.frameWord_eq_pack_scratch, State.scratch]

end

/-- Settles O57: the frames below the threshold are counted, and the last reaches it. -/
theorem dispatchOnNthFrame : Obligations.DispatchOnNthFrame := by
  intro f s k h0 hc hN
  have hcount : ∀ k < s.minRepeats.toNat, Counted s f k (completeFrames (List.replicate k f) s) := fun k hk => by
    simpa using (Counted.refl h0).replicate (k := k) (by omega)
  refine ⟨fun hk => ⟨(hcount k hk).dispatches_eq, (hcount k hk).repeats_eq⟩, fun hk => ?_⟩
  obtain ⟨n, rfl⟩ := Nat.exists_eq_add_one_of_ne_zero (show k ≠ 0 by omega)
  rw [List.replicate_succ', completeFrames_append]
  exact (hcount n (by omega)).dispatch hk hc

/-- Settles O58: the differing frame starts the count again, and so does the frame after it. -/
theorem changeResetsCounting : Obligations.ChangeResetsCounting := by
  intro f g s hfg h0 hN
  obtain ⟨n, hn⟩ := Nat.exists_eq_add_of_le hN
  have hpred : s.minRepeats.toNat - 1 = n + 1 := by omega
  rw [hpred, completeFrames_append, List.replicate_succ]
  have hbefore := (Counted.refl h0).replicate (f := f) (k := n + 1) (by omega)
  have hchange := hbefore.other (by omega) hfg (by omega)
  have hback := hchange.other one_ne_zero hfg.symm (by omega)
  have hend := hback.replicate (k := n) (by omega)
  exact ⟨hend.dispatches_eq, hend.repeats_eq.trans (Nat.add_comm 1 n)⟩

end Sys2Proof.Machine

/-! PROOFS of the control statements (spec/44_control.md, R180 to R187, R234): what `NOP`, the reserved commands, `INIT`,
`ENABLE` and `DISABLE` answer in every state, the level output `RECEIVING`, and the first durations measured after an
`INIT`. -/

namespace Sys2Proof.Machine

variable {s t : State} {ts : Timestamp}

/-! ### Commands without effect -/

/-- The reserved opcodes are those of 6 and above, and a program must not issue their commands (R71, R73). -/
theorem wf_eq_false_of_opcode {i : Instr} (h : 6 ≤ i.opcode.toNat) : i.wf = false := by
  cases i with
  | nop | edge | init | enable | disable | cbDone => simp [Instr.opcode] at h
  | _ => rfl

/-- `NOP` and the reserved commands, told by their opcodes, execute alike (R180, R181). -/
theorem exec_eq_next_of_opcode {i : Instr} (h : i.opcode = 0x0 ∨ 6 ≤ i.opcode.toNat) (s : State) :
    exec i s = .next s := by
  cases i with
  | edge | init | enable | disable | cbDone => simp [Instr.opcode] at h
  | _ => rfl

/-- Settles O12: the decoded command carries the opcode of the word (R70), and the opcode tells that it has no effect. -/
theorem nopAndReservedChangeNothing : Obligations.NopAndReservedChangeNothing := by
  refine ⟨fun s => ⟨rfl, rfl, rfl, rfl, rfl, rfl, rfl, rfl, rfl, rfl, rfl⟩, by decide, fun s a w rest hp hw => ?_,
    fun w hw => ?_⟩
  · rw [(stepExecutesNextCommand s).1 _ _ hp]
    exact exec_eq_next_of_opcode (by rwa [opcode_decodeWord]) _
  · exact wf_eq_false_of_opcode (by rwa [opcode_decodeWord])

/-! ### `INIT`, `ENABLE` and `DISABLE` -/

/-- Settles O13: opcode 2 selects `INIT` with its operand (R68, R71), whose writes are the "after `INIT`" column of
R45. -/
theorem initResetsEveryRegister : Obligations.InitResetsEveryRegister := by
  refine ⟨fun w hw => ?_, fun n s => rfl⟩
  obtain ⟨_, _, htwo, _⟩ := opcodeSelectsCommand w
  exact htwo hw

/-- The value of `STATE` that `INIT` and `ENABLE` write is the two's complement of -1 (R21). -/
theorem toInt_searching : (0x1FF : SeqWord).toInt = -1 := by decide

/-- Settles O14: opcode 3 selects `ENABLE` (R71), whose writes are those of R184. -/
theorem enableRestartsSearch : Obligations.EnableRestartsSearch := by
  refine ⟨fun w hw => ?_, fun s => ⟨rfl, fun t ht => ?_⟩⟩
  · obtain ⟨_, _, _, hthree, _⟩ := opcodeSelectsCommand w
    exact hthree hw
  · cases ht
    exact toInt_searching

/-- Settles O15: opcode 4 selects `DISABLE` (R71), and the enable gate turns away every edge after it (R91). -/
theorem disableClearsEnabled : Obligations.DisableClearsEnabled := by
  refine ⟨fun w hw => ?_, fun s => ⟨rfl, fun ts => execEdge_of_disabled rfl, rfl⟩⟩
  obtain ⟨_, _, _, _, hfour, _⟩ := opcodeSelectsCommand w
  exact hfour hw

/-! ### The level output -/

theorem State.receiving_iff (s : State) : s.receiving = true ↔ (Config.rxThresholdState.val : Int) < s.index :=
  s.receivingAbove_iff _

/-- Settles O18: of the parameter only its range is used, which lies between the searching value of `STATE` and its
last. -/
theorem receivingFollowsState : Obligations.ReceivingFollowsState := by
  have hrange : Config.rxThresholdState.val < 147 := Config.rxThresholdState.isLt
  refine ⟨by omega, by omega, fun s => ⟨s.receiving_iff, fun hx => ?_, fun hx => ?_, rfl, rfl⟩⟩
  · rw [Bool.eq_false_iff, ne_eq, s.receiving_iff]
    omega
  · rw [s.receiving_iff]
    omega

/-! ### `DISABLE` in either merge order -/

/-- A step on an encoded command executes it (R72). -/
theorem step_eq_exec {a : Agent} {i : Instr} {rest : List Command} (hp : s.pending = ⟨a, encode i⟩ :: rest) :
    step s = exec i { s with pending := rest } := by
  rw [(stepExecutesNextCommand s).1 _ _ hp, decodeWord_encode]

/-- Settles O19: the two steps in each order; an edge that comes first leaves the `DISABLE` on the port. -/
theorem disableActsFromNextEdge : Obligations.DisableActsFromNextEdge := by
  intro s a b ts rest hp
  refine ⟨?_, fun t ht => ?_⟩
  · have hdisable : step s = .next { s with enabled := false, pending := ⟨b, encode (.edge ts)⟩ :: rest } :=
      step_eq_exec hp
    have hedge := (step_eq_execEdge (s := { s with enabled := false, pending := ⟨b, encode (.edge ts)⟩ :: rest })
      rfl).trans (execEdge_of_disabled rfl)
    exact (core_run_succ_of_step hdisable 1).trans (core_run_succ_of_step hedge 0)
  · have hedge := (step_eq_exec (s := { s with pending := ⟨b, encode (.edge ts)⟩ :: ⟨a, encode .disable⟩ :: rest })
      rfl).trans ht
    have hdisable : step t = .next { t with enabled := false, pending := rest } := step_eq_exec (exec_pending_eq ht)
    exact (core_run_succ_of_step hedge 1).trans (core_run_succ_of_step hdisable 0)

/-! ### The first edges after `INIT` -/

/-- The block after `INIT n` as long as it has found no sync gap: it searches, with the delay-line entries `p` and `q`
that the next edge measures between, and has emitted the events `out` and no more (R183, R234). -/
structure SearchingAfterInit (n : BitVec 8) (out : List FrameWord) (p q : Timestamp) (rest : List Command)
    (s : State) : Prop where
  enabled_eq : s.enabled = true
  skip_eq : s.skip = false
  index_eq : s.index = -1
  ts0_eq : s.ts0 = p
  ts2_eq : s.ts2 = q
  minRepeats_eq : s.minRepeats = n
  dispatches_eq : s.dispatches = out
  pending_eq : s.pending = rest

section
variable {n : BitVec 8} {out : List FrameWord} {p q : Timestamp} {a : Agent} {rest : List Command}

/-- `INIT` clears the delay line (R182, R183). -/
theorem SearchingAfterInit.of_init (hp : s.pending = ⟨a, encode (.init n)⟩ :: rest) :
    ∃ t, step s = .next t ∧ SearchingAfterInit n s.dispatches 0 0 rest t :=
  ⟨_, step_eq_exec hp, rfl, rfl, toInt_searching, rfl, rfl, rfl, rfl, rfl⟩

/-- An edge that measures no sync gap moves the delay line and nothing else (R114). -/
theorem SearchingAfterInit.step_ignored (h : SearchingAfterInit n out p q (⟨a, encode (.edge ts)⟩ :: rest) s)
    (hd : (q - p).toNat ≤ 4800) : ∃ t, step s = .next t ∧ SearchingAfterInit n out q ts rest t := by
  obtain ⟨he, hk, hx, rfl, rfl, hn, ho, hp⟩ := h
  have hstep := (step_eq_execEdge hp).trans (execEdge_searching (s := { s with pending := rest }) he hk hx)
  rw [search, searchAbove_of_le hd] at hstep
  exact ⟨_, hstep, he, hk, hx, rfl, rfl, hn, ho, rfl⟩

/-- An edge that measures a sync gap calibrates on it (R110, R111). -/
theorem SearchingAfterInit.step_syncGap (h : SearchingAfterInit n out p q (⟨a, encode (.edge ts)⟩ :: rest) s)
    (hd : 4800 < (q - p).toNat) : ∃ t, step s = .next t ∧ t.index = 0 ∧ t.period.toNat = (q - p).toNat / 40 := by
  obtain ⟨he, hk, hx, rfl, rfl, _, _, hp⟩ := h
  have hstep := (step_eq_execEdge hp).trans (execEdge_syncGap (s := { s with pending := rest }) he hk hx hd)
  obtain ⟨hperiod, _⟩ := (({ s with pending := rest } : State).measuredAt ts).calibrate_registers (s.ts2 - s.ts0)
  exact ⟨_, hstep, rfl, hperiod⟩

end

/-- Settles O56: `INIT` clears the delay line, so the first edge measures 0, the second its timestamp minus 0, and the
third the interval between the two. -/
theorem staleDelayLineAfterInit : Obligations.StaleDelayLineAfterInit := by
  intro s n a b c hp
  have hzero : a - 0 = a := BitVec.sub_zero a
  obtain ⟨s₁, hinit, h₁⟩ := SearchingAfterInit.of_init hp
  obtain ⟨s₂, hedgeA, h₂⟩ := h₁.step_ignored (by decide)
  have hrun₂ (k : Nat) : Sys2Proof.core.run (k + 2) s = Sys2Proof.core.run k s₂ :=
    (core_run_succ_of_step hinit (k + 1)).trans (core_run_succ_of_step hedgeA k)
  refine ⟨fun hsync => ?_, fun hshort hsync => ?_, fun hshort hshort' => ?_⟩
  · obtain ⟨t, hedgeB, ht⟩ := h₂.step_syncGap (hzero.symm ▸ hsync)
    rw [hzero] at ht
    exact ⟨t, (hrun₂ 1).trans (core_run_succ_of_step hedgeB 0), ht⟩
  · obtain ⟨s₃, hedgeB, h₃⟩ := h₂.step_ignored (hzero.symm ▸ hshort)
    obtain ⟨t, hedgeC, ht⟩ := h₃.step_syncGap hsync
    exact ⟨t, (hrun₂ 2).trans ((core_run_succ_of_step hedgeB 1).trans (core_run_succ_of_step hedgeC 0)), ht⟩
  · obtain ⟨s₃, hedgeB, h₃⟩ := h₂.step_ignored (hzero.symm ▸ hshort)
    obtain ⟨t, hedgeC, ht⟩ := h₃.step_ignored hshort'
    exact ⟨t, (hrun₂ 2).trans ((core_run_succ_of_step hedgeB 1).trans (core_run_succ_of_step hedgeC 0)),
      ht.index_eq, ht.minRepeats_eq, ht.dispatches_eq⟩

end Sys2Proof.Machine

/-! PROOFS of the statements on failures and events (spec/60_exceptions.md, R200 to R204, R221): an `EDGE` stops on a
register value that no rule writes and on nothing else; and its next state is a resync of the arm of `STATE`, or carries one
event that is none. -/

namespace Sys2Proof.Machine

open Host (Outcome)

variable {s t : State} {ts : Timestamp} {sym : Symbol} {c : ResyncCause}

/-! ### Where an `EDGE` stops -/

/-- The arm answers, or it stops on `F_SWITCH = 3` at one of the two places that read it (U12, log entry 7). -/
def State.AnswersOrSwitchIllegal (s : State) (o : Outcome State Fault Refusal) : Prop :=
  (∃ t, o = .next t) ∨ (o = .fault .illegalSwitchType ∧ s.fSwitch = 3 ∧ (s.index = 129 ∨ s.index = 147))

theorem State.answersOrSwitchIllegal_next (s t : State) : s.AnswersOrSwitchIllegal (.next t) := .inl ⟨t, rfl⟩

theorem BitOutcome.answersOrSwitchIllegal {o : Outcome State Fault Refusal} (hb : BitOutcome sym s o) :
    s.AnswersOrSwitchIllegal o := by
  cases hb with
  | lastUnitIllegal hx h3 => exact .inr ⟨rfl, h3, .inl hx⟩
  | _ => exact s.answersOrSwitchIllegal_next _

theorem PartOutcome.answersOrSwitchIllegal {d : Timestamp} {o : Outcome State Fault Refusal} (hp : PartOutcome d s o) :
    s.AnswersOrSwitchIllegal o := by
  cases hp with
  | bit b sym => exact (completeBit_cases sym (s.shiftAcc b)).answersOrSwitchIllegal (s := s.shiftAcc b)
  | _ => exact s.answersOrSwitchIllegal_next _

theorem stopLo_answersOrSwitchIllegal (d : Timestamp) (hx : s.index = 147) : s.AnswersOrSwitchIllegal (stopLo d s) := by
  rcases stopLo_cases d s with ⟨_, h3, he⟩ | ⟨_, _, he⟩ | ⟨_, he⟩
  · exact .inr ⟨he, h3, .inr hx⟩
  · exact .inl ⟨_, he⟩
  · exact .inl ⟨_, he⟩

theorem runArm_answersOrSwitchIllegal {a : Arm} (d : Timestamp) (ha : armOf s.index = some a) :
    s.AnswersOrSwitchIllegal (runArm a d s) := by
  cases a with
  | part => exact (part_cases d s).answersOrSwitchIllegal
  | stopLo => exact stopLo_answersOrSwitchIllegal d ((armOf_stopLo_iff _).1 ha)
  | _ => exact s.answersOrSwitchIllegal_next _

/-- An edge that passes the enable gate and the skip flag meets a value that no rule writes, and this is its fault (U12,
log entries 6 and 7). -/
def State.EdgeStopsWith (s : State) (f : Fault) : Prop :=
  s.enabled = true ∧ s.skip = false
    ∧ ((f = .illegalSequencerState ∧ (s.index < -1 ∨ 147 < s.index))
      ∨ (f = .illegalSwitchType ∧ s.fSwitch = 3 ∧ (s.index = 129 ∨ s.index = 147)))

theorem execEdge_next_or_fault (ts : Timestamp) (s : State) :
    (∃ t, execEdge ts s = .next t) ∨ ∃ f, execEdge ts s = .fault f ∧ s.EdgeStopsWith f := by
  have hc := execEdge_cases ts s
  generalize execEdge ts s = o at hc ⊢
  cases hc with
  | disabled | skipped | noise => exact .inl ⟨_, rfl⟩
  | illegal he hk hx => exact .inr ⟨_, rfl, he, hk, .inl ⟨rfl, hx⟩⟩
  | measured a hm ha =>
    obtain ⟨he, hk, _⟩ := hm
    rcases runArm_answersOrSwitchIllegal (s := s.measuredAt ts) (s.ts2 - s.ts0) ha with hn | ⟨hf, hs⟩
    · exact .inl hn
    · exact .inr ⟨_, hf, he, hk, .inr ⟨rfl, hs⟩⟩

/-- Every command answers, but for an `EDGE` on a value that no rule writes (R204, R221). -/
theorem exec_next_or_fault (i : Instr) (s : State) :
    (∃ t, exec i s = .next t) ∨ ∃ ts f, i = .edge ts ∧ exec i s = .fault f ∧ s.EdgeStopsWith f := by
  cases i with
  | edge ts => exact (execEdge_next_or_fault ts s).imp_right fun ⟨f, hf, hs⟩ => ⟨ts, f, rfl, hf, hs⟩
  | _ => exact .inl ⟨_, rfl⟩

/-! ### There it does stop -/

theorem execEdge_of_illegalIndex (he : s.enabled = true) (hk : s.skip = false) (hx : s.index < -1 ∨ 147 < s.index) :
    execEdge ts s = .fault .illegalSequencerState := by
  simp [execEdge, acceptEdge, filterEdge, he, hk, (armOf_eq_none_iff _).2 hx]

theorem afterUnitBit_of_switchIllegal (hx : s.index = 129) (h3 : s.fSwitch = 3) :
    afterUnitBit s = .fault .illegalSwitchType :=
  (if_pos hx).trans (if_pos (s.switchIllegal_iff.2 h3))

theorem stopLo_of_switchIllegal {d : Timestamp} (hd : 20 * s.period.toNat ≤ d.toNat ∧ d.toNat ≤ 80 * s.period.toNat)
    (h3 : s.fSwitch = 3) : stopLo d s = .fault .illegalSwitchType :=
  (if_pos ((stopLowInRange_iff d s).2 hd)).trans (if_pos (s.switchIllegal_iff.2 h3))

/-- The last unit bit reads `F_SWITCH` once it has its value (R142). -/
theorem execEdge_lastUnitBit_of_switchIllegal {b v : Bool} (hm : s.Measures ts) (hx : s.index = 129) (h3 : s.fSwitch = 3)
    (hc : classOf (s.ts2 - s.ts0) s = some b) (hacc : shl s.acc b = if v then 0b0100 else 0b0001) :
    execEdge ts s = .fault .illegalSwitchType := by
  have hfield : 105 < s.index ∧ s.index ≠ 109 ∧ s.index ≠ 113 ∧ s.index ≤ 129 := by omega
  calc execEdge ts s
      = valueBit v ((s.measuredAt ts).shiftAcc b) :=
        execEdge_valueBit hm (by omega) hc (by omega) (by omega) hacc
    _ = afterUnitBit (((s.measuredAt ts).shiftAcc b).shiftUnit v) :=
        valueBit_unit (s := (s.measuredAt ts).shiftAcc b) hfield
    _ = .fault .illegalSwitchType := afterUnitBit_of_switchIllegal hx h3

/-- Settles O7: the inversion of `exec` for what can stop, and the three places where the faults are raised. -/
theorem stopsOnlyOnUnwrittenValues : Obligations.StopsOnlyOnUnwrittenValues := by
  refine ⟨fun i s r hr => ?_, fun i s f hf => ?_, fun s ts => execEdge_of_illegalIndex,
    fun s ts b hm hx h3 hc hacc => ?_, fun s ts hm hx h3 hlo hhi => ?_⟩
  · rcases exec_next_or_fault i s with ⟨t, ht⟩ | ⟨ts, f, _, hf, _⟩
    · cases hr.symm.trans ht
    · cases hr.symm.trans hf
  · rcases exec_next_or_fault i s with ⟨t, ht⟩ | ⟨ts, f', hi, hf', hs⟩
    · cases hf.symm.trans ht
    · cases hf.symm.trans hf'
      exact ⟨ts, hi, hs⟩
  · rcases hacc with hzero | hone
    · exact execEdge_lastUnitBit_of_switchIllegal (v := false) hm hx h3 hc hzero
    · exact execEdge_lastUnitBit_of_switchIllegal (v := true) hm hx h3 hc hone
  · exact (execEdge_measured hm ((armOf_stopLo_iff _).2 hx)).trans
      (stopLo_of_switchIllegal (s := s.measuredAt ts) ⟨hlo, hhi⟩ h3)

/-! ### The next state of an `EDGE` that resyncs -/

/-- The next states of `EDGE ts` from `s` that are a resync, by cause, each with its arm and condition (R200). -/
inductive ResyncNext (ts : Timestamp) (s : State) : ResyncCause → State → Prop where
  | startHiLong (hx : s.index = 0) (hd : s.max1.toNat < s.measured) :
      ResyncNext ts s .startHiLong ((s.measuredAt ts).raiseResync .startHiLong)
  | startLoRange (hx : s.index = 1) (hd : s.measured < 7 * s.period.toNat ∨ 15 * s.period.toNat < s.measured) :
      ResyncNext ts s .startLoRange ((s.measuredAt ts).raiseResync .startLoRange)
  | partRange (hx : 2 ≤ s.index ∧ s.index ≤ 145) (hc : classOf (s.ts2 - s.ts0) s = none) :
      ResyncNext ts s .partRange ((s.measuredAt ts).raiseResync .partRange)
  | badPattern (b : Bool) (hx : 2 ≤ s.index ∧ s.index ≤ 145) (h4 : s.index % 4 = 1)
      (hs : symbolOf (shl s.acc b) = none) :
      ResyncNext ts s .badPattern (((s.measuredAt ts).shiftAcc b).raiseResync .badPattern)
  | dimMisplaced (b : Bool) (hx : 2 ≤ s.index ∧ s.index ≤ 145) (h4 : s.index % 4 = 1) (h113 : s.index ≠ 113)
      (hs : symbolOf (shl s.acc b) = some .dimMark) :
      ResyncNext ts s .dimMisplaced (((s.measuredAt ts).shiftAcc b).raiseResync .dimMisplaced)
  | stopHiLong (hx : s.index = 146) (hd : s.max1.toNat < s.measured) :
      ResyncNext ts s .stopHiLong ((s.measuredAt ts).raiseResync .stopHiLong)
  | stopLoRange (hx : s.index = 147) (hd : s.measured < 20 * s.period.toNat ∨ 80 * s.period.toNat < s.measured) :
      ResyncNext ts s .stopLoRange ((s.measuredAt ts).raiseResync .stopLoRange)

theorem ResyncNext.trace_eq (hr : ResyncNext ts s c t) : t.trace = s.trace ++ [.resync c] := by
  cases hr <;> rfl

/-- A completed bit resyncs on a dim marker outside the switch type, and otherwise advances (R136, R144). -/
theorem BitOutcome.misplaced_or_advance (hb : BitOutcome sym s (.next t)) :
    (s.index ≠ 113 ∧ sym = .dimMark ∧ t = s.raiseResync .dimMisplaced) ∨ t.trace = s.trace ++ [.advance] := by
  cases hb with
  | misplaced h113 hs => exact .inl ⟨h113, hs, rfl⟩
  | _ => exact .inr rfl

/-- The trace of `t` is that of `s` with one event more, which is no resync. -/
def State.NotesNoResync (s t : State) : Prop := ∃ e, t.trace = s.trace ++ [e] ∧ ∀ c, e ≠ .resync c

/-- Every next state of `EDGE` is a resync, or has one other event (R201). -/
theorem EdgeNext.resync_or_event (hn : EdgeNext ts s t) : (∃ c, ResyncNext ts s c t) ∨ s.NotesNoResync t := by
  cases hn with
  | startHiLong _ hx hd => exact .inl ⟨_, .startHiLong hx hd⟩
  | startLoRange _ hx hd => exact .inl ⟨_, .startLoRange hx hd⟩
  | partRange _ hx hc => exact .inl ⟨_, .partRange hx hc⟩
  | badPattern b _ hx h4 _ hs => exact .inl ⟨_, .badPattern b hx h4 hs⟩
  | stopHiLong _ hx hd => exact .inl ⟨_, .stopHiLong hx hd⟩
  | stopLoRange _ hx hd => exact .inl ⟨_, .stopLoRange hx hd⟩
  | bit b sym _ hx h4 _ hs _ hu =>
    rcases hu.misplaced_or_advance with ⟨h113, rfl, rfl⟩ | htrace
    · exact .inl ⟨_, .dimMisplaced b hx h4 h113 hs⟩
    · exact .inr ⟨_, htrace, nofun⟩
  | frameRepeat => exact .inr ⟨.frameRepeat, by simp, nofun⟩
  | dispatch => exact .inr ⟨.dispatch, by simp, nofun⟩
  | suppressed => exact .inr ⟨.suppressed, by simp, nofun⟩
  | _ => exact .inr ⟨_, rfl, nofun⟩

/-- The event tells a resync and its cause. -/
theorem EdgeNext.resyncNext (hn : EdgeNext ts s t) (htrace : t.trace = s.trace ++ [.resync c]) : ResyncNext ts s c t := by
  rcases hn.resync_or_event with ⟨c', hr⟩ | ⟨e, he, hne⟩
  · cases List.append_cancel_left (hr.trace_eq.symm.trans htrace)
    exact hr
  · cases List.append_cancel_left (he.symm.trans htrace)
    exact absurd rfl (hne c)

/-- Settles O49: only the resyncs of a fourth part come after a shift of `ACC` (R132, R203). -/
theorem resyncWritesStateOnly : Obligations.ResyncWritesStateOnly := by
  intro ts s t c h htrace
  have hr : ResyncNext ts s c t := (execEdge_next h).resyncNext htrace
  cases hr with
  | badPattern => exact ⟨rfl, fun _ => .inl rfl⟩
  | dimMisplaced => exact ⟨rfl, fun _ => .inr rfl⟩
  | _ => exact ⟨rfl, fun hacc => absurd rfl hacc⟩

/-- The dim marker is the pattern 0000 (R134). -/
theorem eq_zero_of_symbolOf_dimMark : ∀ a : BitVec 4, symbolOf a = some .dimMark → a = 0b0000 := by decide

/-- An accumulator without a symbol is none of the three patterns (R134, R135). -/
theorem ne_patterns_of_symbolOf_eq_none :
    ∀ a : BitVec 4, symbolOf a = none → a ≠ 0b0001 ∧ a ≠ 0b0100 ∧ a ≠ 0b0000 := by decide

/-- Settles O50: the conditions of the arms, in periods since a decoding block is calibrated (R30, R112). -/
theorem resyncCauses : Obligations.ResyncCauses := by
  intro ts s t c hcal h htrace
  have hr : ResyncNext ts s c t := (execEdge_next h).resyncNext htrace
  cases hr with
  | startHiLong hx hd | stopHiLong hx hd => exact ⟨hx, hcal.max1_eq (by omega) ▸ hd⟩
  | startLoRange hx hd | stopLoRange hx hd => exact ⟨hx, hd⟩
  | partRange hx hc =>
    obtain ⟨_, hcalibrated⟩ := hcal
    obtain ⟨_, _, hnone⟩ := (hcalibrated (by omega)).classOf_iff (s.ts2 - s.ts0)
    exact ⟨hx.1, hx.2, hnone.1 hc⟩
  | badPattern b hx h4 hs => exact ⟨by omega, hx.2, h4, ne_patterns_of_symbolOf_eq_none _ hs⟩
  | dimMisplaced b hx h4 h113 hs => exact ⟨by omega, hx.2, h4, h113, eq_zero_of_symbolOf_dimMark _ hs⟩

/-! ### One event for each `EDGE` -/

/-- Settles O51: a resync is one event, with its cause; and no other command writes the trace. -/
theorem oneEventPerEdge : Obligations.OneEventPerEdge := by
  refine ⟨fun ts s t h => ?_, fun i s t hi h => ?_⟩
  · rcases (execEdge_next h).resync_or_event with ⟨c, hr⟩ | ⟨e, he, _⟩
    · exact ⟨_, hr.trace_eq⟩
    · exact ⟨e, he⟩
  · cases i with
    | edge ts => exact absurd rfl (hi ts)
    | _ => cases h; rfl

end Sys2Proof.Machine

/-! PROOFS of the statements on reset and hazards (spec/70_reset_and_hazards.md, R230, R236): the values at power-on, and
a block that meets short intervals only, which measures nothing and stays at its `STATE`. -/

namespace Sys2Proof.Machine

variable {s : State} {ts : Timestamp}

/-! ### Power-on reset -/

/-- Settles O8: the registers are read off, and `STATE` in two's complement is the searching one (R21, R96). -/
theorem powerOnValues : Obligations.PowerOnValues := by
  have hx : State.reset.index = -1 := toInt_searching
  exact ⟨hx, rfl, rfl, rfl, rfl, rfl, rfl, rfl, rfl, rfl, rfl, rfl, rfl, rfl, rfl, rfl, rfl, rfl, rfl, rfl, rfl, rfl, rfl,
    rfl, rfl, rfl, (armOf_search_iff _).2 hx⟩

/-- Settles O9: the base case of the invariant. -/
theorem invAtReset : Obligations.InvAtReset := State.inv_reset

/-! ### Short intervals only -/

/-- The state after an edge that measures nothing: the newer delay-line entries shifted, `SKIP` as the front end leaves it
and the event noted (R92, R93, R94). -/
def State.unmeasuredAt (s : State) (ts : Timestamp) (k : Bool) (e : EdgeEvent) : State :=
  { s with ts1 := s.ts2, ts2 := ts, skip := k, trace := s.trace ++ [e] }

/-- While decoding, an edge less than `MIN1` after the one before it is skipped or rejected, as `SKIP` is set or not, and
so measures nothing either way (R93, R94). -/
theorem execEdge_of_shortInterval (he : s.enabled = true) (hx : 0 ≤ s.index ∧ s.index ≤ 147)
    (hn : s.newInterval ts < s.min1.toNat) : ∃ k e, execEdge ts s = .next (s.unmeasuredAt ts k e) := by
  cases hk : s.skip with
  | true => exact ⟨false, .skipped, execEdge_of_skip he hk⟩
  | false => exact ⟨true, .noise, execEdge_of_noise he hk hx hn⟩

/-- The step on such an edge takes it from the port (R9). -/
theorem step_of_shortInterval {a : Agent} {rest : List Command} (hp : s.pending = ⟨a, encode (.edge ts)⟩ :: rest)
    (he : s.enabled = true) (hx : 0 ≤ s.index ∧ s.index ≤ 147) (hn : s.newInterval ts < s.min1.toNat) :
    ∃ k e, step s = .next (({ s with pending := rest } : State).unmeasuredAt ts k e) := by
  rw [step_eq_execEdge hp]
  exact execEdge_of_shortInterval he hx hn

/-- Settles O55, by induction on the edges: after each the block is still enabled at the same `STATE` and `MIN1`, and
`TS[2]` is that edge, from which the next interval counts (R236). -/
theorem shortIntervalsLockTheBlock : Obligations.ShortIntervalsLockTheBlock := by
  intro tss s rest he h0 hx hclose hp
  induction tss generalizing s with
  | nil =>
    obtain rfl : s.pending = rest := hp
    exact ⟨s, rfl, rfl⟩
  | cons ts tss ih =>
    simp only [closerThan, Bool.and_eq_true, decide_eq_true_eq] at hclose
    obtain ⟨hn, hclose⟩ := hclose
    obtain ⟨k, e, hstep⟩ := step_of_shortInterval hp he ⟨h0, hx⟩ hn
    obtain ⟨t, hrun, ht⟩ := ih (({ s with pending := _ } : State).unmeasuredAt ts k e) he h0 hx hclose rfl
    exact ⟨t, (core_run_succ_of_step hstep tss.length).trans hrun, ht⟩

end Sys2Proof.Machine
